-- ==== Sys2Proof/Word.lean ====
section
/-! DEFINITION. The word types of the block: 32-bit registers, lengths and addresses, bytes, 5-bit symbol values and the
40-bit group (00_scope.md R7, R8, R10; 10_state.md R31). Arithmetic on them wraps, as R11, R56 and R127 say. -/

namespace Sys2Proof

/-- One 8-bit byte or character (R7 `CHAR_BITS`, R8). -/
abbrev Byte := BitVec 8

/-- A register, a length, a limit, a count or an offset (R7 `XLEN`, `LW`). -/
abbrev Word := BitVec 32

/-- A byte address of the data memory (R7 `AW`). -/
abbrev Addr := BitVec 32

/-- The value of one symbol, 0 to 31 (R7 `SYM_BITS`). -/
abbrev SymVal := BitVec 5

/-- The 40 bits of one group: five bytes, or eight symbol values (R31, R33). -/
abbrev Group := BitVec 40

end Sys2Proof
end

