-- ==== Sys2Proof/Syntax.lean ====
section
/-! DEFINITION. The commands of the block: the five rows of the opcode map (30_encoding.md R71). -/

namespace Sys2Proof

/-- A legal command word, decoded: one constructor per row of the opcode table. -/
inductive Instr where
  /-- OP 0x1: classify one character, the immediate CHAR (R72, R105). -/
  | classify (ch : Byte)
  /-- OP 0x2: the encoded length of SRC_LEN bytes (R123). -/
  | enclen
  /-- OP 0x3: the maximum decoded size for SRC_LEN symbols (R126). -/
  | maxdec
  /-- OP 0x4: encode SRC_LEN bytes (R143). -/
  | encode
  /-- OP 0x5: decode a terminated symbol sequence (R170). -/
  | decode
  deriving DecidableEq, Repr

end Sys2Proof
end

