-- ==== Sys2Proof/WellFormed.lean ====
section
/-! DEFINITION. What makes a command well formed: the legality of the fields of its word (10_state.md R21,
30_encoding.md R70, R74). A decoded instruction cannot break these rules (its CHAR is eight bits by type), so the checks
stand over the fields of a raw word. -/

namespace Sys2Proof

/-- The four fields of a command word (R70). -/
structure CmdFields where
  rsv1 : BitVec 16
  char : Byte
  rsv0 : BitVec 4
  op   : BitVec 4
  deriving DecidableEq, Repr

/-- OP is one of 0x1 to 0x5 (R21, R71). -/
def CmdFields.opLegal (f : CmdFields) : Bool := 1 ≤ f.op && f.op ≤ 5

/-- RSV0 and RSV1 are zero (R21). -/
def CmdFields.reservedZero (f : CmdFields) : Bool := f.rsv0 == 0 && f.rsv1 == 0

/-- CHAR is zero unless the command is CLASSIFY (R21). -/
def CmdFields.charLegal (f : CmdFields) : Bool := f.op == 1 || f.char == 0

/-- The fields of a legal command word (R74). -/
def CmdFields.wf (f : CmdFields) : Bool := f.opLegal && f.reservedZero && f.charLegal

/-- The fields of an instruction's word (R71, R72). -/
def Instr.fields : Instr → CmdFields
  | .classify ch => { rsv1 := 0, char := ch, rsv0 := 0, op := 0x1 }
  | .enclen      => { rsv1 := 0, char := 0, rsv0 := 0, op := 0x2 }
  | .maxdec      => { rsv1 := 0, char := 0, rsv0 := 0, op := 0x3 }
  | .encode      => { rsv1 := 0, char := 0, rsv0 := 0, op := 0x4 }
  | .decode      => { rsv1 := 0, char := 0, rsv0 := 0, op := 0x5 }

/-- An instruction is well formed when the fields of its word are legal. -/
def Instr.wf (i : Instr) : Bool := i.fields.wf

end Sys2Proof
end

