-- ==== Sys2Proof/Decode.lean ====
section
/-! DEFINITION. Command words to instructions and back (30_encoding.md R70 to R77). Decoding is total on 32-bit words and
names the reason when a word is illegal (R75). A command is one 32-bit host write (R70, R77), so no byte order enters. -/

namespace Sys2Proof

/-- The fields of a word: RSV1[31:16], CHAR[15:8], RSV0[7:4], OP[3:0] (R70). -/
def cmdFields (v : Word) : CmdFields :=
  { rsv1 := v.extractLsb' 16 16, char := v.extractLsb' 8 8, rsv0 := v.extractLsb' 4 4, op := v.extractLsb' 0 4 }

/-- Why a command word is illegal: the three lines of R75. -/
inductive Illegal where
  /-- A non-zero bit in RSV0 or RSV1. -/
  | reservedBits (rsv1 : BitVec 16) (rsv0 : BitVec 4)
  /-- OP 0x0 or 0x6 to 0xF. -/
  | reservedOp (op : BitVec 4)
  /-- A non-CLASSIFY command with a non-zero CHAR. -/
  | strayChar (op : BitVec 4) (char : Byte)
  deriving DecidableEq, Repr

/-- A command that takes no CHAR (R75, third line). -/
def withoutChar (f : CmdFields) (i : Instr) : Except Illegal Instr :=
  if f.char = 0 then .ok i else .error (.strayChar f.op f.char)

/-- The instruction of legal fields, or the reason why the fields are illegal (R71, R75). -/
def decodeFields (f : CmdFields) : Except Illegal Instr :=
  if f.rsv1 ≠ 0 ∨ f.rsv0 ≠ 0 then .error (.reservedBits f.rsv1 f.rsv0)
  else if f.op = 0x1 then .ok (.classify f.char)
  else if f.op = 0x2 then withoutChar f .enclen
  else if f.op = 0x3 then withoutChar f .maxdec
  else if f.op = 0x4 then withoutChar f .encode
  else if f.op = 0x5 then withoutChar f .decode
  else .error (.reservedOp f.op)

/-- The instruction a written command word stands for (R73, R74). -/
def decode (v : Word) : Except Illegal Instr := decodeFields (cmdFields v)

/-- The word of four fields (R70). -/
def fieldsWord (f : CmdFields) : Word := f.rsv1 ++ f.char ++ f.rsv0 ++ f.op

/-- The command word of an instruction (R70, R71). -/
def encode (i : Instr) : Word := fieldsWord i.fields

/-- `legal(v)`, as R74 writes it out. -/
def legal (v : Word) : Bool := (cmdFields v).wf

/-- One row of the match and mask table (R73). -/
structure OpcodeRow where
  mnemonic  : String
  matchWord : Word
  mask      : Word
  deriving DecidableEq, Repr

/-- The match and mask table (R73). -/
def opcodeRows : List OpcodeRow :=
  [ { mnemonic := "CLASSIFY", matchWord := 0x00000001, mask := 0xFFFF00FF },
    { mnemonic := "ENCLEN",   matchWord := 0x00000002, mask := 0xFFFFFFFF },
    { mnemonic := "MAXDEC",   matchWord := 0x00000003, mask := 0xFFFFFFFF },
    { mnemonic := "ENCODE",   matchWord := 0x00000004, mask := 0xFFFFFFFF },
    { mnemonic := "DECODE",   matchWord := 0x00000005, mask := 0xFFFFFFFF } ]

/-- A row selects a word when `(v & mask) = match` (R73). -/
def OpcodeRow.selects (r : OpcodeRow) (v : Word) : Bool := v &&& r.mask == r.matchWord

/-- The mnemonic of an instruction (R71). -/
def Instr.mnemonic : Instr → String
  | .classify _ => "CLASSIFY"
  | .enclen     => "ENCLEN"
  | .maxdec     => "MAXDEC"
  | .encode     => "ENCODE"
  | .decode     => "DECODE"

/-- The decoder on a word as the opcode table numbers its bits: the low `nbits` bits of `w`, and zeros above them. Every
command is 32 bits (R77), so a longer number has no instruction. -/
def decodeTableWord (nbits w : Nat) : Option Instr :=
  let n := w % 2 ^ nbits
  if n < 2 ^ 32 then
    match decode (BitVec.ofNat 32 n) with
    | .ok i => some i
    | .error _ => none
  else none

end Sys2Proof
end

