-- ==== Sys2Proof/Config.lean ====
section
/-! DEFINITION. The parameters of 00_scope.md R7 that have one fixed value on this hardware, and what an unlisted byte of
memory reads as. The parameters the spec leaves to the platform (BASE, Admit, the initial memory) are plain data in State
(log 3, 4, 5). -/

namespace Sys2Proof.Config

/-- The byte that ends a symbol sequence (R7 `TERMINATOR`). -/
def terminator : Byte := 0x00

/-- The padding symbol '=' (R7 `PAD`, R101). -/
def pad : Byte := 0x3D

/-- Bytes in a Quintet Group (R7 `GROUP_BYTES`). -/
def groupBytes : Nat := 5

/-- Symbols in an Octet Group (R7 `GROUP_SYMS`). -/
def groupSyms : Nat := 8

/-- The largest data size whose encoded length fits in 32 bits (R7 `MAX_ENC_INPUT`, R122). -/
def maxEncInput : Nat := 2684354555

/-- DESIGN CHOICE (log 3), unsafe: what a byte of data memory reads as when the state lists nothing at its address. The
spec leaves the initial memory open; every content of memory is some list. -/
def blankByte : Byte := 0x00

end Sys2Proof.Config
end

