-- ==== Sys2Proof/Machine/State.lean ====
section
/-! DEFINITION. Everything the spec gives the machine, as plain data: the register window (10_state.md section 1), the
engine's working state (section 2), the data memory (20_memory.md R50), the platform's parameters (93_implementation_defined.md
section 3) and the events still to come (20_memory.md R61). -/

namespace Sys2Proof.Machine

/-- `w.op`: the command running, IDLE when none (R31). -/
inductive Op where
  | idle | enclen | maxdec | classify | encode | decode
  deriving DecidableEq, Repr

/-- `w.phase` (R31). -/
inductive Phase where
  | check | groups
  deriving DecidableEq, Repr

/-- The values STATUS.CODE takes (60_exceptions.md R210). The values 5 to 15 are never produced (R22). -/
inductive Code where
  | ok | invalidSymbol | outputLimit | badCommand | lengthRange
  deriving DecidableEq, Repr

/-- The registers of the window (R20). -/
inductive Reg where
  | cmd | status | srcAddr | srcLen | dstAddr | dstLimit | result | errPos
  deriving DecidableEq, Repr

/-- The engine's working state `w` (R31). -/
structure Work where
  op     : Op
  phase  : Phase
  src    : Addr
  len    : Word
  dst    : Addr
  lim    : Word
  char   : Byte
  inPos  : Word
  outPos : Word
  acc    : Group
  pad    : Bool
  k      : Nat
  deriving DecidableEq, Repr

/-- The data memory: (address, byte) pairs, addresses strictly rising, no byte equal to `Config.blankByte`. -/
abbrev Memory := List Host.Cell

/-- What the platform fixes and no event changes. -/
structure Platform where
  /-- BASE / 32: the window's byte address is a multiple of 32 (R7, R20). DESIGN CHOICE of form, log 5. -/
  basePage : BitVec 27
  /-- The address ranges (first, last) that do not exist: the complement of `Admit` (R51). DESIGN CHOICE of form, log 4. -/
  absent   : List (Nat × Nat)
  deriving DecidableEq, Repr

/-- One access of the host: a bus transaction of 30_encoding.md R84. -/
inductive HostAccess where
  /-- A write of `bytes` bytes at bus address `a`; `wr REG` is four bytes at the register's address (R53, R84). -/
  | write (a : Addr) (bytes : Nat) (v : Word)
  /-- A read of `bytes` bytes at bus address `a`; `rd REG` is four bytes at the register's address (R53, R84). -/
  | read (a : Addr) (bytes : Nat)
  /-- A byte write to the data memory, `sb` (R84). -/
  | store (a : Addr) (v : Byte)
  /-- A byte read of the data memory, `lb` (R84). -/
  | load (a : Addr)
  deriving DecidableEq, Repr

/-- One slot of the total order of events (R61): an access of the host, an engine step, or reset. -/
inductive Event where
  /-- An access of the host (R84). -/
  | host (h : HostAccess)
  /-- The host's polling loop `wait` (R85): the engine runs until a read of STATUS shows BUSY = 0. -/
  | wait
  /-- The engine takes one step, whole (R81). -/
  | engine
  /-- The engine takes one step with host accesses between its memory events, and between the last of them and the step's
  end (list `k` of `between` comes just before event `k`), cut short by reset after `resetAt` events and that list if it is
  given (R55, R61, R241; log 8). -/
  | split (between : List (List HostAccess)) (resetAt : Option Nat)
  /-- The environment asserts reset (R240). -/
  | reset
  deriving DecidableEq, Repr

/-- What one read of the host returned. -/
inductive Reading where
  | reg (r : Reg) (v : Word)
  | mem (a : Addr) (v : Byte)
  deriving DecidableEq, Repr

/-- The machine. -/
structure State where
  /-- STATUS.BUSY (R22). -/
  busy     : Bool
  /-- STATUS.CODE (R22). -/
  code     : Code
  srcAddr  : Word
  srcLen   : Word
  dstAddr  : Word
  dstLimit : Word
  result   : Word
  errPos   : Word
  /-- The engine's working state (R31). -/
  w        : Work
  /-- The address that does not exist at which the engine is stuck, if it is (R51); only reset leaves that state. -/
  stuckAt  : Option Addr
  /-- The data memory shared by host and engine (R50). -/
  mem      : Memory
  /-- The platform's parameters: BASE and Admit. -/
  platform : Platform
  /-- The model's own field: the events still to come, the next one first (log 1). -/
  bus      : List Event
  /-- The model's own field: what the host's reads have returned, oldest first (log 12). -/
  seen     : List Reading
  deriving DecidableEq, Repr

/-- Why the machine has no next state. -/
inductive Fault where
  /-- Raised by the engine's step (`EngineProg.run`) at an address that does not exist (R51): the engine is stuck there and
  has no step. `step` answers it only when no other event is to come (log 7). Safe: the real block does not go on either. -/
  | stuck (a : Addr)
  /-- Raised by a host access to a data address that does not exist (`State.hostStore`, `State.hostLoad`); the spec gives
  such an access no effect (R60, log 10). Safe. -/
  | hostAbsent (a : Addr)
  deriving DecidableEq, Repr

/-- Why an access is refused. -/
inductive Refusal where
  /-- Raised by an arm of `exec` whose instruction has no meaning yet. Safe. -/
  | notModelled (mnemonic : String)
  /-- Raised by a host access that touches the window and is not an aligned 32-bit access to it (`State.busWrite`,
  `State.busRead`): the spec refuses it, it has no step (R53); so is one that begins outside and reaches in (log 11).
  Safe. -/
  | windowAccess (offset : Nat) (bytes : Nat)
  deriving DecidableEq, Repr

/-- The outcome of one step of this machine. -/
abbrev Answer := Host.Outcome State Fault Refusal

/-- The working state after reset: `w.op` is IDLE (R38). DESIGN CHOICE (log 6), unsafe: the other fields are unspecified
after reset, and are zero here. -/
def Work.reset : Work :=
  { op := .idle, phase := .check, src := 0, len := 0, dst := 0, lim := 0, char := 0, inPos := 0, outPos := 0,
    acc := 0, pad := false, k := 0 }

/-- The machine right after reset (R38, R240), with nothing listed in memory and no event pending. DESIGN CHOICES: memory
(log 3), Admit (log 4), BASE (log 5), `bus` (log 1), `seen` (log 12). -/
def State.reset : State :=
  { busy := false, code := .ok, srcAddr := 0, srcLen := 0, dstAddr := 0, dstLimit := 0, result := 0, errPos := 0,
    w := Work.reset, stuckAt := none, mem := [], platform := { basePage := 0, absent := [] }, bus := [], seen := [] }

end Sys2Proof.Machine
end

