-- ==== Sys2Proof/Machine/Flags.lean ====
section
/-! DEFINITION. The only flags, BUSY and CODE (10_state.md R36), as the host reads them through STATUS (R22). Who writes
them: acceptance, completion, BAD_COMMAND and reset, in Ops.lean. -/

namespace Sys2Proof.Machine

/-- The number of a completion code (60_exceptions.md R210). -/
def codeNumber : Code → BitVec 4
  | .ok            => 0
  | .invalidSymbol => 1
  | .outputLimit   => 2
  | .badCommand    => 3
  | .lengthRange   => 4

/-- STATUS: CODE in [11:8], BUSY in [0], the reserved bits zero (R22). -/
def State.statusWord (s : State) : Word :=
  (0 : BitVec 20) ++ codeNumber s.code ++ (0 : BitVec 7) ++ BitVec.ofBool s.busy

end Sys2Proof.Machine
end

