-- ==== Sys2Proof/Machine/Operands.lean ====
section
/-! DEFINITION. Where a command's operands come from: the latches taken at acceptance (30_encoding.md R72, R80), the
addresses of the engine's accesses (20_memory.md R56), the bytes and symbol values of the group accumulator (10_state.md
R33), and the register a bus address names (R20). -/

namespace Sys2Proof.Machine

/-- The value of `w.op` for an instruction (R71, R80). -/
def opOf : Instr → Op
  | .classify _ => .classify
  | .enclen     => .enclen
  | .maxdec     => .maxdec
  | .encode     => .encode
  | .decode     => .decode

/-- The phase a command starts in (R80). -/
def startPhase : Instr → Phase
  | .encode => .check
  | _       => .groups

/-- The command running in a working state, its CHAR as latched; none when `w.op` is IDLE (R31, R72). -/
def Work.running (w : Work) : Option Instr :=
  match w.op with
  | .idle     => none
  | .classify => some (.classify w.char)
  | .enclen   => some .enclen
  | .maxdec   => some .maxdec
  | .encode   => some .encode
  | .decode   => some .decode

/-- The latches of acceptance (R80): taken whatever the command; `w.char` is CHAR of the written word, which is zero in a
legal word of any other command (R74). -/
def Work.latch (i : Instr) (s : State) : Work :=
  { s.w with
    op := opOf i, phase := startPhase i,
    src := s.srcAddr, len := s.srcLen, dst := s.dstAddr, lim := s.dstLimit,
    char := i.fields.char, inPos := 0, outPos := 0 }

/-- The address of the next byte or symbol to read, plus `i` (R56). -/
def Work.srcAt (w : Work) (i : Nat) : Addr := w.src + w.inPos + BitVec.ofNat 32 i

/-- The address of the next byte to write, plus `j` (R56). -/
def Work.dstAt (w : Work) (j : Nat) : Addr := w.dst + w.outPos + BitVec.ofNat 32 j

/-- Byte `j` of the group, `acc[39-8j : 32-8j]` (R33). -/
def groupByte (acc : Group) (j : Nat) : Byte := acc.extractLsb' (32 - 8 * j) 8

/-- Symbol value `i` of the group, `acc[39-5i : 35-5i]` (R33). -/
def groupSym (acc : Group) (i : Nat) : SymVal := acc.extractLsb' (35 - 5 * i) 5

/-- `acc[39-8j : 32-8j] <- b` (R33). -/
def setGroupByte (acc : Group) (j : Nat) (b : Byte) : Group :=
  (acc &&& ~~~((0xFF : Group) <<< (32 - 8 * j))) ||| (b.setWidth 40 <<< (32 - 8 * j))

/-- `acc[39-5i : 35-5i] <- v` (R33). -/
def setGroupSym (acc : Group) (i : Nat) (v : SymVal) : Group :=
  (acc &&& ~~~((0x1F : Group) <<< (35 - 5 * i))) ||| (v.setWidth 40 <<< (35 - 5 * i))

/-- BASE, a multiple of 32 (R7, R20). -/
def Platform.base (p : Platform) : Addr := p.basePage ++ (0 : BitVec 5)

/-- The offset of a register in the window (R20). -/
def Reg.offset : Reg → Nat
  | .cmd      => 0x00
  | .status   => 0x04
  | .srcAddr  => 0x08
  | .srcLen   => 0x0C
  | .dstAddr  => 0x10
  | .dstLimit => 0x14
  | .result   => 0x18
  | .errPos   => 0x1C

/-- The register at an offset that is a multiple of 4 (R20). -/
def regAtOffset (offset : Nat) : Option Reg :=
  match offset with
  | 0x00 => some .cmd
  | 0x04 => some .status
  | 0x08 => some .srcAddr
  | 0x0C => some .srcLen
  | 0x10 => some .dstAddr
  | 0x14 => some .dstLimit
  | 0x18 => some .result
  | 0x1C => some .errPos
  | _    => none

/-- The bus address of a register, `BASE + offset` (R20). -/
def Platform.regAddr (p : Platform) (r : Reg) : Addr := p.base + BitVec.ofNat 32 r.offset

/-- What a host bus access reaches. -/
inductive BusTarget where
  /-- No address in `BASE .. BASE+0x1F`: not an access to this block (R20). -/
  | outside
  /-- An access to the window of another width than 32 bits, or at an offset that is not a multiple of 4 (R53); an access
  that begins outside the window and reaches into it is counted here (log 11). -/
  | illFormed (offset : Nat)
  /-- A whole register (R53). -/
  | reg (r : Reg)
  deriving DecidableEq, Repr

/-- What an access of `bytes` bytes at bus address `a` reaches (R20, R53). Its offsets from BASE are `offset` and the
`bytes - 1` after it, modulo 2^32; past 2^32 - 1 they begin again at 0, the window's first byte (log 11). -/
def Platform.target (p : Platform) (a : Addr) (bytes : Nat) : BusTarget :=
  let offset := (a - p.base).toNat
  if offset < 0x20 then
    match bytes, regAtOffset offset with
    | 4, some r => .reg r
    | _, _      => .illFormed offset
  else if offset + bytes > 2 ^ 32 then .illFormed offset
  else .outside

end Sys2Proof.Machine
end

