-- ==== Sys2Proof/Machine/Ops.lean ====
section
/-! DEFINITION. The shared operations: reading and writing memory (20_memory.md R50, R61), the four events that write the
flags (00_scope.md R14 completion, 30_encoding.md R80 acceptance and R76 BAD_COMMAND, 70_reset_and_hazards.md R240 reset),
the host's memory accesses, and the engine step as a sequence of memory events (20_memory.md R55).
The block takes no exception and returns from none (60_exceptions.md R216, R217): every error is a completion, so
`State.complete` is the operation all errors share. -/

namespace Sys2Proof.Machine

/-! ### Memory -/

/-- The byte at an address: what is listed there, else the blank byte (R61, log 3). -/
def Memory.readNat : Memory → Nat → Byte
  | [], _ => Config.blankByte
  | (x, b) :: rest, a => if x = a then b else Memory.readNat rest a

/-- Reading one byte (R13, R50). -/
def Memory.read (m : Memory) (a : Addr) : Byte := m.readNat a.toNat

/-- The list without its entries at an address. -/
def Memory.erase : Memory → Nat → Memory
  | [], _ => []
  | (x, b) :: rest, a => if x = a then Memory.erase rest a else (x, b) :: Memory.erase rest a

/-- The list with an entry put before the first higher address. -/
def Memory.insert : Memory → Nat → Byte → Memory
  | [], a, v => [(a, v)]
  | (x, b) :: rest, a, v => if a < x then (a, v) :: (x, b) :: rest else (x, b) :: Memory.insert rest a v

/-- Writing one byte (R13, R50); writing the blank byte lists nothing. -/
def Memory.write (m : Memory) (a : Addr) (v : Byte) : Memory :=
  if v = Config.blankByte then m.erase a.toNat else (m.erase a.toNat).insert a.toNat v

/-- Every entry of a list lies above `lo`, in rising order, below 2^32, and none is the blank byte. -/
def Memory.wfAbove : Memory → Nat → Bool
  | [], _ => true
  | (x, b) :: rest, lo => lo ≤ x && x < 2 ^ 32 && b != Config.blankByte && Memory.wfAbove rest (x + 1)

/-- The canonical form of memory: addresses strictly rising and below 2^32, no entry equal to the blank byte. -/
def Memory.wf (m : Memory) : Bool := m.wfAbove 0

/-- `Admit` (R51): the address lies in none of the absent ranges. -/
def Platform.admits (p : Platform) (a : Addr) : Bool :=
  !(p.absent.any fun range => range.1 ≤ a.toNat && a.toNat ≤ range.2)

/-! ### Completion, acceptance, BAD_COMMAND, reset -/

/-- `complete(code, result, errpos)` (R14). -/
def State.complete (s : State) (code : Code) (result errPos : Word) : State :=
  { s with result := result, errPos := errPos, code := code, busy := false, w := { s.w with op := .idle } }

/-- Acceptance of a legal command word (R80). -/
def State.accept (i : Instr) (s : State) : State :=
  { s with w := Work.latch i s, result := 0, errPos := 0, code := .ok, busy := true }

/-- An illegal command word written while BUSY = 0 (R76): `w.op` and BUSY stay as they are. -/
def State.badCommand (s : State) : State :=
  { s with result := 0, errPos := 0, code := .badCommand }

/-- The reset event (R240): every register of the block at its reset value (R38), memory and platform untouched. -/
def State.resetEvent (s : State) : State :=
  { State.reset with mem := s.mem, platform := s.platform, bus := s.bus, seen := s.seen }

/-! ### The host's accesses to data memory -/

/-- `sb` (R84). An address that does not exist: log 10. -/
def State.hostStore (s : State) (a : Addr) (v : Byte) : Answer :=
  if s.platform.admits a then .next { s with mem := s.mem.write a v } else .fault (.hostAbsent a)

/-- `lb` (R84). An address that does not exist: log 10. -/
def State.hostLoad (s : State) (a : Addr) : Answer :=
  if s.platform.admits a then .next { s with seen := s.seen ++ [.mem a (s.mem.read a)] } else .fault (.hostAbsent a)

/-! ### One engine step -/

/-- One engine step, as its memory events in order (R55, R66) and how it ends: with the working state of the command that
goes on, or with a completion. -/
inductive EngineProg where
  /-- `MemRead(a, 1)`, and what follows for each byte it may return (R13). -/
  | read (a : Addr) (next : Byte → EngineProg)
  /-- `MemWrite(a, 1, v)` (R13). -/
  | write (a : Addr) (v : Byte) (next : EngineProg)
  /-- The step is over and the command goes on. -/
  | goOn (w : Work)
  /-- The command completes (R14). -/
  | complete (w : Work) (code : Code) (result errPos : Word)

/-- The step taken whole: one atomic transition (R17, R55). At an address that does not exist the step is not taken
(R51, R81; log 7). -/
def EngineProg.run : EngineProg → State → Answer
  | .read a next, s =>
    if s.platform.admits a then (next (s.mem.read a)).run s else .fault (.stuck a)
  | .write a v next, s =>
    if s.platform.admits a then next.run { s with mem := s.mem.write a v } else .fault (.stuck a)
  | .goOn w, s => .next { s with w := w }
  | .complete w code result errPos, s => .next (State.complete { s with w := w } code result errPos)

/-- Reads `left` bytes at ascending offsets from `j` into the accumulator, then goes on with it (R145). -/
def readGroup (w : Work) (next : Group → EngineProg) : (left j : Nat) → Group → EngineProg
  | 0, _, acc => next acc
  | left + 1, j, acc => .read (w.srcAt j) fun b => readGroup w next left (j + 1) (setGroupByte acc j b)

/-- Writes bytes at ascending offsets from `j`, then goes on (R145, R172). -/
def writeBytes (w : Work) (next : EngineProg) : (j : Nat) → List Byte → EngineProg
  | _, [] => next
  | j, b :: rest => .write (w.dstAt j) b (writeBytes w next (j + 1) rest)

/-! ### A command at a state -/

/-- What the machine does for command `i` whose engine step is `step` (log 13):
while BUSY = 0 the host's write of its word is accepted (R80);
while the engine runs `i`, the engine takes its next step (R81);
while the engine runs another command, a write of its word is dropped (R29). -/
def State.command (i : Instr) (step : EngineProg) (s : State) : Answer :=
  if s.busy = false then .next (s.accept i)
  else if s.w.op = opOf i then step.run s
  else .next s

end Sys2Proof.Machine
end

