-- ==== Sys2Proof/Machine/Classifier.lean ====
section
/-! DEFINITION. The Alphabet Table, the Symbol Classifier and CLASSIFY (40_classifier.md). -/

namespace Sys2Proof.Machine

/-- The Alphabet Table: the code point of each symbol value in order (R100). -/
def alphabetTable : List Byte :=
  [ 0x41, 0x42, 0x43, 0x44, 0x45, 0x46, 0x47, 0x48 ] ++ [ 0x49, 0x4A, 0x4B, 0x4C, 0x4D, 0x4E, 0x4F, 0x50 ] ++
  [ 0x51, 0x52, 0x53, 0x54, 0x55, 0x56, 0x57, 0x58 ] ++ [ 0x59, 0x5A, 0x32, 0x33, 0x34, 0x35, 0x36, 0x37 ]

/-- `ALPHABET[v]` (R100). The table has an entry for every value, so the default is never read. -/
def alphabet (v : SymVal) : Byte := alphabetTable.getD v.toNat Config.pad

/-- The outcome of the classifier (R102). -/
inductive SymClass where
  | value (v : SymVal)
  | padding
  | invalid
  deriving DecidableEq, Repr

/-- `classify(c)` (R102). -/
def classify (c : Byte) : SymClass :=
  if 0x41 ≤ c ∧ c ≤ 0x5A then .value ((c - 0x41).setWidth 5)
  else if 0x32 ≤ c ∧ c ≤ 0x37 then .value ((c - 0x32 + 26).setWidth 5)
  else if c = Config.pad then .padding
  else .invalid

/-- The result word of CLASSIFY: VALUE in [4:0], CLASS in [9:8] (R105). -/
def classWord : SymClass → Word
  | .value v => v.setWidth 32
  | .padding => 0x100
  | .invalid => 0x200

/-- The engine step of CLASSIFY (R105). -/
def classifyProg (w : Work) : EngineProg := .complete w .ok (classWord (classify w.char)) 0

/-- CLASSIFY (R105). -/
def execClassify (ch : Byte) (s : State) : Answer := s.command (.classify ch) (classifyProg s.w)

end Sys2Proof.Machine
end

