-- ==== Sys2Proof/Machine/Decoder.lean ====
section
/-! DEFINITION. The Decoder and DECODE (43_decoder.md). -/

namespace Sys2Proof.Machine

/-- The number of bytes that `k` value symbols determine (R173). -/
def bytesOfValues (k : Nat) : Nat := 5 * k / 8

/-- The number of bytes the group writes, cut to the limit (R174). -/
def groupBytesKept (w : Work) : Nat := min (bytesOfValues w.k) (w.lim.toNat - w.outPos.toNat)

/-- The end of a DECODE step whose group has `count` symbols, `ended` telling that the terminator came (the last lines of
R172). -/
def decodeGroupEnd (w : Work) (count : Nat) (ended : Bool) : EngineProg :=
  if count = 0 then .complete w .ok w.outPos 0
  else
    let m := groupBytesKept w
    let w' := { w with outPos := w.outPos + BitVec.ofNat 32 m, inPos := w.inPos + BitVec.ofNat 32 count }
    writeBytes w (if ended then .complete w' .ok w'.outPos 0 else .goOn w')
      0 ((List.range m).map (groupByte w.acc))

/-- The loop of a DECODE step (R172) from symbol `i` on, `left` symbols still to read: the terminator test, then the
class. `w` carries the group's accumulator, its padding bit and its count of values. -/
def decodeSymbols : (left i : Nat) → Work → EngineProg
  | 0, i, w => decodeGroupEnd w i false
  | left + 1, i, w =>
    .read (w.srcAt i) fun c =>
      if c = Config.terminator then decodeGroupEnd w i true
      else match classify c with
        | .invalid => .complete w .invalidSymbol w.outPos (w.inPos + BitVec.ofNat 32 i)
        | .padding => decodeSymbols left (i + 1) { w with pad := true }
        | .value v =>
          if w.pad = true then .complete w .invalidSymbol w.outPos (w.inPos + BitVec.ofNat 32 i)
          else decodeSymbols left (i + 1) { w with acc := setGroupSym w.acc i v, k := w.k + 1 }

/-- The engine step of DECODE: the limit test, then one Octet Group (R172). -/
def decodeProg (w : Work) : EngineProg :=
  if w.outPos = w.lim then .complete w .ok w.outPos 0
  else decodeSymbols Config.groupSyms 0 { w with acc := 0, pad := false, k := 0 }

/-- DECODE (R170). -/
def execDecode (s : State) : Answer := s.command .decode (decodeProg s.w)

end Sys2Proof.Machine
end

