-- ==== Sys2Proof/Machine/Sizes.lean ====
section
/-! DEFINITION. The Size Calculators, ENCLEN and MAXDEC (41_size_calculators.md). -/

namespace Sys2Proof.Machine

/-- `ceil_div(n, 5)`: the number of Quintet Groups of `n` bytes (R11, R120). -/
def quintetGroups (n : Nat) : Nat := (n + 4) / 5

/-- `symbol_count(n)` (R121). -/
def symbolCount (n : Nat) : Nat := quintetGroups n * 8

/-- `encoded_length(n)`, an exact natural number (R120). -/
def encodedLength (n : Nat) : Nat := quintetGroups n * 8 + 1

/-- `max_decoded_size(L)` (R124). -/
def maxDecodedSize (l : Nat) : Nat := l / 8 * 5

/-- The engine step of ENCLEN (R123). -/
def enclenProg (w : Work) : EngineProg :=
  let e := encodedLength w.len.toNat
  if e > 2 ^ 32 - 1 then .complete w .lengthRange 0 0
  else .complete w .ok (BitVec.ofNat 32 e) 0

/-- ENCLEN (R123). -/
def execEnclen (s : State) : Answer := s.command .enclen (enclenProg s.w)

/-- The engine step of MAXDEC (R126). -/
def maxdecProg (w : Work) : EngineProg :=
  .complete w .ok (BitVec.ofNat 32 (maxDecodedSize w.len.toNat)) 0

/-- MAXDEC (R126). -/
def execMaxdec (s : State) : Answer := s.command .maxdec (maxdecProg s.w)

end Sys2Proof.Machine
end

