-- ==== Sys2Proof/Machine/Encoder.lean ====
section
/-! DEFINITION. The Encoder and ENCODE (42_encoder.md). -/

namespace Sys2Proof.Machine

/-- `DATA_SYMS[n]`: the size-category table (R141). No group has 0 bytes, or more than 5. -/
def dataSyms (n : Nat) : Nat :=
  match n with
  | 0 => 0
  | 1 => 2
  | 2 => 4
  | 3 => 5
  | 4 => 7
  | _ => 8

/-- `PAD_SYMS[n]` (R141). -/
def padSyms (n : Nat) : Nat :=
  match n with
  | 0 => 8
  | 1 => 6
  | 2 => 4
  | 3 => 3
  | 4 => 1
  | _ => 0

/-- Symbol `i` of a group of `n` bytes: the symbol lookup, or the padding generator (R140, R142). -/
def groupSymbol (acc : Group) (n i : Nat) : Byte :=
  if i < dataSyms n then alphabet (groupSym acc i) else Config.pad

/-- The eight symbols of a group of `n` bytes (R142). -/
def groupSymbols (acc : Group) (n : Nat) : List Byte :=
  (List.range Config.groupSyms).map (groupSymbol acc n)

/-- ENCODE, phase CHECK: the output bound guard (R144). -/
def encodeCheckProg (w : Work) : EngineProg :=
  let e := encodedLength w.len.toNat
  if e > 2 ^ 32 - 1 then .complete w .lengthRange 0 0
  else if e > w.lim.toNat then .complete w .outputLimit (BitVec.ofNat 32 e) 0
  else .goOn { w with phase := .groups }

/-- The number of bytes of the next Quintet Group: `min(5, w.len - w.in_pos)` (R145). -/
def quintetSize (w : Work) : Nat := min Config.groupBytes (w.len.toNat - w.inPos.toNat)

/-- ENCODE, phase GROUPS, one Quintet Group (R145): its reads, then its writes. -/
def encodeGroupProg (w : Work) : EngineProg :=
  let n := quintetSize w
  readGroup w (fun acc =>
    writeBytes w
      (.goOn { w with acc := acc, inPos := w.inPos + BitVec.ofNat 32 n, outPos := w.outPos + 8 })
      0 (groupSymbols acc n))
    n 0 0

/-- ENCODE, phase GROUPS, end of input (R146). -/
def encodeEndProg (w : Work) : EngineProg :=
  .write (w.dstAt 0) Config.terminator (.complete w .ok w.outPos 0)

/-- The engine step of ENCODE (R143). In the GROUPS phase `w.in_pos ≤ w.len` (R35), so the last line is
`w.in_pos = w.len` (log 16). -/
def encodeProg (w : Work) : EngineProg :=
  match w.phase with
  | .check  => encodeCheckProg w
  | .groups => if w.inPos < w.len then encodeGroupProg w else encodeEndProg w

/-- ENCODE (R143). -/
def execEncode (s : State) : Answer := s.command .encode (encodeProg s.w)

end Sys2Proof.Machine
end

