-- ==== Sys2Proof/Machine/Dispatch.lean ====
section
/-! DEFINITION. The one dispatch from commands to meanings (30_encoding.md R71, R81). -/

namespace Sys2Proof.Machine

def exec (i : Instr) (s : State) : Host.Outcome State Fault Refusal :=
  match i with
  | .classify ch => Sys2Proof.Machine.execClassify ch s
  | .enclen => Sys2Proof.Machine.execEnclen s
  | .maxdec => Sys2Proof.Machine.execMaxdec s
  | .encode => Sys2Proof.Machine.execEncode s
  | .decode => Sys2Proof.Machine.execDecode s

end Sys2Proof.Machine
end

