-- ==== Sys2Proof/Machine/Bus.lean ====
section
/-! DEFINITION. What each event of the bus does: the host's accesses (10_state.md R20 to R29, 20_memory.md R53, R57), the
engine's turn (30_encoding.md R81), an engine step with register and memory accesses and reset between its memory events
(20_memory.md R55, R61, 70_reset_and_hazards.md R241), the polling loop (R85) and reset (R240). -/

namespace Sys2Proof.Machine

/-- What a read of a register returns (R20, R22, R29). -/
def State.readReg (s : State) : Reg → Word
  | .cmd      => 0
  | .status   => s.statusWord
  | .srcAddr  => s.srcAddr
  | .srcLen   => s.srcLen
  | .dstAddr  => s.dstAddr
  | .dstLimit => s.dstLimit
  | .result   => s.result
  | .errPos   => s.errPos

/-- A write of `v` to CMD while BUSY = 0: the command is decoded, and accepted (R80) or completed as BAD_COMMAND (R76). -/
def State.cmdWrite (s : State) (v : Word) : Answer :=
  match decode v with
  | .ok i    => exec i s
  | .error _ => .next s.badCommand

/-- A host write of a whole register: dropped while BUSY = 1 (R29), ignored by the read-only registers (R57). -/
def State.writeReg (s : State) (r : Reg) (v : Word) : Answer :=
  if s.busy then .next s
  else match r with
    | .cmd      => s.cmdWrite v
    | .srcAddr  => .next { s with srcAddr := v }
    | .srcLen   => .next { s with srcLen := v }
    | .dstAddr  => .next { s with dstAddr := v }
    | .dstLimit => .next { s with dstLimit := v }
    | .status   => .next s
    | .result   => .next s
    | .errPos   => .next s

/-- A host write on the bus (R20, R53). -/
def State.busWrite (s : State) (a : Addr) (bytes : Nat) (v : Word) : Answer :=
  match s.platform.target a bytes with
  | .outside     => .next s
  | .illFormed o => .refused (.windowAccess o bytes)
  | .reg r       => s.writeReg r v

/-- The host has read a register (R57: no side effect on the block). -/
def State.noteReg (s : State) (r : Reg) : State := { s with seen := s.seen ++ [.reg r (s.readReg r)] }

/-- A host read on the bus (R20, R53). -/
def State.busRead (s : State) (a : Addr) (bytes : Nat) : Answer :=
  match s.platform.target a bytes with
  | .outside     => .next s
  | .illFormed o => .refused (.windowAccess o bytes)
  | .reg r       => .next (s.noteReg r)

/-- The engine's turn: the next step of the command it runs; nothing when `w.op` is IDLE (R81). A stuck engine has no
step (R51). -/
def State.engineTurn (s : State) : Answer :=
  match s.stuckAt, s.w.running with
  | some a, _      => .fault (.stuck a)
  | none, none     => .next s
  | none, some i   => exec i s

/-- The engine's turn when other events may still come: an engine that is stuck, or gets stuck, lets it pass (R51, log 7). -/
def State.engineSlot (s : State) : Answer :=
  match s.engineTurn with
  | .fault (.stuck a) => .next { s with stuckAt := some a }
  | answer            => answer

/-- One access of the host (R84). -/
def State.host (s : State) : HostAccess → Answer
  | .write a bytes v => s.busWrite a bytes v
  | .read a bytes    => s.busRead a bytes
  | .store a v       => s.hostStore a v
  | .load a          => s.hostLoad a

/-- Accesses of the host one after another. -/
def State.hosts (s : State) : List HostAccess → Answer
  | [] => .next s
  | h :: rest =>
    match s.host h with
    | .next t    => State.hosts t rest
    | .fault r   => .fault r
    | .refused r => .refused r

/-- The accesses that come before the end of a slot in which no memory event is left: all of them, or those before the
reset that is due after `resetAt` events (log 8). -/
def accessesLeft (between : List (List HostAccess)) : (resetAt : Option Nat) → List HostAccess
  | none   => between.flatten
  | some k => (between.take (k + 1)).flatten

/-- The end of a slot in which no memory event is left: the accesses left, then the reset that is due (R241), or what
`finish` makes of the state. -/
def State.endSlot (s : State) (between : List (List HostAccess)) (resetAt : Option Nat) (finish : State → State) :
    Answer :=
  match s.hosts (accessesLeft between resetAt) with
  | .next t    => .next (if resetAt.isSome then t.resetEvent else finish t)
  | .fault r   => .fault r
  | .refused r => .refused r

/-- The step taken with the host's accesses, and at most one reset, between its memory events (R55, R61, R241): before
event `k` come the accesses of list `k` of `between`; a reset given as `resetAt = some k` falls after `k` events and list
`k`, or, if there are fewer events, before the step's end, and the lists after it are no part of the slot (log 8). At an address
that does not exist the engine is stuck (R51). -/
def EngineProg.runSplit : EngineProg → List (List HostAccess) → Option Nat → State → Answer
  | .read a next, between, resetAt, s =>
    match s.hosts (between.headD []) with
    | .next t =>
      if resetAt = some 0 then .next t.resetEvent
      else if t.platform.admits a then
        (next (t.mem.read a)).runSplit between.tail (resetAt.map (· - 1)) t
      else State.endSlot { t with stuckAt := some a } between.tail (resetAt.map (· - 1)) id
    | .fault r   => .fault r
    | .refused r => .refused r
  | .write a v next, between, resetAt, s =>
    match s.hosts (between.headD []) with
    | .next t =>
      if resetAt = some 0 then .next t.resetEvent
      else if t.platform.admits a then
        next.runSplit between.tail (resetAt.map (· - 1)) { t with mem := t.mem.write a v }
      else State.endSlot { t with stuckAt := some a } between.tail (resetAt.map (· - 1)) id
    | .fault r   => .fault r
    | .refused r => .refused r
  | .goOn w, between, resetAt, s => s.endSlot between resetAt fun t => { t with w := w }
  | .complete w code result errPos, between, resetAt, s =>
    s.endSlot between resetAt fun t => State.complete { t with w := w } code result errPos

/-- The engine step of an instruction (R81). -/
def engineProg (i : Instr) (w : Work) : EngineProg :=
  match i with
  | .classify _ => classifyProg w
  | .enclen     => enclenProg w
  | .maxdec     => maxdecProg w
  | .encode     => encodeProg w
  | .decode     => decodeProg w

/-- A slot for one engine step with accesses between its events; when the engine is idle or stuck it has no step (R81,
R51), and the accesses happen without one. -/
def State.splitSlot (s : State) (between : List (List HostAccess)) (resetAt : Option Nat) : Answer :=
  match s.stuckAt, s.w.running with
  | none, some i => (engineProg i s.w).runSplit between resetAt s
  | none, none   => s.endSlot between resetAt id
  | some _, _    => s.endSlot between resetAt id

/-- One round of the polling loop `wait` (R85), `rest` being the events after it: while BUSY = 1 the loop stays and the
engine takes its turn; the read that shows BUSY = 0 ends it (log 12). -/
def State.waitRound (s : State) (rest : List Event) : Answer :=
  if s.busy then s.engineSlot else .next (State.noteReg { s with bus := rest } .status)

/-- One event of the total order (R61), `rest` being those after it. -/
def State.takeEvent (s : State) (e : Event) (rest : List Event) : Answer :=
  match e with
  | .host h                => State.host { s with bus := rest } h
  | .wait                  => s.waitRound rest
  | .engine                => State.engineSlot { s with bus := rest }
  | .split between resetAt => State.splitSlot { s with bus := rest } between resetAt
  | .reset                 => .next (State.resetEvent { s with bus := rest })

/-- The next event; with none to come, the engine runs alone (log 1, log 2). -/
def State.advance (s : State) : Answer :=
  match s.bus with
  | []        => s.engineTurn
  | e :: rest => s.takeEvent e rest

/-- `wr REG, imm32` (R84). -/
def wr (p : Platform) (r : Reg) (v : Word) : HostAccess := .write (p.regAddr r) 4 v

/-- `rd REG` (R84). -/
def rd (p : Platform) (r : Reg) : HostAccess := .read (p.regAddr r) 4

/-- `sb addr, bytes` (R84): the bytes at ascending addresses. -/
def sb (a : Addr) (bytes : List Byte) : List Event :=
  bytes.mapIdx fun j b => .host (.store (a + BitVec.ofNat 32 j) b)

/-- `lb addr` (R84). -/
def lb (a : Addr) : HostAccess := .load a

/-- A command's pseudo-instruction (R85): the write of its word to CMD. -/
def issue (p : Platform) (i : Instr) : Event := .host (wr p .cmd (encode i))

/-- `run X` (R85). -/
def runCmd (p : Platform) (i : Instr) : List Event := [issue p i, .wait]

/-- `args s, n, d, l` (R85). -/
def args (p : Platform) (src len dst lim : Word) : List Event :=
  [.host (wr p .srcAddr src), .host (wr p .srcLen len), .host (wr p .dstAddr dst), .host (wr p .dstLimit lim)]

/-- A command word put where the next event is taken, and the engine free to take it (log 14). -/
def State.withCmdWord (s : State) (v : Word) : State :=
  { s with busy := false, w := { s.w with op := .idle }, stuckAt := none, bus := .host (wr s.platform .cmd v) :: s.bus }

end Sys2Proof.Machine
end

