-- ==== Sys2Proof/Machine/Step.lean ====
section
/-! DEFINITION. One step of the machine: one event of the total order of 20_memory.md R61. -/

namespace Sys2Proof.Machine

/-- One step: the next event of the bus, or the engine's turn when none is left. -/
def step (s : State) : Host.Outcome State Fault Refusal := s.advance

/-- The state with the command word `w` (its low `nbits` bits) written to CMD by the very next event, the engine idle so
that the write is taken (log 14). -/
def State.withFetchWord (s : State) (nbits w : Nat) : State := s.withCmdWord (BitVec.ofNat 32 (w % 2 ^ nbits))

end Sys2Proof.Machine
end

