-- ==== Sys2Proof/Machine/Functional.lean ====
section
/-! DEFINITION. The functional views the spec gives of the two transforms (42_encoder.md R142, R148; 43_decoder.md R180):
functions on whole texts, written from those rules and not from the engine's steps. Statements compare the engine with
them; no step calls them. -/

namespace Sys2Proof.Machine

/-- `{b_0, b_1, b_2, b_3, b_4}`, absent bytes zero (R142). -/
def groupOfBytes (bytes : List Byte) : Group :=
  bytes.getD 0 0 ++ bytes.getD 1 0 ++ bytes.getD 2 0 ++ bytes.getD 3 0 ++ bytes.getD 4 0

/-- `{v_0, …, v_7}`, absent values zero (R180). -/
def groupOfValues (vals : List SymVal) : Group :=
  vals.getD 0 0 ++ vals.getD 1 0 ++ vals.getD 2 0 ++ vals.getD 3 0 ++
  vals.getD 4 0 ++ vals.getD 5 0 ++ vals.getD 6 0 ++ vals.getD 7 0

/-- The eight symbol values of a group, the first the most significant (R33). -/
def groupValues (acc : Group) : List SymVal :=
  [ acc.extractLsb' 35 5, acc.extractLsb' 30 5, acc.extractLsb' 25 5, acc.extractLsb' 20 5,
    acc.extractLsb' 15 5, acc.extractLsb' 10 5, acc.extractLsb' 5 5, acc.extractLsb' 0 5 ]

/-- The five bytes of a group, the first the most significant (R33). -/
def groupBytesOf (acc : Group) : List Byte :=
  [ acc.extractLsb' 32 8, acc.extractLsb' 24 8, acc.extractLsb' 16 8, acc.extractLsb' 8 8, acc.extractLsb' 0 8 ]

/-- `encode_group(b_0 … b_{n-1})` (R142). -/
def encodeGroup (bytes : List Byte) : List Byte :=
  let d := dataSyms bytes.length
  ((groupValues (groupOfBytes bytes)).take d).map alphabet ++ List.replicate (8 - d) Config.pad

/-- `encode(B)` (R148): the groups of five bytes in order, the last one shorter. -/
def encodeText : List Byte → List Byte
  | [] => []
  | [b0] => encodeGroup [b0]
  | [b0, b1] => encodeGroup [b0, b1]
  | [b0, b1, b2] => encodeGroup [b0, b1, b2]
  | [b0, b1, b2, b3] => encodeGroup [b0, b1, b2, b3]
  | b0 :: b1 :: b2 :: b3 :: b4 :: rest => encodeGroup [b0, b1, b2, b3, b4] ++ encodeText rest

/-- The value of a character, zero when it has none (R180: `v = 0 for Padding or absent`). -/
def valueOf (c : Byte) : SymVal :=
  match classify c with
  | .value v => v
  | .padding => 0
  | .invalid => 0

/-- Whether the classifier gives the character a value. -/
def isValue (c : Byte) : Bool :=
  match classify c with
  | .value _ => true
  | .padding => false
  | .invalid => false

/-- The index of the first symbol of a group that fails: Invalid, or a Value after a Padding, `padded` telling that a
Padding has come (R176, R180). -/
def firstBad (padded : Bool) : List Byte → Option Nat
  | [] => none
  | c :: rest =>
    match classify c with
    | .invalid => some 0
    | .padding => (firstBad true rest).map (· + 1)
    | .value _ => if padded then some 0 else (firstBad padded rest).map (· + 1)

/-- The bytes of a group of symbols before the limit cuts them (R180). -/
def decodeGroup (symbols : List Byte) : List Byte :=
  (groupBytesOf (groupOfValues (symbols.map valueOf))).take (bytesOfValues (symbols.countP isValue))

/-- What a DECODE of a text comes to: its CODE, the bytes written, and ERR_POS (R180). -/
structure Decoded where
  code   : Code
  out    : List Byte
  errPos : Nat
  deriving DecidableEq, Repr

/-- The loop of `decode_fn` (R180): `out` written so far, `pos` symbols used, `text` those still to come. Every round that
goes on uses up eight symbols, so a fuel above the number of groups is never used up. -/
def decodeLoop (limit : Nat) : (fuel : Nat) → (out : List Byte) → (pos : Nat) → (text : List Byte) → Option Decoded
  | 0, _, _, _ => none
  | fuel + 1, out, pos, text =>
    if out.length = limit then some { code := .ok, out := out, errPos := 0 }
    else
      let g := text.take 8
      if g = [] then some { code := .ok, out := out, errPos := 0 }
      else match firstBad false g with
        | some i => some { code := .invalidSymbol, out := out, errPos := pos + i }
        | none =>
          let out' := out ++ (decodeGroup g).take (limit - out.length)
          if g.length < 8 then some { code := .ok, out := out', errPos := 0 }
          else decodeLoop limit fuel out' (pos + 8) (text.drop 8)

/-- `decode_fn(S, lim)` (R180). -/
def decodeText (text : List Byte) (limit : Nat) : Option Decoded :=
  decodeLoop limit (text.length / 8 + 2) [] 0 text

end Sys2Proof.Machine
end

