-- ==== Sys2Proof/Safety.lean ====
section
/-! DEFINITION. What counts as a safe state and a safe run: the invariant that every step keeps, and the host duties of
70_reset_and_hazards.md section 3 under which the transforms' results hold. -/

namespace Sys2Proof.Machine

/-- The states between which every step moves. Each line is a rule of the spec about every moment of the machine. -/
structure Inv (s : State) : Prop where
  /-- Memory is in its canonical form. -/
  memory      : s.mem.wf = true
  /-- BUSY is 1 from acceptance to completion, and only then is a command running (R22, R31, R81). -/
  busyRuns    : s.busy = true ↔ s.w.op ≠ .idle
  /-- While BUSY = 1, STATUS shows CODE 0 and RESULT and ERR_POS read 0 (R29). -/
  busyClear   : s.busy = true → s.code = .ok ∧ s.result = 0 ∧ s.errPos = 0
  /-- ERR_POS is 0 unless the last command ended with INVALID_SYMBOL (R28). -/
  errPosZero  : s.code ≠ .invalidSymbol → s.errPos = 0
  /-- The engine is stuck only while it runs a command (R51). -/
  stuckBusy   : s.stuckAt ≠ none → s.busy = true
  /-- Only ENCODE has a CHECK phase (R31, R80). -/
  phaseGroups : s.busy = true → s.w.op ≠ .encode → s.w.phase = .groups
  /-- ENCODE has moved nothing before its guard has passed (R144). -/
  encodeStart : s.w.op = .encode → s.w.phase = .check → s.w.inPos = 0 ∧ s.w.outPos = 0
  /-- ENCODE's guard has passed once it writes (R144). -/
  encodeFits  : s.w.op = .encode → s.w.phase = .groups → encodedLength s.w.len.toNat ≤ s.w.lim.toNat
  /-- ENCODE takes its input in whole groups from the start, only the last of which may be short (R35, R145). -/
  encodeIn    : s.w.op = .encode → s.w.inPos ≤ s.w.len ∧ (s.w.inPos.toNat % 5 = 0 ∨ s.w.inPos = s.w.len)
  /-- ENCODE has written eight symbols for each group it has taken (R35, R145). -/
  encodeOut   : s.w.op = .encode → s.w.outPos.toNat = symbolCount s.w.inPos.toNat
  /-- DECODE has not passed its limit (R35, R174). -/
  decodeOut   : s.w.op = .decode → s.w.outPos ≤ s.w.lim
  /-- At most eight value symbols in a group (R31). -/
  valueCount  : s.w.k ≤ 8

/-- The engine runs command `i`: BUSY is 1 and `w.op` is its operation (R22, R81). -/
abbrev Runs (i : Instr) (s : State) : Prop := s.busy = true ∧ s.w.op = opOf i

/-- The first `n` addresses from `a` on exist (R51), the addresses taken modulo 2^32 (R56). -/
abbrev Admitted (p : Platform) (a : Addr) (n : Nat) : Prop := ∀ j < n, p.admits (a + BitVec.ofNat 32 j) = true

/-- The first `n` addresses from `a` on and the first `m` from `b` on have none in common (R253). -/
abbrev Apart (a : Addr) (n : Nat) (b : Addr) (m : Nat) : Prop :=
  ∀ i < n, ∀ j < m, a + BitVec.ofNat 32 i ≠ b + BitVec.ofNat 32 j

/-- Memory holds a list of bytes from address `a` on. -/
abbrev Holds (m : Memory) (a : Addr) (bytes : List Byte) : Prop :=
  ∀ j, (h : j < bytes.length) → m.read (a + BitVec.ofNat 32 j) = bytes[j]

/-- Two memories read alike at every address but the first `n` from `a` on. -/
def SameOutside (m m' : Memory) (a : Addr) (n : Nat) : Prop :=
  ∀ x : Addr, (∀ j < n, x ≠ a + BitVec.ofNat 32 j) → m'.read x = m.read x

/-- The bytes memory holds from address `a` on. -/
def Memory.bytesAt (m : Memory) (a : Addr) (n : Nat) : List Byte :=
  (List.range n).map fun j => m.read (a + BitVec.ofNat 32 j)

/-- The state right after acceptance of ENCODE or DECODE, with no event to come: the command runs alone (R80, R148, R180). -/
abbrev Accepted (i : Instr) (s : State) : Prop :=
  Runs i s ∧ s.w.phase = startPhase i ∧ s.w.inPos = 0 ∧ s.w.outPos = 0 ∧ s.stuckAt = none ∧ s.bus = []

/-- A state in which a command has completed and nothing else is going on: BUSY is 0 and `w.op` is IDLE (R14). -/
abbrev Completed (s : State) (code : Code) (result errPos : Word) : Prop :=
  s.busy = false ∧ s.w.op = .idle ∧ s.code = code ∧ s.result = result ∧ s.errPos = errPos

/-- The engine step of command `i` is stuck at address `a` (R51, R81): alone, the machine then has no step; as one event
among others the engine is marked stuck, and every other part of the machine stays as it is (log 7). -/
abbrev GetsStuck (i : Instr) (s : State) (a : Addr) : Prop :=
  exec i s = .fault (.stuck a) ∧ (s.bus = [] → step s = .fault (.stuck a)) ∧
  ∀ rest, s.bus = .engine :: rest → step s = .next { s with bus := rest, stuckAt := some a }

/-- The next event resets the block inside an engine step that has written `written` from address `a` on: the block is
idle, every register reads 0, and every other byte is as before (R240, R241). -/
abbrev ResetLeaves (s : State) (rest : List Event) (a : Addr) (written : List Byte) : Prop :=
  ∃ t, step s = .next t ∧ t.w.op = .idle ∧ (∀ r, t.readReg r = 0) ∧ t.bus = rest ∧
    Holds t.mem a written ∧ SameOutside s.mem t.mem a written.length

/-- An access that is a host write to CMD (R20, R57). -/
abbrev WritesCmd (p : Platform) (h : HostAccess) : Prop :=
  ∃ a bytes v, h = .write a bytes v ∧ p.target a bytes = .reg .cmd

/-- `n` steps of the machine, stopping at the first that has no next state. -/
def runSteps : (n : Nat) → State → Answer
  | 0, s => .next s
  | n + 1, s =>
    match step s with
    | .next t    => runSteps n t
    | .fault r   => .fault r
    | .refused r => .refused r

end Sys2Proof.Machine
end

