-- ==== Sys2Proof/Certificates/Slice0/Obligations.lean ====
section
/-! DEFINITION. What is claimed of the model, for the provers: each statement says which rule of the spec it formalises. -/

open Sys2Proof Sys2Proof.Machine

/-! ### Command words (30_encoding.md) -/

/-- Decoding and encoding are inverse to each other on every word and every instruction (R70 to R74). -/
def Obligations.DecodeIsInverseOfEncode : Prop :=
  ∀ (v : Word) (i : Instr), decode v = .ok i ↔ encode i = v

/-- R74: `legal(v)` as it is written out; some row of the match and mask table selects `v` exactly when `v` is legal, only
one row does, and it is that of the decoded mnemonic. -/
def Obligations.LegalWordsHaveOneMnemonic : Prop :=
  ∀ v : Word,
    (legal v = true ↔
      v.extractLsb' 16 16 = 0 ∧ v.extractLsb' 4 4 = 0 ∧
      (v.extractLsb' 0 4 = 1 ∨ v.extractLsb' 0 4 = 2 ∨ v.extractLsb' 0 4 = 3 ∨ v.extractLsb' 0 4 = 4 ∨
        v.extractLsb' 0 4 = 5) ∧
      (v.extractLsb' 0 4 = 1 ∨ v.extractLsb' 8 8 = 0)) ∧
    (legal v = true ↔ ∃ r ∈ opcodeRows, r.selects v = true) ∧
    (∀ r₁ ∈ opcodeRows, ∀ r₂ ∈ opcodeRows, r₁.selects v = true → r₂.selects v = true → r₁ = r₂) ∧
    (legal v = true → ∃ i, decode v = .ok i ∧ ∃ r ∈ opcodeRows, r.selects v = true ∧ r.mnemonic = i.mnemonic) ∧
    (legal v = false → ∃ e, decode v = .error e)

/-- The three lines of R75, each under the name the model gives it. -/
def Obligations.IllegalWordsHaveTheirReason : Prop :=
  ∀ v : Word,
    (v.extractLsb' 16 16 ≠ 0 ∨ v.extractLsb' 4 4 ≠ 0 →
      decode v = .error (.reservedBits (v.extractLsb' 16 16) (v.extractLsb' 4 4))) ∧
    (v.extractLsb' 16 16 = 0 → v.extractLsb' 4 4 = 0 → (v.extractLsb' 0 4 = 0 ∨ 6 ≤ v.extractLsb' 0 4) →
      decode v = .error (.reservedOp (v.extractLsb' 0 4))) ∧
    (v.extractLsb' 16 16 = 0 → v.extractLsb' 4 4 = 0 → 2 ≤ v.extractLsb' 0 4 → v.extractLsb' 0 4 ≤ 5 →
      v.extractLsb' 8 8 ≠ 0 → decode v = .error (.strayChar (v.extractLsb' 0 4) (v.extractLsb' 8 8)))

/-- Words written out from R70, R71 and R73, and what they stand for; a few illegal ones (95_test_vectors.md 3.6). -/
def Obligations.WrittenWordsDecode : Prop :=
  decode 0x00004D01 = .ok (.classify 0x4D) ∧ decode 0x0000FF01 = .ok (.classify 0xFF) ∧
  decode 0x00000002 = .ok .enclen ∧ decode 0x00000003 = .ok .maxdec ∧ decode 0x00000004 = .ok .encode ∧
  decode 0x00000005 = .ok .decode ∧ decodeTableWord 32 0x00000005 = some .decode ∧
  decode 0x00000000 = .error (.reservedOp 0) ∧ decode 0x0000000F = .error (.reservedOp 0xF) ∧
  decode 0x00000012 = .error (.reservedBits 0 1) ∧ decode 0x00010002 = .error (.reservedBits 1 0) ∧
  decode 0x00004D05 = .error (.strayChar 5 0x4D)

/-! ### A step runs the decoded instruction -/

/-- The host's write of a legal word to CMD, while BUSY = 0, is the meaning of the decoded instruction (R80). -/
def Obligations.CmdWriteRunsDecodedInstruction : Prop :=
  ∀ (s : State) (v : Word) (i : Instr) (rest : List Event),
    s.bus = .host (wr s.platform .cmd v) :: rest → s.busy = false → decode v = .ok i →
    step s = exec i { s with bus := rest }

/-- The engine's turn is the meaning of the latched instruction (R81), whether it comes as an event or because no event is
left. -/
def Obligations.EngineTurnRunsLatchedInstruction : Prop :=
  ∀ (s : State) (i : Instr), s.w.running = some i → s.stuckAt = none →
    (s.bus = [] → step s = exec i s) ∧
    (∀ (rest : List Event) (t : State), s.bus = .engine :: rest → exec i { s with bus := rest } = .next t →
      step s = .next t)

/-- The word that `withFetchWord` places is the one the very next step decodes and runs, on an idle engine (log 14: the
model's form of a fetch). -/
def Obligations.FetchedWordRuns : Prop :=
  ∀ (s : State) (nbits w : Nat) (i : Instr), decodeTableWord nbits w = some i →
    step (s.withFetchWord nbits w) =
      exec i { s with busy := false, w := { s.w with op := .idle }, stuckAt := none }

/-! ### The host's accesses (10_state.md, 20_memory.md, 30_encoding.md) -/

/-- R80: acceptance latches every argument, clears RESULT, ERR_POS and CODE, and sets BUSY; the engine then runs the
command. -/
def Obligations.AcceptanceLatchesOperands : Prop :=
  ∀ (s : State) (v : Word) (i : Instr) (rest : List Event),
    s.bus = .host (wr s.platform .cmd v) :: rest → s.busy = false → decode v = .ok i →
    ∃ t, step s = .next t ∧ t.w.running = some i ∧
      t = { s with
        bus := rest, result := 0, errPos := 0, code := .ok, busy := true,
        w := { s.w with
          op := opOf i, src := s.srcAddr, len := s.srcLen, dst := s.dstAddr, lim := s.dstLimit,
          char := v.extractLsb' 8 8, inPos := 0, outPos := 0, phase := if i = .encode then .check else .groups } }

/-- Every instruction given to an idle block is accepted: `exec` answers a next state, BUSY = 1 and `w.op` its own (R80). -/
def Obligations.IdleBlockAcceptsEveryInstruction : Prop :=
  ∀ (i : Instr) (s : State), s.busy = false →
    ∃ t, exec i s = .next t ∧ Runs i t ∧ t.mem = s.mem ∧ t.w.inPos = 0 ∧ t.w.outPos = 0

/-- R76: an illegal word written while BUSY = 0 sets CODE 3, RESULT 0 and ERR_POS 0, and does nothing else; STATUS then
reads 0x00000300. While BUSY = 1 it is dropped. -/
def Obligations.BadCommandCompletesInTheWrite : Prop :=
  ∀ (s : State) (v : Word) (rest : List Event),
    s.bus = .host (wr s.platform .cmd v) :: rest → legal v = false →
    (s.busy = false → ∃ t, step s = .next t ∧ t.statusWord = 0x00000300 ∧
      t = { s with bus := rest, result := 0, errPos := 0, code := .badCommand }) ∧
    (s.busy = true → step s = .next { s with bus := rest })

/-- R29: while BUSY = 1 a write to any register changes nothing, and a read returns the arguments as last written, RESULT
and ERR_POS 0, and STATUS with BUSY = 1 and CODE = 0. -/
def Obligations.BusyDropsWritesAndReadsClear : Prop :=
  ∀ (s : State) (r : Reg) (rest : List Event), Inv s → s.busy = true →
    (∀ v, s.bus = .host (wr s.platform r v) :: rest → step s = .next { s with bus := rest }) ∧
    (s.bus = .host (rd s.platform r) :: rest →
      step s = .next { s with
        bus := rest,
        seen := s.seen ++ [.reg r (match r with
          | .cmd => 0 | .status => 1 | .srcAddr => s.srcAddr | .srcLen => s.srcLen | .dstAddr => s.dstAddr
          | .dstLimit => s.dstLimit | .result => 0 | .errPos => 0)] })

/-- R57: what a register access does; and what a read of each register returns (R20 to R28). -/
def Obligations.RegisterAccessEffects : Prop :=
  ∀ (s : State) (v : Word) (rest : List Event),
    (s.busy = false → s.bus = .host (wr s.platform .cmd v) :: rest →
      (legal v = true → ∃ t, step s = .next t ∧ t.busy = true) ∧
      (legal v = false → ∃ t, step s = .next t ∧ t.busy = false ∧ t.code = .badCommand)) ∧
    (s.busy = false → s.bus = .host (wr s.platform .srcAddr v) :: rest →
      step s = .next { s with bus := rest, srcAddr := v }) ∧
    (s.busy = false → s.bus = .host (wr s.platform .srcLen v) :: rest →
      step s = .next { s with bus := rest, srcLen := v }) ∧
    (s.busy = false → s.bus = .host (wr s.platform .dstAddr v) :: rest →
      step s = .next { s with bus := rest, dstAddr := v }) ∧
    (s.busy = false → s.bus = .host (wr s.platform .dstLimit v) :: rest →
      step s = .next { s with bus := rest, dstLimit := v }) ∧
    (∀ r ∈ [Reg.srcAddr, .srcLen, .dstAddr, .dstLimit], s.busy = true → s.bus = .host (wr s.platform r v) :: rest →
      step s = .next { s with bus := rest }) ∧
    (∀ r ∈ [Reg.status, .result, .errPos], s.bus = .host (wr s.platform r v) :: rest →
      step s = .next { s with bus := rest }) ∧
    (∀ r, s.bus = .host (rd s.platform r) :: rest →
      step s = .next { s with
        bus := rest,
        seen := s.seen ++ [.reg r (match r with
          | .cmd => 0 | .status => s.statusWord | .srcAddr => s.srcAddr | .srcLen => s.srcLen | .dstAddr => s.dstAddr
          | .dstLimit => s.dstLimit | .result => s.result | .errPos => s.errPos)] })

/-- R22: the fields a read of STATUS returns; the read clears nothing; a write has no effect; CODE is at most 4. R210: the
number of each of the five codes. -/
def Obligations.StatusReadsItsFields : Prop :=
  ∀ (s : State) (rest : List Event),
    (s.bus = .host (rd s.platform .status) :: rest →
      ∃ x : Word, step s = .next { s with bus := rest, seen := s.seen ++ [.reg .status x] } ∧
        x.getLsbD 0 = s.busy ∧ x.extractLsb' 1 7 = 0 ∧ x.extractLsb' 8 4 = codeNumber s.code ∧
        x.extractLsb' 12 20 = 0) ∧
    (∀ v, s.bus = .host (wr s.platform .status v) :: rest → step s = .next { s with bus := rest }) ∧
    (codeNumber s.code).toNat ≤ 4 ∧
    codeNumber .ok = 0 ∧ codeNumber .invalidSymbol = 1 ∧ codeNumber .outputLimit = 2 ∧ codeNumber .badCommand = 3 ∧
    codeNumber .lengthRange = 4

/-- R20: register k is at `BASE + 4*k`, BASE a multiple of 32; an access all of whose bytes lie outside the window is not
one to this block. -/
def Obligations.WindowMapOfRegisters : Prop :=
  ∀ (s : State) (rest : List Event),
    s.platform.base.toNat % 32 = 0 ∧
    (∀ k, (h : k < 8) → s.platform.target (s.platform.base + BitVec.ofNat 32 (4 * k)) 4 =
      .reg ([Reg.cmd, .status, .srcAddr, .srcLen, .dstAddr, .dstLimit, .result, .errPos][k])) ∧
    (∀ (a : Addr) (bytes : Nat),
      0x20 ≤ (a - s.platform.base).toNat → (a - s.platform.base).toNat + bytes ≤ 2 ^ 32 →
      (∀ v, s.bus = .host (.write a bytes v) :: rest → step s = .next { s with bus := rest }) ∧
      (s.bus = .host (.read a bytes) :: rest → step s = .next { s with bus := rest }))

/-- R53, third point: an access to the window of another width, or at an offset that is not a multiple of 4, has no step.
That an access which begins outside the window and reaches into it is one of these is the model's reading (log 11). -/
def Obligations.OddWindowAccessRefused : Prop :=
  ∀ (s : State) (a : Addr) (bytes : Nat) (rest : List Event),
    let offset := (a - s.platform.base).toNat
    ((offset < 0x20 ∧ (bytes ≠ 4 ∨ offset % 4 ≠ 0)) ∨ (0x20 ≤ offset ∧ 2 ^ 32 < offset + bytes)) →
    (∀ v, s.bus = .host (.write a bytes v) :: rest → step s = .refused (.windowAccess offset bytes)) ∧
    (s.bus = .host (.read a bytes) :: rest → step s = .refused (.windowAccess offset bytes))

/-- R61 for the host alone: a load returns the last byte stored at its address, else what was there before. -/
def Obligations.HostLoadReturnsLastStore : Prop :=
  ∀ (s : State) (a c : Addr) (v : Byte) (rest : List Event),
    s.platform.admits a = true → s.platform.admits c = true →
    s.bus = .host (.store a v) :: .host (lb c) :: rest →
    ∃ t, runSteps 2 s = .next t ∧ t.bus = rest ∧
      t.seen = s.seen ++ [.mem c (if c = a then v else s.mem.read c)]

/-! ### CLASSIFY, ENCLEN and MAXDEC -/

/-- R103: the exact partition of the classifier. -/
def Obligations.ClassifierPartition : Prop :=
  ∀ c : Byte,
    (c ≤ 0x31 → Machine.classify c = .invalid) ∧
    (0x32 ≤ c → c ≤ 0x37 → ∃ v : SymVal, Machine.classify c = .value v ∧ v.toNat = c.toNat - 0x32 + 26) ∧
    (0x38 ≤ c → c ≤ 0x3C → Machine.classify c = .invalid) ∧
    (c = 0x3D → Machine.classify c = .padding) ∧
    (0x3E ≤ c → c ≤ 0x40 → Machine.classify c = .invalid) ∧
    (0x41 ≤ c → c ≤ 0x5A → ∃ v : SymVal, Machine.classify c = .value v ∧ v.toNat = c.toNat - 0x41) ∧
    (0x5B ≤ c → Machine.classify c = .invalid)

/-- R104: the classifier inverts the alphabet. -/
def Obligations.ClassifierInvertsAlphabet : Prop :=
  (∀ v : SymVal, Machine.classify (alphabet v) = .value v) ∧
  (∀ (c : Byte) (v : SymVal), Machine.classify c = .value v → c = alphabet v)

/-- R105: CLASSIFY always completes with OK; RESULT is the class word of the latched character, by the ranges of R102. No
memory is accessed. -/
def Obligations.ClassifyCompletesWithClassWord : Prop :=
  ∀ (s : State) (ch : Byte), Runs (.classify ch) s →
    exec (.classify ch) s = .next { s with
      busy := false, code := .ok, errPos := 0, w := { s.w with op := .idle },
      result :=
        if 0x41 ≤ s.w.char ∧ s.w.char ≤ 0x5A then (s.w.char - 0x41).setWidth 32
        else if 0x32 ≤ s.w.char ∧ s.w.char ≤ 0x37 then (s.w.char - 0x32).setWidth 32 + 26
        else if s.w.char = 0x3D then 0x100
        else 0x200 }

/-- R122: the encoded length fits in 32 bits exactly up to the bound, with the two values at the bound. -/
def Obligations.EncodedLengthFitsToTheBound : Prop :=
  (∀ n : Nat, encodedLength n ≤ 2 ^ 32 - 1 ↔ n ≤ 2684354555) ∧
  encodedLength 2684354555 = 4294967289 ∧ encodedLength 2684354556 = 4294967297

/-- R123: ENCLEN completes with OK and the encoded length, or with LENGTH_RANGE and RESULT 0. No memory is accessed. -/
def Obligations.EnclenCompletes : Prop :=
  ∀ s : State, Runs .enclen s →
    (s.w.len.toNat ≤ 2684354555 → ∃ t, exec .enclen s = .next t ∧
      t = { s with busy := false, code := .ok, result := t.result, errPos := 0, w := { s.w with op := .idle } } ∧
      t.result.toNat = (s.w.len.toNat + 4) / 5 * 8 + 1) ∧
    (2684354555 < s.w.len.toNat → exec .enclen s = .next { s with
      busy := false, code := .lengthRange, result := 0, errPos := 0, w := { s.w with op := .idle } })

/-- R126: MAXDEC completes with OK and `(len div 8) * 5`. No memory is accessed. -/
def Obligations.MaxdecCompletes : Prop :=
  ∀ s : State, Runs .maxdec s → ∃ t, exec .maxdec s = .next t ∧
    t = { s with busy := false, code := .ok, result := t.result, errPos := 0, w := { s.w with op := .idle } } ∧
    t.result.toNat = s.w.len.toNat / 8 * 5

/-! ### ENCODE (42_encoder.md) -/

/-- R141: the size-category table with its zero fill bits, and that it equals `ceil_div(8n, 5)`. -/
def Obligations.SizeCategoryTable : Prop :=
  [1, 2, 3, 4, 5].map dataSyms = [2, 4, 5, 7, 8] ∧ [1, 2, 3, 4, 5].map padSyms = [6, 4, 3, 1, 0] ∧
  [1, 2, 3, 4, 5].map (fun n => 5 * dataSyms n - 8 * n) = [2, 4, 1, 3, 0] ∧
  ∀ n, 1 ≤ n → n ≤ 5 → dataSyms n + padSyms n = 8 ∧ dataSyms n = (8 * n + 4) / 5

/-- R142: the symbols of a group by the table of source bits, for each size of a group. -/
def Obligations.GroupSymbolsFollowFieldTable : Prop :=
  ∀ b0 b1 b2 b3 b4 : Byte,
    let s0 := alphabet (b0.extractLsb' 3 5)
    let s1 := alphabet (b0.extractLsb' 0 3 ++ b1.extractLsb' 6 2)
    let s2 := alphabet (b1.extractLsb' 1 5)
    let s3 := alphabet (b1.extractLsb' 0 1 ++ b2.extractLsb' 4 4)
    let s4 := alphabet (b2.extractLsb' 0 4 ++ b3.extractLsb' 7 1)
    let s5 := alphabet (b3.extractLsb' 2 5)
    let s6 := alphabet (b3.extractLsb' 0 2 ++ b4.extractLsb' 5 3)
    let s7 := alphabet (b4.extractLsb' 0 5)
    let p := (0x3D : Byte)
    encodeGroup [b0] = [s0, alphabet (b0.extractLsb' 0 3 ++ (0 : BitVec 2)), p, p, p, p, p, p] ∧
    encodeGroup [b0, b1] = [s0, s1, s2, alphabet (b1.extractLsb' 0 1 ++ (0 : BitVec 4)), p, p, p, p] ∧
    encodeGroup [b0, b1, b2] = [s0, s1, s2, s3, alphabet (b2.extractLsb' 0 4 ++ (0 : BitVec 1)), p, p, p] ∧
    encodeGroup [b0, b1, b2, b3] =
      [s0, s1, s2, s3, s4, s5, alphabet (b3.extractLsb' 0 2 ++ (0 : BitVec 3)), p] ∧
    encodeGroup [b0, b1, b2, b3, b4] = [s0, s1, s2, s3, s4, s5, s6, s7]

/-- R144: the output bound guard: LENGTH_RANGE, then OUTPUT_LIMIT with the capacity needed, else the GROUPS phase. No memory
is read or written. -/
def Obligations.EncodeGuard : Prop :=
  ∀ s : State, Runs .encode s → s.w.phase = .check →
    let e := (s.w.len.toNat + 4) / 5 * 8 + 1
    (e > 2 ^ 32 - 1 → exec .encode s = .next { s with
      busy := false, code := .lengthRange, result := 0, errPos := 0, w := { s.w with op := .idle } }) ∧
    (e ≤ 2 ^ 32 - 1 → e > s.w.lim.toNat → exec .encode s = .next { s with
      busy := false, code := .outputLimit, result := BitVec.ofNat 32 e, errPos := 0, w := { s.w with op := .idle } }) ∧
    (e ≤ s.w.lim.toNat → exec .encode s = .next { s with w := { s.w with phase := .groups } })

/-- R145: one Quintet Group. The symbols written are `encode_group` of the bytes as they were before the step, and no other
byte changes. -/
def Obligations.EncodeGroupStep : Prop :=
  ∀ s : State, Runs .encode s → s.w.phase = .groups → s.w.inPos < s.w.len →
    let n := min 5 (s.w.len.toNat - s.w.inPos.toNat)
    let bytes := s.mem.bytesAt (s.w.src + s.w.inPos) n
    Admitted s.platform (s.w.src + s.w.inPos) n → Admitted s.platform (s.w.dst + s.w.outPos) 8 →
    ∃ t, exec .encode s = .next t ∧
      Holds t.mem (s.w.dst + s.w.outPos) (encodeGroup bytes) ∧ (encodeGroup bytes).length = 8 ∧
      SameOutside s.mem t.mem (s.w.dst + s.w.outPos) 8 ∧
      t = { s with
        mem := t.mem,
        w := { s.w with
          acc := groupOfBytes bytes, inPos := s.w.inPos + BitVec.ofNat 32 n, outPos := s.w.outPos + 8 } }

/-- R146: the end of input. The terminator is written at the output position and the command completes with OK. -/
def Obligations.EncodeEndStep : Prop :=
  ∀ s : State, Runs .encode s → s.w.phase = .groups → s.w.inPos = s.w.len →
    s.platform.admits (s.w.dst + s.w.outPos) = true →
    ∃ t, exec .encode s = .next t ∧ t.mem.read (s.w.dst + s.w.outPos) = 0x00 ∧
      (∀ x, x ≠ s.w.dst + s.w.outPos → t.mem.read x = s.mem.read x) ∧
      t = { s with
        mem := t.mem, busy := false, code := .ok, result := s.w.outPos, errPos := 0, w := { s.w with op := .idle } }

/-! ### DECODE (43_decoder.md) -/

/-- R173, the table of bytes per count of value symbols. -/
def Obligations.BytesPerValueCount : Prop :=
  (List.range 9).map bytesOfValues = [0, 0, 1, 1, 2, 3, 3, 4, 5]

/-- R175, case 1: at its limit DECODE completes with OK and reads nothing. -/
def Obligations.DecodeCompletesAtLimit : Prop :=
  ∀ s : State, Runs .decode s → s.w.outPos = s.w.lim →
    exec .decode s = .next { s with
      busy := false, code := .ok, result := s.w.outPos, errPos := 0, w := { s.w with op := .idle } }

/-- R175, case 2: a terminator at the start of a group completes with OK; nothing is written. -/
def Obligations.DecodeCompletesAtTerminator : Prop :=
  ∀ s : State, Runs .decode s → s.w.outPos ≠ s.w.lim →
    s.platform.admits (s.w.src + s.w.inPos) = true → s.mem.read (s.w.src + s.w.inPos) = 0x00 →
    ∃ t, exec .decode s = .next t ∧
      t = { s with busy := false, code := .ok, result := s.w.outPos, errPos := 0, w := t.w } ∧
      t.w = { s.w with op := .idle, acc := t.w.acc, pad := t.w.pad, k := t.w.k }

/-- R172 to R174 for a group `g` none of whose symbols fails: eight symbols, or fewer with the terminator after them. The
bytes kept under the limit are written, no other byte changes, and the step goes on or completes with OK. -/
def Obligations.DecodeGroupStep : Prop :=
  ∀ (s : State) (g : List Byte), Runs .decode s → s.w.outPos ≠ s.w.lim →
    Holds s.mem (s.w.src + s.w.inPos) g → (0x00 : Byte) ∉ g → g ≠ [] → firstBad false g = none →
    (g.length = 8 ∨ (g.length < 8 ∧ s.mem.read (s.w.src + s.w.inPos + BitVec.ofNat 32 g.length) = 0x00)) →
    Admitted s.platform (s.w.src + s.w.inPos) (min 8 (g.length + 1)) →
    let out := (decodeGroup g).take (s.w.lim.toNat - s.w.outPos.toNat)
    Admitted s.platform (s.w.dst + s.w.outPos) out.length →
    ∃ t, exec .decode s = .next t ∧
      Holds t.mem (s.w.dst + s.w.outPos) out ∧ SameOutside s.mem t.mem (s.w.dst + s.w.outPos) out.length ∧
      t.w = { s.w with
        op := if g.length = 8 then .decode else .idle, acc := groupOfValues (g.map valueOf), pad := t.w.pad,
        k := g.countP isValue, inPos := s.w.inPos + BitVec.ofNat 32 g.length,
        outPos := s.w.outPos + BitVec.ofNat 32 out.length } ∧
      (g.length = 8 → t = { s with mem := t.mem, w := t.w }) ∧
      (g.length < 8 → t = { s with
        mem := t.mem, busy := false, code := .ok, result := t.w.outPos, errPos := 0, w := t.w })

/-- R176: `g` is a group up to and including its first failing symbol. The command completes with INVALID_SYMBOL, RESULT the
bytes written by the groups before, ERR_POS the offset of the failing symbol; the failing group writes nothing. -/
def Obligations.DecodeFailsAtFirstBadSymbol : Prop :=
  ∀ (s : State) (g : List Byte) (n : Nat), Runs .decode s → s.w.outPos ≠ s.w.lim →
    Holds s.mem (s.w.src + s.w.inPos) g → (0x00 : Byte) ∉ g → g.length = n + 1 → n < 8 → firstBad false g = some n →
    Admitted s.platform (s.w.src + s.w.inPos) g.length →
    ∃ t, exec .decode s = .next t ∧
      t = { s with
        busy := false, code := .invalidSymbol, result := s.w.outPos, errPos := s.w.inPos + BitVec.ofNat 32 n,
        w := t.w } ∧
      t.w = { s.w with op := .idle, acc := t.w.acc, pad := t.w.pad, k := t.w.k }

/-- R175: a DECODE step that is taken completes with OK in exactly three cases, each with RESULT = `w.out_pos` and
ERR_POS = 0: at the limit; at a terminator that is the first byte of a group; at a terminator that ends a group `g` of at
least one symbol, after that group's bytes are written. -/
def Obligations.DecodeOkInExactlyThreeCases : Prop :=
  ∀ s t : State, Runs .decode s → exec .decode s = .next t →
    let ends := fun g : List Byte =>
      Holds s.mem (s.w.src + s.w.inPos) g ∧ g.length < 8 ∧ (0x00 : Byte) ∉ g ∧ firstBad false g = none ∧
        s.mem.read (s.w.src + s.w.inPos + BitVec.ofNat 32 g.length) = 0x00
    (t.busy = false ∧ t.code = .ok ↔
      s.w.outPos = s.w.lim ∨
      (s.w.outPos ≠ s.w.lim ∧ s.mem.read (s.w.src + s.w.inPos) = 0x00) ∨
      (s.w.outPos ≠ s.w.lim ∧ ∃ g, g ≠ [] ∧ ends g)) ∧
    (t.busy = false → t.code = .ok → t.result = t.w.outPos ∧ t.errPos = 0) ∧
    (s.w.outPos = s.w.lim ∨ s.mem.read (s.w.src + s.w.inPos) = 0x00 → t.mem = s.mem ∧ t.w.outPos = s.w.outPos) ∧
    (∀ g, s.w.outPos ≠ s.w.lim → g ≠ [] → ends g →
      let out := (decodeGroup g).take (s.w.lim.toNat - s.w.outPos.toNat)
      t.w.outPos = s.w.outPos + BitVec.ofNat 32 out.length ∧ Holds t.mem (s.w.dst + s.w.outPos) out)

/-- R184: groups of padding with no terminator never complete: after any number of them BUSY is still 1, nothing is written,
and the reads have gone on, modulo 2^32. -/
def Obligations.PaddingWithoutTerminatorHangs : Prop :=
  ∀ (n : Nat) (s : State), s.bus = [] → Runs .decode s → s.stuckAt = none → s.w.outPos ≠ s.w.lim →
    (∀ i < 8 * n, s.platform.admits (s.w.src + s.w.inPos + BitVec.ofNat 32 i) = true ∧
      s.mem.read (s.w.src + s.w.inPos + BitVec.ofNat 32 i) = 0x3D) →
    ∃ t, runSteps n s = .next t ∧ Runs .decode t ∧ t.mem = s.mem ∧
      t.w.inPos = s.w.inPos + BitVec.ofNat 32 (8 * n) ∧ t.w.outPos = s.w.outPos

/-! ### Frames -/

/-- R30: no instruction writes the argument registers; while BUSY = 1 the flags, RESULT and ERR_POS change only by
completion, the latches stay, and the argument registers are not read. -/
def Obligations.EngineKeepsArguments : Prop :=
  ∀ (i : Instr) (s t : State), exec i s = .next t →
    (t.srcAddr = s.srcAddr ∧ t.srcLen = s.srcLen ∧ t.dstAddr = s.dstAddr ∧ t.dstLimit = s.dstLimit ∧
      t.platform = s.platform ∧ t.bus = s.bus ∧ t.seen = s.seen ∧ t.stuckAt = s.stuckAt) ∧
    (s.busy = false → t.mem = s.mem ∧ t.busy = true ∧ t.code = .ok ∧ t.result = 0 ∧ t.errPos = 0) ∧
    (s.busy = true →
      (t.w.src = s.w.src ∧ t.w.len = s.w.len ∧ t.w.dst = s.w.dst ∧ t.w.lim = s.w.lim ∧ t.w.char = s.w.char) ∧
      ((t.busy = true ∧ t.code = s.code ∧ t.result = s.result ∧ t.errPos = s.errPos) ∨
        (t.busy = false ∧ t.w.op = .idle)) ∧
      ∀ a b c d : Word,
        exec i { s with srcAddr := a, srcLen := b, dstAddr := c, dstLimit := d } =
          .next { t with srcAddr := a, srcLen := b, dstAddr := c, dstLimit := d })

/-- R66, first row: CLASSIFY, ENCLEN and MAXDEC touch no memory, whatever exists there. -/
def Obligations.SizeAndClassifyKeepMemory : Prop :=
  ∀ (i : Instr) (s t : State), (i = .enclen ∨ i = .maxdec ∨ ∃ ch, i = .classify ch) → exec i s = .next t →
    (∀ a, t.mem.read a = s.mem.read a) ∧ t.w.inPos = (if s.busy then s.w.inPos else 0) ∧
    t.w.outPos = (if s.busy then s.w.outPos else 0)

/-- The frame of ENCODE: the bytes its step stores are the eight of a group, or the terminator's, at the address the engine
computes (R56, R66, R145, R146); every other byte reads as before. -/
def Obligations.EncodeStoresOnlyItsSymbols : Prop :=
  ∀ s t : State, exec .encode s = .next t →
    let stored := if Runs .encode s ∧ s.w.phase = .groups then (if s.w.inPos < s.w.len then 8 else 1) else 0
    ∀ a : Addr, (∀ j < stored, a ≠ s.w.dstAt j) → t.mem.read a = s.mem.read a

/-- The frame of DECODE (R174): a step stores at most five bytes, none at an offset at or above the limit, at the address
the engine computes; every other byte reads as before. -/
def Obligations.DecodeStoresOnlyBelowLimit : Prop :=
  ∀ s t : State, exec .decode s = .next t →
    let stored := if Runs .decode s then min 5 (s.w.lim.toNat - s.w.outPos.toNat) else 0
    ∀ a : Addr, (∀ j < stored, a ≠ s.w.dstAt j) → t.mem.read a = s.mem.read a

/-! ### Addresses that do not exist -/

/-- R51, R81: ENCODE is stuck at the first address of its step, in the order of R145 and R146, that does not exist: a source
byte or a symbol of a group, or the terminator. -/
def Obligations.AbsentAddressLeavesEncodeStuck : Prop :=
  ∀ s : State, Runs .encode s → s.w.phase = .groups → s.stuckAt = none →
    let n := min 5 (s.w.len.toNat - s.w.inPos.toNat)
    let src := s.w.src + s.w.inPos
    let dst := s.w.dst + s.w.outPos
    (s.w.inPos < s.w.len → ∀ j < n, Admitted s.platform src j → s.platform.admits (src + BitVec.ofNat 32 j) = false →
      GetsStuck .encode s (src + BitVec.ofNat 32 j)) ∧
    (s.w.inPos < s.w.len → Admitted s.platform src n → ∀ j < 8, Admitted s.platform dst j →
      s.platform.admits (dst + BitVec.ofNat 32 j) = false → GetsStuck .encode s (dst + BitVec.ofNat 32 j)) ∧
    (s.w.inPos = s.w.len → s.platform.admits dst = false → GetsStuck .encode s dst)

/-- R51, R81: DECODE below its limit is stuck at the first address of its step, in the order of R172, that does not exist: an
input address, read after symbols none of which fails or is the terminator; or an output address of a group's bytes under
the limit. -/
def Obligations.AbsentAddressLeavesDecodeStuck : Prop :=
  ∀ (s : State) (g : List Byte), Runs .decode s → s.stuckAt = none → s.w.outPos ≠ s.w.lim →
    let src := s.w.src + s.w.inPos
    let dst := s.w.dst + s.w.outPos
    let out := (decodeGroup g).take (s.w.lim.toNat - s.w.outPos.toNat)
    Holds s.mem src g → (0x00 : Byte) ∉ g → firstBad false g = none →
    (g.length < 8 → Admitted s.platform src g.length →
      s.platform.admits (src + BitVec.ofNat 32 g.length) = false →
      GetsStuck .decode s (src + BitVec.ofNat 32 g.length)) ∧
    ((g.length = 8 ∨ (g.length < 8 ∧ s.mem.read (src + BitVec.ofNat 32 g.length) = 0x00)) →
      Admitted s.platform src (min 8 (g.length + 1)) → ∀ j < out.length, Admitted s.platform dst j →
      s.platform.admits (dst + BitVec.ofNat 32 j) = false → GetsStuck .decode s (dst + BitVec.ofNat 32 j))

/-- From R51: a stuck engine never completes, BUSY stays 1, no later access of the command happens, and only reset leaves that
state. -/
def Obligations.OnlyResetLeavesStuck : Prop :=
  ∀ s : State, Inv s → s.stuckAt ≠ none →
    (s.bus = [] → ∃ a, s.stuckAt = some a ∧ step s = .fault (.stuck a)) ∧
    ∀ t, step s = .next t →
      (∃ rest, s.bus = .reset :: rest) ∨ (∃ between n rest, s.bus = .split between (some n) :: rest) ∨
      (t.stuckAt = s.stuckAt ∧ t.busy = true ∧ t.w = s.w ∧ t.code = s.code ∧ t.result = s.result ∧
        t.errPos = s.errPos ∧ t.srcAddr = s.srcAddr ∧ t.srcLen = s.srcLen ∧ t.dstAddr = s.dstAddr ∧
        t.dstLimit = s.dstLimit ∧
        ((∀ a v rest, s.bus ≠ .host (.store a v) :: rest) →
          (∀ between rest, s.bus = .split between none :: rest → ∀ a v, .store a v ∉ between.flatten) →
          t.mem = s.mem))

/-! ### Reset (70_reset_and_hazards.md) -/

/-- R38 and R242: right after reset the block is idle and every register reads 0. -/
def Obligations.ResetValues : Prop :=
  State.reset.busy = false ∧ State.reset.code = .ok ∧ State.reset.w.op = .idle ∧ State.reset.stuckAt = none ∧
  ∀ r, State.reset.readReg r = 0

/-- R240: the reset event, whatever the engine is doing: every register 0, the engine idle, memory and platform untouched. -/
def Obligations.ResetEventIdlesTheBlock : Prop :=
  ∀ (s : State) (rest : List Event), s.bus = .reset :: rest →
    ∃ t, step s = .next t ∧ t.w.op = .idle ∧ (∀ r, t.readReg r = 0) ∧
      t = { s with
        busy := false, code := .ok, srcAddr := 0, srcLen := 0, dstAddr := 0, dstLimit := 0, result := 0, errPos := 0,
        w := t.w, stuckAt := none, bus := rest }

/-- R241: a reset inside ENCODE leaves a prefix of the step's writes, and any prefix can be the one left: reset after `e`
memory events of a group leaves the symbols whose writes are among them; reset after `e` events of the last step leaves
the terminator only if its write has happened. -/
def Obligations.ResetInsideGroupLeavesPrefix : Prop :=
  ∀ (s : State) (e : Nat) (rest : List Event), Runs .encode s → s.w.phase = .groups → s.stuckAt = none →
    s.bus = .split [] (some e) :: rest →
    let n := min 5 (s.w.len.toNat - s.w.inPos.toNat)
    let src := s.w.src + s.w.inPos
    let dst := s.w.dst + s.w.outPos
    (s.w.inPos < s.w.len → Admitted s.platform src n → Admitted s.platform dst 8 →
      ResetLeaves s rest dst ((encodeGroup (s.mem.bytesAt src n)).take (e - n))) ∧
    (s.w.inPos = s.w.len → s.platform.admits dst = true → ResetLeaves s rest dst (([0x00] : List Byte).take e))

/-- R241: a reset inside a step of DECODE leaves a prefix of the step's writes, and any prefix can be the one left: after `e`
memory events of a group none of whose symbols fails, the bytes whose writes are among them; a step at the limit, or of a
group one of whose symbols fails, has written nothing. -/
def Obligations.ResetInsideDecodeGroupLeavesPrefix : Prop :=
  ∀ (s : State) (g : List Byte) (e : Nat) (rest : List Event), Runs .decode s → s.stuckAt = none →
    s.bus = .split [] (some e) :: rest →
    let src := s.w.src + s.w.inPos
    let dst := s.w.dst + s.w.outPos
    let reads := min 8 (g.length + 1)
    let out := (decodeGroup g).take (s.w.lim.toNat - s.w.outPos.toNat)
    (s.w.outPos = s.w.lim → ResetLeaves s rest dst []) ∧
    (s.w.outPos ≠ s.w.lim → Holds s.mem src g → (0x00 : Byte) ∉ g →
      ((g.length = 8 ∨ (g.length < 8 ∧ s.mem.read (src + BitVec.ofNat 32 g.length) = 0x00)) → firstBad false g = none →
        Admitted s.platform src reads → Admitted s.platform dst out.length →
        ResetLeaves s rest dst (out.take (e - reads))) ∧
      (∀ n < 8, g.length = n + 1 → firstBad false g = some n → Admitted s.platform src g.length →
        ResetLeaves s rest dst []))

/-- R243: ENCODE straight after reset completes with OUTPUT_LIMIT and RESULT = 1. -/
def Obligations.EncodeStraightAfterReset : Prop :=
  ∃ t, runSteps 2 { State.reset with bus := [issue State.reset.platform .encode] } = .next t ∧
    Completed t .outputLimit 1 0

/-! ### Interleaving (20_memory.md section 8) -/

/-- R55: a step taken event by event, with nothing between its events, is the step taken whole. -/
def Obligations.SplitWithoutInterferenceIsWhole : Prop :=
  ∀ (s t : State) (rest : List Event), Inv s → s.stuckAt = none →
    step { s with bus := .engine :: rest } = .next t → t.stuckAt = none →
    step { s with bus := .split [] none :: rest } = .next t

/-- R254: a host store to the source byte races with the engine's read of it, and the order of events decides: before the
read the engine sees the new byte, after it the old one. -/
def Obligations.HostStoreRacesWithEngineRead : Prop :=
  ∀ (s : State) (v : Byte) (rest : List Event), Runs .encode s → s.w.phase = .groups →
    s.w.len.toNat = s.w.inPos.toNat + 1 → s.stuckAt = none →
    s.platform.admits (s.w.src + s.w.inPos) = true → Admitted s.platform (s.w.dst + s.w.outPos) 8 →
    (s.bus = .split [[.store (s.w.src + s.w.inPos) v]] none :: rest →
      ∃ t, step s = .next t ∧ Holds t.mem (s.w.dst + s.w.outPos) (encodeGroup [v])) ∧
    (s.bus = .split [[], [.store (s.w.src + s.w.inPos) v]] none :: rest →
      ∃ t, step s = .next t ∧
        Holds t.mem (s.w.dst + s.w.outPos) (encodeGroup [s.mem.read (s.w.src + s.w.inPos)]))

/-- R61, R146: between ENCODE's write of the terminator and its completion the host sees the terminator in memory while
STATUS still reads BUSY = 1, and its write to a register is still dropped (R29). -/
def Obligations.StatusStillBusyAfterTerminatorIsSeen : Prop :=
  ∀ (s : State) (r : Reg) (v : Word) (rest : List Event), Inv s → Runs .encode s → s.w.phase = .groups →
    s.w.inPos = s.w.len → s.stuckAt = none →
    let dst := s.w.dst + s.w.outPos
    s.platform.admits dst = true →
    s.bus = .split [[], [lb dst, rd s.platform .status, wr s.platform r v]] none :: rest →
    ∃ t, step s = .next t ∧ Completed t .ok s.w.outPos 0 ∧ t.bus = rest ∧
      t.seen = s.seen ++ [.mem dst 0x00, .reg .status 1] ∧
      t.srcAddr = s.srcAddr ∧ t.srcLen = s.srcLen ∧ t.dstAddr = s.dstAddr ∧ t.dstLimit = s.dstLimit

/-- R85: `wait` gives the engine its turn while BUSY = 1 and stays; the read that shows BUSY = 0 ends it. The readings it
leaves are the model's choice (log 12). -/
def Obligations.WaitEndsWithBusyClear : Prop :=
  ∀ (s : State) (rest : List Event), s.bus = .wait :: rest →
    (s.busy = false → step s = .next { s with bus := rest, seen := s.seen ++ [.reg .status s.statusWord] }) ∧
    (s.busy = true → s.stuckAt = none → ∀ i t, s.w.running = some i → exec i s = .next t →
      step s = .next t ∧ t.bus = .wait :: rest)

/-! ### The machine as a whole -/

/-- R212: CODE, RESULT and ERR_POS keep their completion values until a CMD write or reset replaces them. -/
def Obligations.CompletionValuesPersist : Prop :=
  ∀ s t : State, s.busy = false → s.w.op = .idle → step s = .next t →
    (t.code = s.code ∧ t.result = s.result ∧ t.errPos = s.errPos) ∨
    ((t.code = .ok ∨ t.code = .badCommand) ∧ t.result = 0 ∧ t.errPos = 0 ∧
      ((∃ h rest, s.bus = .host h :: rest ∧ WritesCmd s.platform h) ∨ (∃ rest, s.bus = .reset :: rest) ∨
       (∃ between r rest, s.bus = .split between r :: rest ∧
        (r ≠ none ∨ ∃ h ∈ between.flatten, WritesCmd s.platform h))))

/-- R224: an idle block with no event to come stays as it is. -/
def Obligations.IdleStatePersists : Prop :=
  ∀ s : State, s.bus = [] → s.w.op = .idle → s.stuckAt = none → step s = .next s

/-- The invariant holds right after reset. -/
def Obligations.ResetMeetsInvariant : Prop := Inv State.reset

/-- Every step keeps the invariant: the canonical form of memory, BUSY and `w.op` in step, the clear reads while BUSY (R29),
ENCODE's counters within its guard (R35, R144, R145), DECODE within its limit (R35, R174). -/
def Obligations.EveryStepKeepsInvariant : Prop :=
  ∀ s t : State, Inv s → step s = .next t → Inv t

/-- R148: on disjoint regions, with no host interference, an accepted ENCODE writes `encode(B)` and the terminator, and
nothing else, in exactly `2 + ceil_div(n, 5)` engine steps, and completes with RESULT the symbols written (R143, R147). -/
def Obligations.EncodeRunWritesEncodedText : Prop :=
  ∀ s : State, Accepted .encode s →
    let n := s.w.len.toNat
    let g := (n + 4) / 5
    let bytes := s.mem.bytesAt s.w.src n
    g * 8 + 1 ≤ s.w.lim.toNat → Admitted s.platform s.w.src n → Admitted s.platform s.w.dst (g * 8 + 1) →
    Apart s.w.src n s.w.dst (g * 8 + 1) →
    (∃ t, runSteps (2 + g) s = .next t ∧ Completed t .ok (BitVec.ofNat 32 (g * 8)) 0 ∧
      Holds t.mem s.w.dst (encodeText bytes ++ [0x00]) ∧ (encodeText bytes).length = g * 8 ∧
      SameOutside s.mem t.mem s.w.dst (g * 8 + 1)) ∧
    (∀ m < 2 + g, ∃ u, runSteps m s = .next u ∧ u.busy = true)

/-- R180: on disjoint regions, with no host interference, an accepted DECODE of a terminated text writes and completes as
`decode_fn` says, and changes no other byte; it takes at most the number of groups and one step more (R260). -/
def Obligations.DecodeRunComputesDecodedText : Prop :=
  ∀ (s : State) (text : List Byte) (d : Decoded), Accepted .decode s →
    Holds s.mem s.w.src (text ++ [0x00]) → (0x00 : Byte) ∉ text → text.length < 2 ^ 32 →
    decodeText text s.w.lim.toNat = some d →
    Admitted s.platform s.w.src (text.length + 1) → Admitted s.platform s.w.dst d.out.length →
    Apart s.w.src (text.length + 1) s.w.dst d.out.length →
    ∃ m t, m ≤ (text.length + 7) / 8 + 1 ∧ runSteps m s = .next t ∧
      Completed t d.code (BitVec.ofNat 32 d.out.length) (BitVec.ofNat 32 d.errPos) ∧
      Holds t.mem s.w.dst d.out ∧ SameOutside s.mem t.mem s.w.dst d.out.length

/-- R181 of the functional views: decoding is the left inverse of encoding, cut to the limit. -/
def Obligations.DecodeTextInvertsEncodeText : Prop :=
  ∀ (bytes : List Byte) (limit : Nat),
    decodeText (encodeText bytes) limit = some { code := .ok, out := bytes.take limit, errPos := 0 }

/-- R181: DECODE of the text that ENCODE writes for B gives back B, cut to the limit. -/
def Obligations.DecodeRunOfEncodedTextGivesBytes : Prop :=
  ∀ (s : State) (bytes : List Byte), bytes.length ≤ 2684354555 → Accepted .decode s →
    Holds s.mem s.w.src (encodeText bytes ++ [0x00]) →
    Admitted s.platform s.w.src (encodeText bytes ++ [0x00]).length →
    Admitted s.platform s.w.dst (min bytes.length s.w.lim.toNat) →
    Apart s.w.src (encodeText bytes ++ [0x00]).length s.w.dst (min bytes.length s.w.lim.toNat) →
    ∃ m t, runSteps m s = .next t ∧ Completed t .ok (BitVec.ofNat 32 (min bytes.length s.w.lim.toNat)) 0 ∧
      Holds t.mem s.w.dst (bytes.take s.w.lim.toNat) ∧
      SameOutside s.mem t.mem s.w.dst (min bytes.length s.w.lim.toNat)

/-- R149, laws 1 to 4 of the encoder: length, padding, zero fill, alphabet. -/
def Obligations.EncodedTextObeysLaws : Prop :=
  ∀ bytes : List Byte,
    (encodeText bytes).length = (bytes.length + 4) / 5 * 8 ∧
    (encodeText bytes).count 0x3D = (if bytes.length % 5 = 0 then 0 else padSyms (bytes.length % 5)) ∧
    (∀ c ∈ encodeText bytes, c = 0x3D ∨ ∃ v, c = alphabet v) ∧
    (∀ i j (hi : i < j) (hj : j < (encodeText bytes).length),
      (encodeText bytes)[i] = 0x3D → (encodeText bytes)[j] = 0x3D) ∧
    (1 ≤ bytes.length → bytes.length ≤ 5 →
      ((groupValues (groupOfBytes bytes)).getD (dataSyms bytes.length - 1) 0).toNat %
        2 ^ (5 * dataSyms bytes.length - 8 * bytes.length) = 0)

/-- R125: the true bound on the bytes of a DECODE that completes with OK, and when `max_decoded_size` is one. -/
def Obligations.DecodedSizeBound : Prop :=
  ∀ (text : List Byte) (limit : Nat) (d : Decoded), decodeText text limit = some d → d.code = .ok →
    d.out.length ≤ text.length / 8 * 5 + 5 * (text.length % 8) / 8 ∧
    (text.length % 8 ≤ 1 → d.out.length ≤ maxDecodedSize text.length)
end

