-- ==== Sys2Proof/Laws/Memory.lean ====
section
/-! SUPPORT. The laws of memory: a read after a write to the same address gives the byte written, a write leaves every other
address alone, and every operation keeps the canonical form. -/

namespace Sys2Proof.Machine

theorem Memory.readNat_erase_same (m : Memory) (a : Nat) : (m.erase a).readNat a = Config.blankByte := by
  induction m with
  | nil => rfl
  | cons e rest ih =>
    obtain ⟨x, b⟩ := e
    by_cases h : x = a <;> simp [Memory.erase, Memory.readNat, h, ih]

theorem Memory.readNat_erase_other (m : Memory) {a c : Nat} (h : c ≠ a) : (m.erase a).readNat c = m.readNat c := by
  induction m with
  | nil => rfl
  | cons e rest ih =>
    obtain ⟨x, b⟩ := e
    by_cases hx : x = a
    · subst hx
      simp [Memory.erase, Memory.readNat, ih, Ne.symm h]
    · simp [Memory.erase, Memory.readNat, hx, ih]

theorem Memory.readNat_insert_same (m : Memory) (a : Nat) (v : Byte) (h : ∀ b, (a, b) ∉ m) :
    (m.insert a v).readNat a = v := by
  induction m with
  | nil => simp [Memory.insert, Memory.readNat]
  | cons e rest ih =>
    obtain ⟨x, b⟩ := e
    have hx : x ≠ a := fun hx => h b (by simp [hx])
    by_cases hl : a < x
    · simp [Memory.insert, Memory.readNat, hl]
    · simp [Memory.insert, Memory.readNat, hl, hx, ih fun b hb => h b (List.mem_cons_of_mem _ hb)]

theorem Memory.readNat_insert_other (m : Memory) {a c : Nat} (v : Byte) (h : c ≠ a) :
    (m.insert a v).readNat c = m.readNat c := by
  induction m with
  | nil => simp [Memory.insert, Memory.readNat, Ne.symm h]
  | cons e rest ih =>
    obtain ⟨x, b⟩ := e
    by_cases hl : a < x
    · simp [Memory.insert, Memory.readNat, hl, Ne.symm h]
    · simp [Memory.insert, Memory.readNat, hl, ih]

theorem Memory.not_mem_erase (m : Memory) (a : Nat) (b : Byte) : (a, b) ∉ m.erase a := by
  induction m with
  | nil => simp [Memory.erase]
  | cons e rest ih =>
    obtain ⟨x, c⟩ := e
    by_cases hx : x = a
    · simpa [Memory.erase, hx] using ih
    · simp [Memory.erase, hx, ih, Ne.symm hx]

/-- A read after a write to the same address gives the byte written. -/
@[simp] theorem Memory.read_write_same (m : Memory) (a : Addr) (v : Byte) : (m.write a v).read a = v := by
  unfold Memory.write Memory.read
  split
  · next h => rw [Memory.readNat_erase_same, h]
  · exact Memory.readNat_insert_same _ _ _ (Memory.not_mem_erase m a.toNat)

/-- A write leaves every other address alone. -/
theorem Memory.read_write_other (m : Memory) {a c : Addr} (v : Byte) (h : c ≠ a) : (m.write a v).read c = m.read c := by
  have hn : c.toNat ≠ a.toNat := fun e => h (BitVec.eq_of_toNat_eq e)
  unfold Memory.write Memory.read
  split
  · exact Memory.readNat_erase_other m hn
  · rw [Memory.readNat_insert_other _ v hn, Memory.readNat_erase_other m hn]

/-- Both laws in one. -/
theorem Memory.read_write (m : Memory) (a c : Addr) (v : Byte) :
    (m.write a v).read c = if c = a then v else m.read c := by
  by_cases h : c = a
  · simp [h]
  · simp [h, Memory.read_write_other m v h]

theorem Memory.wfAbove_mono (m : Memory) {lo lo' : Nat} (h : lo' ≤ lo) (hw : m.wfAbove lo = true) :
    m.wfAbove lo' = true := by
  cases m with
  | nil => rfl
  | cons e rest =>
    simp only [Memory.wfAbove, Bool.and_eq_true, decide_eq_true_eq] at hw ⊢
    exact ⟨⟨⟨by omega, hw.1.1.2⟩, hw.1.2⟩, hw.2⟩

theorem Memory.erase_wfAbove (m : Memory) (a lo : Nat) (hw : m.wfAbove lo = true) : (m.erase a).wfAbove lo = true := by
  induction m generalizing lo with
  | nil => rfl
  | cons e rest ih =>
    obtain ⟨x, b⟩ := e
    simp only [Memory.wfAbove, Bool.and_eq_true, decide_eq_true_eq] at hw
    by_cases hx : x = a
    · simpa [Memory.erase, hx] using ih lo (Memory.wfAbove_mono rest (by omega) hw.2)
    · simp only [Memory.erase, hx, if_false, Memory.wfAbove, Bool.and_eq_true, decide_eq_true_eq]
      exact ⟨hw.1, ih _ hw.2⟩

theorem Memory.insert_wfAbove (m : Memory) (a lo : Nat) (v : Byte) (hw : m.wfAbove lo = true) (ha : lo ≤ a)
    (h32 : a < 2 ^ 32) (hv : v ≠ Config.blankByte) (hn : ∀ b, (a, b) ∉ m) : (m.insert a v).wfAbove lo = true := by
  induction m generalizing lo with
  | nil => simpa [Memory.insert, Memory.wfAbove, ha, hv] using h32
  | cons e rest ih =>
    obtain ⟨x, b⟩ := e
    have hx : x ≠ a := fun hx => hn b (by simp [hx])
    simp only [Memory.wfAbove, Bool.and_eq_true, decide_eq_true_eq] at hw
    by_cases hl : a < x
    · simp only [Memory.insert, hl, if_true, Memory.wfAbove, Bool.and_eq_true, decide_eq_true_eq]
      exact ⟨⟨⟨ha, h32⟩, by simpa using hv⟩, ⟨⟨by omega, hw.1.1.2⟩, hw.1.2⟩, hw.2⟩
    · simp only [Memory.insert, hl, if_false, Memory.wfAbove, Bool.and_eq_true, decide_eq_true_eq]
      exact ⟨hw.1, ih _ hw.2 (by omega) fun b hb => hn b (List.mem_cons_of_mem _ hb)⟩

/-- A write keeps the canonical form. -/
theorem Memory.write_wf (m : Memory) (a : Addr) (v : Byte) (hw : m.wf = true) : (m.write a v).wf = true := by
  unfold Memory.write Memory.wf
  split
  · exact Memory.erase_wfAbove m _ _ hw
  · next hv =>
    exact Memory.insert_wfAbove _ _ _ _ (Memory.erase_wfAbove m _ _ hw) (Nat.zero_le _) a.isLt hv
      (Memory.not_mem_erase m _)

/-- Below its first entry a canonical memory is blank. -/
theorem Memory.readNat_below (m : Memory) {lo a : Nat} (hw : m.wfAbove lo = true) (h : a < lo) :
    m.readNat a = Config.blankByte := by
  induction m generalizing lo with
  | nil => rfl
  | cons e rest ih =>
    obtain ⟨x, b⟩ := e
    simp only [Memory.wfAbove, Bool.and_eq_true, decide_eq_true_eq] at hw
    have hx : x ≠ a := by omega
    simp [Memory.readNat, hx, ih hw.2 (by omega)]

/-- Canonical lists that read alike below 2^32 are the same list. -/
theorem Memory.ext_readNat (m m' : Memory) {lo : Nat} (hw : m.wfAbove lo = true) (hw' : m'.wfAbove lo = true)
    (h : ∀ a < 2 ^ 32, m.readNat a = m'.readNat a) : m = m' := by
  induction m generalizing m' lo with
  | nil =>
    cases m' with
    | nil => rfl
    | cons e rest =>
      obtain ⟨y, c⟩ := e
      simp only [Memory.wfAbove, Bool.and_eq_true, decide_eq_true_eq, bne_iff_ne] at hw'
      exact absurd (by simpa [Memory.readNat] using (h y hw'.1.1.2).symm) hw'.1.2
  | cons e rest ih =>
    obtain ⟨x, b⟩ := e
    simp only [Memory.wfAbove, Bool.and_eq_true, decide_eq_true_eq, bne_iff_ne] at hw
    cases m' with
    | nil => exact absurd (by simpa [Memory.readNat] using h x hw.1.1.2) hw.1.2
    | cons e' rest' =>
      obtain ⟨y, c⟩ := e'
      simp only [Memory.wfAbove, Bool.and_eq_true, decide_eq_true_eq, bne_iff_ne] at hw'
      have hx := h x hw.1.1.2
      have hy := h y hw'.1.1.2
      rcases Nat.lt_trichotomy x y with hlt | rfl | hlt
      · have := Memory.readNat_below rest' hw'.2 (show x < y + 1 by omega)
        exact absurd (by simpa [Memory.readNat, Nat.ne_of_gt hlt, this] using hx) hw.1.2
      · have hbc : b = c := by simpa [Memory.readNat] using hx
        rw [hbc, ih rest' hw.2 hw'.2]
        intro a ha
        rcases Nat.lt_or_ge x a with hxa | hxa
        · have hne : x ≠ a := by omega
          simpa [Memory.readNat, hne] using h a ha
        · rw [Memory.readNat_below rest hw.2 (by omega), Memory.readNat_below rest' hw'.2 (by omega)]
      · have := Memory.readNat_below rest hw.2 (show y < x + 1 by omega)
        exact absurd (by simpa [Memory.readNat, Nat.ne_of_gt hlt, this] using hy.symm) hw'.1.2

/-- Two canonical memories that read alike at every address are the same list: equal memories are equal data. -/
theorem Memory.ext_read {m m' : Memory} (hw : m.wf = true) (hw' : m'.wf = true) (h : ∀ a, m.read a = m'.read a) :
    m = m' := by
  refine Memory.ext_readNat m m' hw hw' fun a ha => ?_
  have := h (BitVec.ofNat 32 a)
  rwa [Memory.read, Memory.read, BitVec.toNat_ofNat, Nat.mod_eq_of_lt ha] at this

end Sys2Proof.Machine
end

