-- ==== Sys2Proof/Laws/State.lean ====
section
/-! SUPPORT. One lemma per field per update of State, true by rfl, so that no proof unfolds a record update. -/

namespace Sys2Proof.Machine

variable (s : State)

/-! ### complete -/

@[simp] theorem State.complete_busy (c : Code) (r e : Word) : (s.complete c r e).busy = false := rfl
@[simp] theorem State.complete_code (c : Code) (r e : Word) : (s.complete c r e).code = c := rfl
@[simp] theorem State.complete_srcAddr (c : Code) (r e : Word) : (s.complete c r e).srcAddr = s.srcAddr := rfl
@[simp] theorem State.complete_srcLen (c : Code) (r e : Word) : (s.complete c r e).srcLen = s.srcLen := rfl
@[simp] theorem State.complete_dstAddr (c : Code) (r e : Word) : (s.complete c r e).dstAddr = s.dstAddr := rfl
@[simp] theorem State.complete_dstLimit (c : Code) (r e : Word) : (s.complete c r e).dstLimit = s.dstLimit := rfl
@[simp] theorem State.complete_result (c : Code) (r e : Word) : (s.complete c r e).result = r := rfl
@[simp] theorem State.complete_errPos (c : Code) (r e : Word) : (s.complete c r e).errPos = e := rfl
@[simp] theorem State.complete_w (c : Code) (r e : Word) : (s.complete c r e).w = { s.w with op := .idle } := rfl
@[simp] theorem State.complete_stuckAt (c : Code) (r e : Word) : (s.complete c r e).stuckAt = s.stuckAt := rfl
@[simp] theorem State.complete_mem (c : Code) (r e : Word) : (s.complete c r e).mem = s.mem := rfl
@[simp] theorem State.complete_platform (c : Code) (r e : Word) : (s.complete c r e).platform = s.platform := rfl
@[simp] theorem State.complete_bus (c : Code) (r e : Word) : (s.complete c r e).bus = s.bus := rfl
@[simp] theorem State.complete_seen (c : Code) (r e : Word) : (s.complete c r e).seen = s.seen := rfl

/-! ### accept -/

@[simp] theorem State.accept_busy (i : Instr) : (s.accept i).busy = true := rfl
@[simp] theorem State.accept_code (i : Instr) : (s.accept i).code = .ok := rfl
@[simp] theorem State.accept_srcAddr (i : Instr) : (s.accept i).srcAddr = s.srcAddr := rfl
@[simp] theorem State.accept_srcLen (i : Instr) : (s.accept i).srcLen = s.srcLen := rfl
@[simp] theorem State.accept_dstAddr (i : Instr) : (s.accept i).dstAddr = s.dstAddr := rfl
@[simp] theorem State.accept_dstLimit (i : Instr) : (s.accept i).dstLimit = s.dstLimit := rfl
@[simp] theorem State.accept_result (i : Instr) : (s.accept i).result = 0 := rfl
@[simp] theorem State.accept_errPos (i : Instr) : (s.accept i).errPos = 0 := rfl
@[simp] theorem State.accept_w (i : Instr) : (s.accept i).w = Work.latch i s := rfl
@[simp] theorem State.accept_stuckAt (i : Instr) : (s.accept i).stuckAt = s.stuckAt := rfl
@[simp] theorem State.accept_mem (i : Instr) : (s.accept i).mem = s.mem := rfl
@[simp] theorem State.accept_platform (i : Instr) : (s.accept i).platform = s.platform := rfl
@[simp] theorem State.accept_bus (i : Instr) : (s.accept i).bus = s.bus := rfl
@[simp] theorem State.accept_seen (i : Instr) : (s.accept i).seen = s.seen := rfl

/-! ### badCommand -/

@[simp] theorem State.badCommand_busy : (s.badCommand).busy = s.busy := rfl
@[simp] theorem State.badCommand_code : (s.badCommand).code = .badCommand := rfl
@[simp] theorem State.badCommand_srcAddr : (s.badCommand).srcAddr = s.srcAddr := rfl
@[simp] theorem State.badCommand_srcLen : (s.badCommand).srcLen = s.srcLen := rfl
@[simp] theorem State.badCommand_dstAddr : (s.badCommand).dstAddr = s.dstAddr := rfl
@[simp] theorem State.badCommand_dstLimit : (s.badCommand).dstLimit = s.dstLimit := rfl
@[simp] theorem State.badCommand_result : (s.badCommand).result = 0 := rfl
@[simp] theorem State.badCommand_errPos : (s.badCommand).errPos = 0 := rfl
@[simp] theorem State.badCommand_w : (s.badCommand).w = s.w := rfl
@[simp] theorem State.badCommand_stuckAt : (s.badCommand).stuckAt = s.stuckAt := rfl
@[simp] theorem State.badCommand_mem : (s.badCommand).mem = s.mem := rfl
@[simp] theorem State.badCommand_platform : (s.badCommand).platform = s.platform := rfl
@[simp] theorem State.badCommand_bus : (s.badCommand).bus = s.bus := rfl
@[simp] theorem State.badCommand_seen : (s.badCommand).seen = s.seen := rfl

/-! ### resetEvent -/

@[simp] theorem State.resetEvent_busy : (s.resetEvent).busy = false := rfl
@[simp] theorem State.resetEvent_code : (s.resetEvent).code = .ok := rfl
@[simp] theorem State.resetEvent_srcAddr : (s.resetEvent).srcAddr = 0 := rfl
@[simp] theorem State.resetEvent_srcLen : (s.resetEvent).srcLen = 0 := rfl
@[simp] theorem State.resetEvent_dstAddr : (s.resetEvent).dstAddr = 0 := rfl
@[simp] theorem State.resetEvent_dstLimit : (s.resetEvent).dstLimit = 0 := rfl
@[simp] theorem State.resetEvent_result : (s.resetEvent).result = 0 := rfl
@[simp] theorem State.resetEvent_errPos : (s.resetEvent).errPos = 0 := rfl
@[simp] theorem State.resetEvent_w : (s.resetEvent).w = Work.reset := rfl
@[simp] theorem State.resetEvent_stuckAt : (s.resetEvent).stuckAt = none := rfl
@[simp] theorem State.resetEvent_mem : (s.resetEvent).mem = s.mem := rfl
@[simp] theorem State.resetEvent_platform : (s.resetEvent).platform = s.platform := rfl
@[simp] theorem State.resetEvent_bus : (s.resetEvent).bus = s.bus := rfl
@[simp] theorem State.resetEvent_seen : (s.resetEvent).seen = s.seen := rfl
@[simp] theorem State.resetEvent_readReg (r : Reg) : (s.resetEvent).readReg r = 0 := by
  cases r <;> simp [State.readReg, State.statusWord, codeNumber]

/-! ### noteReg -/

@[simp] theorem State.noteReg_busy (r : Reg) : (s.noteReg r).busy = s.busy := rfl
@[simp] theorem State.noteReg_code (r : Reg) : (s.noteReg r).code = s.code := rfl
@[simp] theorem State.noteReg_srcAddr (r : Reg) : (s.noteReg r).srcAddr = s.srcAddr := rfl
@[simp] theorem State.noteReg_srcLen (r : Reg) : (s.noteReg r).srcLen = s.srcLen := rfl
@[simp] theorem State.noteReg_dstAddr (r : Reg) : (s.noteReg r).dstAddr = s.dstAddr := rfl
@[simp] theorem State.noteReg_dstLimit (r : Reg) : (s.noteReg r).dstLimit = s.dstLimit := rfl
@[simp] theorem State.noteReg_result (r : Reg) : (s.noteReg r).result = s.result := rfl
@[simp] theorem State.noteReg_errPos (r : Reg) : (s.noteReg r).errPos = s.errPos := rfl
@[simp] theorem State.noteReg_w (r : Reg) : (s.noteReg r).w = s.w := rfl
@[simp] theorem State.noteReg_stuckAt (r : Reg) : (s.noteReg r).stuckAt = s.stuckAt := rfl
@[simp] theorem State.noteReg_mem (r : Reg) : (s.noteReg r).mem = s.mem := rfl
@[simp] theorem State.noteReg_platform (r : Reg) : (s.noteReg r).platform = s.platform := rfl
@[simp] theorem State.noteReg_bus (r : Reg) : (s.noteReg r).bus = s.bus := rfl
@[simp] theorem State.noteReg_seen (r : Reg) : (s.noteReg r).seen = s.seen ++ [.reg r (s.readReg r)] := rfl

/-! ### withCmdWord -/

@[simp] theorem State.withCmdWord_busy (v : Word) : (s.withCmdWord v).busy = false := rfl
@[simp] theorem State.withCmdWord_code (v : Word) : (s.withCmdWord v).code = s.code := rfl
@[simp] theorem State.withCmdWord_srcAddr (v : Word) : (s.withCmdWord v).srcAddr = s.srcAddr := rfl
@[simp] theorem State.withCmdWord_srcLen (v : Word) : (s.withCmdWord v).srcLen = s.srcLen := rfl
@[simp] theorem State.withCmdWord_dstAddr (v : Word) : (s.withCmdWord v).dstAddr = s.dstAddr := rfl
@[simp] theorem State.withCmdWord_dstLimit (v : Word) : (s.withCmdWord v).dstLimit = s.dstLimit := rfl
@[simp] theorem State.withCmdWord_result (v : Word) : (s.withCmdWord v).result = s.result := rfl
@[simp] theorem State.withCmdWord_errPos (v : Word) : (s.withCmdWord v).errPos = s.errPos := rfl
@[simp] theorem State.withCmdWord_w (v : Word) : (s.withCmdWord v).w = { s.w with op := .idle } := rfl
@[simp] theorem State.withCmdWord_stuckAt (v : Word) : (s.withCmdWord v).stuckAt = none := rfl
@[simp] theorem State.withCmdWord_mem (v : Word) : (s.withCmdWord v).mem = s.mem := rfl
@[simp] theorem State.withCmdWord_platform (v : Word) : (s.withCmdWord v).platform = s.platform := rfl
@[simp] theorem State.withCmdWord_bus (v : Word) : (s.withCmdWord v).bus = .host (wr s.platform .cmd v) :: s.bus := rfl
@[simp] theorem State.withCmdWord_seen (v : Word) : (s.withCmdWord v).seen = s.seen := rfl

/-! ### The latches of acceptance -/

@[simp] theorem Work.latch_op (i : Instr) : (Work.latch i s).op = opOf i := rfl
@[simp] theorem Work.latch_phase (i : Instr) : (Work.latch i s).phase = startPhase i := rfl
@[simp] theorem Work.latch_src (i : Instr) : (Work.latch i s).src = s.srcAddr := rfl
@[simp] theorem Work.latch_len (i : Instr) : (Work.latch i s).len = s.srcLen := rfl
@[simp] theorem Work.latch_dst (i : Instr) : (Work.latch i s).dst = s.dstAddr := rfl
@[simp] theorem Work.latch_lim (i : Instr) : (Work.latch i s).lim = s.dstLimit := rfl
@[simp] theorem Work.latch_char (i : Instr) : (Work.latch i s).char = i.fields.char := rfl
@[simp] theorem Work.latch_inPos (i : Instr) : (Work.latch i s).inPos = 0 := rfl
@[simp] theorem Work.latch_outPos (i : Instr) : (Work.latch i s).outPos = 0 := rfl
@[simp] theorem Work.latch_acc (i : Instr) : (Work.latch i s).acc = s.w.acc := rfl
@[simp] theorem Work.latch_pad (i : Instr) : (Work.latch i s).pad = s.w.pad := rfl
@[simp] theorem Work.latch_k (i : Instr) : (Work.latch i s).k = s.w.k := rfl

/-! ### The working state after reset -/

@[simp] theorem Work.reset_op : Work.reset.op = .idle := rfl
@[simp] theorem Work.reset_k : Work.reset.k = 0 := rfl

end Sys2Proof.Machine
end

