-- ==== Sys2Proof/Laws/Engine.lean ====
section
/-! SUPPORT. What the shared operations can do, said once: an engine step taken whole, and its reads and its
writes. -/

namespace Sys2Proof.Machine

/-! ### A step taken whole -/

theorem EngineProg.run_read {a : Addr} {next : Byte → EngineProg} {s : State} (h : s.platform.admits a = true) :
    (EngineProg.read a next).run s = (next (s.mem.read a)).run s := by simp [EngineProg.run, h]

theorem EngineProg.run_write {a : Addr} {v : Byte} {next : EngineProg} {s : State} (h : s.platform.admits a = true) :
    (EngineProg.write a v next).run s = next.run { s with mem := s.mem.write a v } := by simp [EngineProg.run, h]

@[simp] theorem EngineProg.run_goOn (w : Work) (s : State) : (EngineProg.goOn w).run s = .next { s with w := w } := rfl

@[simp] theorem EngineProg.run_complete (w : Work) (c : Code) (r e : Word) (s : State) :
    (EngineProg.complete w c r e).run s = .next (State.complete { s with w := w } c r e) := rfl

/-- What an engine step leaves alone, and what it may do to the flags (10_state.md R30): either the command goes on and the
flags, RESULT and ERR_POS stay, or it completes. -/
structure StepFrame (s t : State) : Prop where
  srcAddr  : t.srcAddr = s.srcAddr
  srcLen   : t.srcLen = s.srcLen
  dstAddr  : t.dstAddr = s.dstAddr
  dstLimit : t.dstLimit = s.dstLimit
  stuckAt  : t.stuckAt = s.stuckAt
  platform : t.platform = s.platform
  bus      : t.bus = s.bus
  seen     : t.seen = s.seen
  flags    : (t.busy = s.busy ∧ t.code = s.code ∧ t.result = s.result ∧ t.errPos = s.errPos) ∨
             (t.busy = false ∧ t.w.op = .idle)

theorem EngineProg.run_frame (p : EngineProg) {s t : State} (h : p.run s = .next t) : StepFrame s t := by
  induction p generalizing s with
  | read a next ih =>
    simp only [EngineProg.run] at h
    split at h
    · exact ih _ h
    · cases h
  | write a v next ih =>
    simp only [EngineProg.run] at h
    split at h
    · obtain ⟨h1, h2, h3, h4, h5, h6, h7, h8, h9⟩ := ih h
      exact ⟨h1, h2, h3, h4, h5, h6, h7, h8, h9⟩
    · cases h
  | goOn w =>
    cases h
    exact ⟨rfl, rfl, rfl, rfl, rfl, rfl, rfl, rfl, .inl ⟨rfl, rfl, rfl, rfl⟩⟩
  | complete w c r e =>
    cases h
    exact ⟨rfl, rfl, rfl, rfl, rfl, rfl, rfl, rfl, .inr ⟨rfl, rfl⟩⟩

/-- An engine step keeps memory canonical. -/
theorem EngineProg.run_wf (p : EngineProg) {s t : State} (h : p.run s = .next t) (hw : s.mem.wf = true) :
    t.mem.wf = true := by
  induction p generalizing s with
  | read a next ih =>
    simp only [EngineProg.run] at h
    split at h
    · exact ih _ h hw
    · cases h
  | write a v next ih =>
    simp only [EngineProg.run] at h
    split at h
    · exact ih h (Memory.write_wf _ _ _ hw)
    · cases h
  | goOn w => cases h; exact hw
  | complete w c r e => cases h; exact hw

/-- A step answers a next state or is stuck at an address that does not exist. -/
theorem EngineProg.run_answers (p : EngineProg) (s : State) :
    (∃ t, p.run s = .next t) ∨ ∃ a, p.run s = .fault (.stuck a) ∧ s.platform.admits a = false := by
  induction p generalizing s with
  | read a next ih =>
    by_cases h : s.platform.admits a = true
    · rw [EngineProg.run_read h]
      exact ih _ _
    · exact .inr ⟨a, by simp [EngineProg.run, h], by simpa using h⟩
  | write a v next ih =>
    by_cases h : s.platform.admits a = true
    · rw [EngineProg.run_write h]
      exact ih _
    · exact .inr ⟨a, by simp [EngineProg.run, h], by simpa using h⟩
  | goOn w => exact .inl ⟨_, rfl⟩
  | complete w c r e => exact .inl ⟨_, rfl⟩

/-! ### The reads and the writes of a group -/

/-- Reading a group whose addresses exist: the accumulator the step goes on with. -/
theorem readGroup_run (w : Work) (next : Group → EngineProg) (left j : Nat) (acc : Group) (s : State)
    (h : ∀ i < left, s.platform.admits (w.srcAt (j + i)) = true) :
    (readGroup w next left j acc).run s =
      (next ((List.range' j left).foldl (fun acc i => setGroupByte acc i (s.mem.read (w.srcAt i))) acc)).run s := by
  induction left generalizing j acc with
  | zero => rfl
  | succ left ih =>
    have h0 : s.platform.admits (w.srcAt j) = true := by simpa using h 0 (by omega)
    rw [readGroup, EngineProg.run_read h0, ih]
    · rfl
    · intro i hi
      have := h (i + 1) (by omega)
      rwa [show j + (i + 1) = j + 1 + i by omega] at this

/-- Writing bytes to addresses that exist: the step goes on from the memory with all of them written. -/
theorem writeBytes_run (w : Work) (next : EngineProg) (j : Nat) (bs : List Byte) (s : State)
    (h : ∀ i < bs.length, s.platform.admits (w.dstAt (j + i)) = true) :
    (writeBytes w next j bs).run s =
      next.run { s with mem := (bs.zipIdx j).foldl (fun m b => m.write (w.dstAt b.2) b.1) s.mem } := by
  induction bs generalizing j s with
  | nil => rfl
  | cons b rest ih =>
    have h0 : s.platform.admits (w.dstAt j) = true := by simpa using h 0 (by simp)
    rw [writeBytes, EngineProg.run_write h0, ih]
    · rfl
    · intro i hi
      have := h (i + 1) (by simpa using hi)
      rwa [show j + (i + 1) = j + 1 + i by omega] at this

/-- Addresses of one buffer at distinct offsets below 2^32 are distinct. -/
theorem Work.dstAt_inj (w : Work) {i j : Nat} (hi : i < 2 ^ 32) (hj : j < 2 ^ 32) (h : w.dstAt i = w.dstAt j) :
    i = j := by
  have h' : BitVec.ofNat 32 i = BitVec.ofNat 32 j := by
    unfold Work.dstAt at h
    exact (BitVec.add_right_inj _).mp h
  have := congrArg BitVec.toNat h'
  rwa [BitVec.toNat_ofNat, BitVec.toNat_ofNat, Nat.mod_eq_of_lt hi, Nat.mod_eq_of_lt hj] at this

/-- After bytes are written at offsets `j`, `j + 1`, …, an address none of them has reads as before. -/
theorem foldl_write_other (w : Work) (j : Nat) (bs : List Byte) (m : Memory) (x : Addr)
    (h : ∀ i < bs.length, x ≠ w.dstAt (j + i)) :
    ((bs.zipIdx j).foldl (fun m b => m.write (w.dstAt b.2) b.1) m).read x = m.read x := by
  induction bs generalizing j m with
  | nil => rfl
  | cons b rest ih =>
    simp only [List.zipIdx_cons, List.foldl_cons]
    rw [ih]
    · exact Memory.read_write_other m b (by simpa using h 0 (by simp))
    · intro i hi
      have := h (i + 1) (by simpa using hi)
      rwa [show j + (i + 1) = j + 1 + i by omega] at this

/-- After bytes are written at offsets `j`, `j + 1`, …, each address reads as the byte written there. -/
theorem foldl_write_same (w : Work) (j : Nat) (bs : List Byte) (m : Memory) (hl : j + bs.length ≤ 2 ^ 32)
    (i : Nat) (hi : i < bs.length) :
    ((bs.zipIdx j).foldl (fun m b => m.write (w.dstAt b.2) b.1) m).read (w.dstAt (j + i)) = bs[i] := by
  induction bs generalizing j m i with
  | nil => simp at hi
  | cons b rest ih =>
    simp only [List.zipIdx_cons, List.foldl_cons]
    simp only [List.length_cons] at hl hi
    cases i with
    | zero =>
      rw [foldl_write_other]
      · simp
      · intro i hi e
        have := w.dstAt_inj (by omega) (by omega) e
        omega
    | succ i =>
      rw [show j + (i + 1) = j + 1 + i by omega, ih (j + 1) _ (by omega) i (by omega)]
      rfl

/-! ### A command at a state -/

theorem State.command_idle (i : Instr) (p : EngineProg) {s : State} (h : s.busy = false) :
    s.command i p = .next (s.accept i) := by simp [State.command, h]

theorem State.command_running (i : Instr) (p : EngineProg) {s : State} (hb : s.busy = true) (h : s.w.op = opOf i) :
    s.command i p = p.run s := by simp [State.command, hb, h]

theorem State.command_other (i : Instr) (p : EngineProg) {s : State} (hb : s.busy = true) (h : s.w.op ≠ opOf i) :
    s.command i p = .next s := by simp [State.command, hb, h]

/-- All a command can do at a state: be accepted, take its engine step, or be dropped. -/
theorem State.command_cases (i : Instr) (p : EngineProg) (s : State) :
    (s.busy = false ∧ s.command i p = .next (s.accept i)) ∨
    (s.busy = true ∧ s.w.op = opOf i ∧ s.command i p = p.run s) ∨
    (s.busy = true ∧ s.w.op ≠ opOf i ∧ s.command i p = .next s) := by
  by_cases hb : s.busy = false
  · exact .inl ⟨hb, State.command_idle i p hb⟩
  · have hb : s.busy = true := by simpa using hb
    by_cases h : s.w.op = opOf i
    · exact .inr (.inl ⟨hb, h, State.command_running i p hb h⟩)
    · exact .inr (.inr ⟨hb, h, State.command_other i p hb h⟩)

/-- Every meaning is the shared operation over the instruction's engine step. -/
theorem exec_eq_command (i : Instr) (s : State) : exec i s = s.command i (engineProg i s.w) := by
  cases i <;> rfl

end Sys2Proof.Machine
end

