-- ==== Sys2Proof/Laws/Bus.lean ====
section
/-! SUPPORT. What one step does, event by event: the host's accesses, one and several, the end of a slot, and the engine's
turn. -/

namespace Sys2Proof.Machine

/-- A register's address reaches the register (10_state.md R20). -/
@[simp] theorem Platform.target_regAddr (p : Platform) (r : Reg) : p.target (p.regAddr r) 4 = .reg r := by
  have h : p.regAddr r - p.base = BitVec.ofNat 32 r.offset := by
    unfold Platform.regAddr
    rw [BitVec.add_comm, BitVec.add_sub_cancel]
  unfold Platform.target
  rw [h]
  cases r <;> rfl

/-- `wr REG, v` writes the register. -/
@[simp] theorem State.host_wr (s : State) (r : Reg) (v : Word) : s.host (wr s.platform r v) = s.writeReg r v := by
  simp only [State.host, wr, State.busWrite, Platform.target_regAddr]

/-- `rd REG` reads the register. -/
@[simp] theorem State.host_rd (s : State) (r : Reg) : s.host (rd s.platform r) = .next (s.noteReg r) := by
  simp only [State.host, rd, State.busRead, Platform.target_regAddr]

/-- While BUSY = 1 an access of the host changes memory and the readings only (10_state.md R29). -/
theorem State.host_busy {s t : State} {h : HostAccess} (hb : s.busy = true) (ht : s.host h = .next t) :
    t = { s with mem := t.mem, seen := t.seen } ∧ (s.mem.wf = true → t.mem.wf = true) := by
  cases h with
  | write a bytes v =>
    simp only [State.host, State.busWrite] at ht
    split at ht
    · cases ht; exact ⟨rfl, id⟩
    · cases ht
    · simp only [State.writeReg, hb, if_true] at ht
      cases ht; exact ⟨rfl, id⟩
  | read a bytes =>
    simp only [State.host, State.busRead] at ht
    split at ht <;> cases ht
    · exact ⟨rfl, id⟩
    · exact ⟨rfl, id⟩
  | store a v =>
    simp only [State.host, State.hostStore] at ht
    split at ht <;> cases ht
    exact ⟨rfl, Memory.write_wf _ _ _⟩
  | load a =>
    simp only [State.host, State.hostLoad] at ht
    split at ht <;> cases ht
    exact ⟨rfl, id⟩

/-- Every access keeps memory canonical and the platform, the events to come and the stuck address as they are. -/
theorem State.host_frame {s t : State} {h : HostAccess} (ht : s.host h = .next t) :
    t.platform = s.platform ∧ t.bus = s.bus ∧ t.stuckAt = s.stuckAt ∧ (s.mem.wf = true → t.mem.wf = true) := by
  by_cases hb : s.busy = true
  · obtain ⟨h1, h2⟩ := State.host_busy hb ht
    rw [h1]
    exact ⟨rfl, rfl, rfl, h2⟩
  · cases h with
    | write a bytes v =>
      simp only [State.host, State.busWrite] at ht
      split at ht
      · cases ht; exact ⟨rfl, rfl, rfl, id⟩
      · cases ht
      · simp only [State.writeReg, if_neg hb] at ht
        split at ht
        · simp only [State.cmdWrite] at ht
          split at ht
          · rw [exec_eq_command, State.command_idle _ _ (by simpa using hb)] at ht
            cases ht; exact ⟨rfl, rfl, rfl, id⟩
          · cases ht; exact ⟨rfl, rfl, rfl, id⟩
        all_goals cases ht; exact ⟨rfl, rfl, rfl, id⟩
    | read a bytes =>
      simp only [State.host, State.busRead] at ht
      split at ht <;> cases ht
      · exact ⟨rfl, rfl, rfl, id⟩
      · exact ⟨rfl, rfl, rfl, id⟩
    | store a v =>
      simp only [State.host, State.hostStore] at ht
      split at ht <;> cases ht
      exact ⟨rfl, rfl, rfl, Memory.write_wf _ _ _⟩
    | load a =>
      simp only [State.host, State.hostLoad] at ht
      split at ht <;> cases ht
      exact ⟨rfl, rfl, rfl, id⟩

/-- What each access of a list keeps, the list keeps. -/
theorem State.hosts_keeps {P : State → Prop} {hs : List HostAccess} {s t : State}
    (keeps : ∀ h ∈ hs, ∀ s t, P s → s.host h = .next t → P t) (hp : P s) (ht : s.hosts hs = .next t) : P t := by
  induction hs generalizing s with
  | nil => cases ht; exact hp
  | cons h rest ih =>
    simp only [State.hosts] at ht
    split at ht
    · next u hu =>
      exact ih (fun h hm => keeps h (List.mem_cons_of_mem _ hm)) (keeps h List.mem_cons_self s u hp hu) ht
    · cases ht
    · cases ht

/-- While BUSY = 1 the accesses of a list change memory and the readings only (10_state.md R29). -/
theorem State.hosts_busy {s t : State} {hs : List HostAccess} (hb : s.busy = true) (ht : s.hosts hs = .next t) :
    ∃ m l, t = { s with mem := m, seen := l } ∧ (s.mem.wf = true → m.wf = true) := by
  refine State.hosts_keeps (P := fun u => ∃ m l, u = { s with mem := m, seen := l } ∧ (s.mem.wf = true → m.wf = true))
    (fun h _ u v ⟨m, l, hu, hm⟩ hv => ?_) ⟨s.mem, s.seen, rfl, id⟩ ht
  obtain ⟨h1, h2⟩ := State.host_busy (by rw [hu]; exact hb) hv
  exact ⟨v.mem, v.seen, by rw [h1, hu], fun hw => h2 (by rw [hu]; exact hm hw)⟩

/-- All the end of a slot can come to. -/
theorem State.endSlot_next {s t : State} {between : List (List HostAccess)} {r : Option Nat} {finish : State → State}
    (ht : s.endSlot between r finish = .next t) :
    ∃ u, s.hosts (accessesLeft between r) = .next u ∧
      ((r = none ∧ t = finish u) ∨ (r ≠ none ∧ t = u.resetEvent)) := by
  simp only [State.endSlot] at ht
  split at ht
  · next u hu =>
    cases ht
    exact ⟨u, hu, by cases r <;> simp⟩
  · cases ht
  · cases ht

/-- With no event to come the engine runs. -/
theorem step_nil {s : State} (h : s.bus = []) : step s = s.engineTurn := by simp [step, State.advance, h]

/-- The next event of a non-empty bus. -/
theorem step_cons {s : State} {e : Event} {rest : List Event} (h : s.bus = e :: rest) :
    step s = s.takeEvent e rest := by simp [step, State.advance, h]

/-- `wr REG, v` writes the register. -/
theorem step_wr {s : State} {r : Reg} {v : Word} {rest : List Event} (h : s.bus = .host (wr s.platform r v) :: rest) :
    step s = State.writeReg { s with bus := rest } r v := by
  rw [step_cons h]
  exact State.host_wr { s with bus := rest } r v

/-- `rd REG` reads the register. -/
theorem step_rd {s : State} {r : Reg} {rest : List Event} (h : s.bus = .host (rd s.platform r) :: rest) :
    step s = .next (State.noteReg { s with bus := rest } r) := by
  rw [step_cons h]
  exact State.host_rd { s with bus := rest } r

/-- The engine's turn while it runs an instruction and is not stuck. -/
theorem State.engineTurn_running {s : State} {i : Instr} (hr : s.w.running = some i) (hn : s.stuckAt = none) :
    s.engineTurn = exec i s := by simp [State.engineTurn, hr, hn]

/-- The engine's turn while it is idle and not stuck. -/
theorem State.engineTurn_idle {s : State} (hr : s.w.op = .idle) (hn : s.stuckAt = none) : s.engineTurn = .next s := by
  simp [State.engineTurn, Work.running, hr, hn]

/-- An engine's turn that answers a next state is a slot that answers it. -/
theorem State.engineSlot_next {s t : State} (h : s.engineTurn = .next t) : s.engineSlot = .next t := by
  simp [State.engineSlot, h]

/-- An engine's turn that is stuck is a slot that marks the engine stuck. -/
theorem State.engineSlot_stuck {s : State} {a : Addr} (h : s.engineTurn = .fault (.stuck a)) :
    s.engineSlot = .next { s with stuckAt := some a } := by simp [State.engineSlot, h]

/-- A running working state has an operation, and it is the instruction's. -/
theorem Work.op_of_running {w : Work} {i : Instr} (h : w.running = some i) : w.op = opOf i := by
  unfold Work.running at h
  cases hw : w.op <;> rw [hw] at h <;> cases h <;> rfl

/-- A running operation is some instruction's. -/
theorem Work.running_of_op {w : Work} (h : w.op ≠ .idle) : ∃ i, w.running = some i := by
  unfold Work.running
  cases hw : w.op <;> simp_all

end Sys2Proof.Machine
end

