-- ==== Sys2Proof/Laws/Decode.lean ====
section
/-! SUPPORT. The field view of a command word loses nothing. -/

namespace Sys2Proof

/-- The fields of an instruction's word are the instruction's fields. -/
@[simp] theorem cmdFields_encode (i : Instr) : cmdFields (encode i) = i.fields := by
  cases i with
  | classify ch => revert ch; decide
  | enclen => decide
  | maxdec => decide
  | encode => decide
  | decode => decide

/-- A word is the word of its fields. -/
@[simp] theorem fieldsWord_cmdFields (v : Word) : fieldsWord (cmdFields v) = v := by
  apply BitVec.eq_of_getLsbD_eq
  intro i hi
  simp only [fieldsWord, cmdFields, BitVec.getLsbD_append, BitVec.getLsbD_extractLsb']
  grind

end Sys2Proof
end

