-- ==== Sys2Proof/Laws/Encoder.lean ====
section
/-! SUPPORT. The encoder's datapath: what a group read into the accumulator is, and what its symbols are. -/

namespace Sys2Proof.Machine

/-- An instruction the engine runs is its engine step. -/
theorem exec_running {i : Instr} {s : State} (hb : s.busy = true) (h : s.w.op = opOf i) :
    exec i s = (engineProg i s.w).run s := by
  rw [exec_eq_command, State.command_running _ _ hb h]

/-- Reading bytes into a zero accumulator is zero extension of the bytes read (42_encoder.md R142, R145). -/
theorem readGroup_acc (f : Nat → Byte) (n : Nat) (hn : n ≤ 5) :
    (List.range' 0 n).foldl (fun acc i => setGroupByte acc i (f i)) 0 = groupOfBytes ((List.range n).map f) := by
  have : n = 0 ∨ n = 1 ∨ n = 2 ∨ n = 3 ∨ n = 4 ∨ n = 5 := by omega
  rcases this with rfl | rfl | rfl | rfl | rfl | rfl
  · simp [groupOfBytes]
  all_goals
    simp only [List.range'_succ, List.range'_zero, List.foldl, List.range_succ, List.range_zero,
      List.map_cons, List.map_nil, List.nil_append, List.cons_append, groupOfBytes, List.getD_cons_zero,
      List.getD_cons_succ, List.getD_nil, setGroupByte]
    apply BitVec.eq_of_getLsbD_eq
    intro i hi
    simp only [BitVec.getLsbD_or, BitVec.getLsbD_and, BitVec.getLsbD_not, BitVec.getLsbD_shiftLeft,
      BitVec.getLsbD_append, BitVec.getLsbD_setWidth]
    interval_cases i <;> simp

/-- The bits of five bytes side by side, the first the most significant (10_state.md R33). -/
theorem groupOfBytes_bit (bytes : List Byte) {b : Nat} (hb : b < 40) :
    (groupOfBytes bytes).getLsbD b = (bytes.getD (4 - b / 8) 0).getLsbD (b % 8) := by
  simp only [groupOfBytes, BitVec.getLsbD_append]
  interval_cases b <;> simp

/-- The number of data symbols of a group is one of the table's. -/
theorem dataSyms_cases (n : Nat) :
    dataSyms n = 0 ∨ dataSyms n = 2 ∨ dataSyms n = 4 ∨ dataSyms n = 5 ∨ dataSyms n = 7 ∨ dataSyms n = 8 := by
  unfold dataSyms
  split <;> simp

/-- The engine's symbols of a group are the data values through the alphabet, then padding (R142). -/
theorem groupSymbols_eq (acc : Group) (n : Nat) :
    groupSymbols acc n =
      ((groupValues acc).take (dataSyms n)).map alphabet ++ List.replicate (8 - dataSyms n) Config.pad := by
  rcases dataSyms_cases n with h | h | h | h | h | h <;>
    simp [groupSymbols, groupSymbol, h, Config.groupSyms, List.range_succ, groupValues, groupSym, List.replicate]

/-- The engine's symbols of the bytes of a group are `encode_group` of them. -/
theorem groupSymbols_groupOfBytes (bytes : List Byte) :
    groupSymbols (groupOfBytes bytes) bytes.length = encodeGroup bytes := by
  rw [groupSymbols_eq]
  rfl

/-- A group has eight symbols. -/
theorem encodeGroup_length (bytes : List Byte) : (encodeGroup bytes).length = 8 := by
  rcases dataSyms_cases bytes.length with h | h | h | h | h | h <;> simp [encodeGroup, groupValues, h]

/-- The symbol values of five bytes, by the table of source bits (R142). -/
theorem groupValues_bytes (b0 b1 b2 b3 b4 : Byte) :
    groupValues (b0 ++ b1 ++ b2 ++ b3 ++ b4) =
      [ b0.extractLsb' 3 5, b0.extractLsb' 0 3 ++ b1.extractLsb' 6 2, b1.extractLsb' 1 5,
        b1.extractLsb' 0 1 ++ b2.extractLsb' 4 4, b2.extractLsb' 0 4 ++ b3.extractLsb' 7 1, b3.extractLsb' 2 5,
        b3.extractLsb' 0 2 ++ b4.extractLsb' 5 3, b4.extractLsb' 0 5 ] := by
  simp only [groupValues]
  have e : ∀ {a b : BitVec 5}, (∀ i < 5, a.getLsbD i = b.getLsbD i) → a = b :=
    fun h => BitVec.eq_of_getLsbD_eq fun i hi => h i hi
  refine congrArg₂ _ (e ?_) (congrArg₂ _ (e ?_) (congrArg₂ _ (e ?_) (congrArg₂ _ (e ?_) (congrArg₂ _ (e ?_)
    (congrArg₂ _ (e ?_) (congrArg₂ _ (e ?_) (congrArg₂ _ (e ?_) rfl)))))))
  all_goals
    intro i hi
    simp only [BitVec.getLsbD_append, BitVec.getLsbD_extractLsb']
    interval_cases i <;> simp

end Sys2Proof.Machine
end

