-- ==== Sys2Proof/Laws/Decoder.lean ====
section
/-! SUPPORT. The decoder's datapath: what the loop over a group's symbols leaves in the working state, and what it answers.
`absorb` is the loop's effect on `w` over symbols none of which fails. -/

namespace Sys2Proof.Machine

/-- The working state after the symbols of a list, from symbol `i` of the group on (43_decoder.md R172). -/
def absorb : (i : Nat) → Work → List Byte → Work
  | _, w, [] => w
  | i, w, c :: rest =>
    match classify c with
    | .invalid => absorb (i + 1) w rest
    | .padding => absorb (i + 1) { w with pad := true } rest
    | .value v => absorb (i + 1) { w with acc := setGroupSym w.acc i v, k := w.k + 1 } rest

/-- Absorbing changes the group's scratch only. -/
theorem absorb_frame (g : List Byte) (i : Nat) (w : Work) :
    absorb i w g = { w with acc := (absorb i w g).acc, pad := (absorb i w g).pad, k := (absorb i w g).k } := by
  induction g generalizing i w with
  | nil => rfl
  | cons c rest ih =>
    simp only [absorb]
    split
    · exact ih _ _
    · exact ih (i + 1) { w with pad := true }
    · exact ih (i + 1) _

/-- The count of value symbols (R172). -/
theorem absorb_k (g : List Byte) (i : Nat) (w : Work) : (absorb i w g).k = w.k + g.countP isValue := by
  induction g generalizing i w with
  | nil => rfl
  | cons c rest ih =>
    simp only [absorb, List.countP_cons, isValue]
    split <;> next h => simp [ih, h]; try omega

/-- Reading symbols none of which fails and none of which is the terminator: the loop goes on after them. -/
theorem decodeSymbols_good (g : List Byte) (left i : Nat) (w : Work) (s : State)
    (ha : ∀ j < g.length, s.platform.admits (w.srcAt (i + j)) = true)
    (hg : ∀ j, (h : j < g.length) → s.mem.read (w.srcAt (i + j)) = g[j]) (h0 : (0x00 : Byte) ∉ g)
    (hf : firstBad w.pad g = none) :
    (decodeSymbols (left + g.length) i w).run s = (decodeSymbols left (i + g.length) (absorb i w g)).run s := by
  induction g generalizing i w with
  | nil => rfl
  | cons c rest ih =>
    have hc : s.mem.read (w.srcAt i) = c := hg 0 (by simp)
    have hc0 : c ≠ Config.terminator := fun e => h0 (by rw [e]; exact List.mem_cons_self)
    have hr : (0x00 : Byte) ∉ rest := fun h => h0 (List.mem_cons_of_mem _ h)
    have ha' : ∀ w' : Work, w'.src = w.src → w'.inPos = w.inPos → ∀ j < rest.length,
        s.platform.admits (w'.srcAt (i + 1 + j)) = true := by
      intro w' h1 h2 j hj
      have := ha (j + 1) (by simpa using hj)
      rw [show i + (j + 1) = i + 1 + j by omega] at this
      simpa [Work.srcAt, h1, h2] using this
    have hg' : ∀ w' : Work, w'.src = w.src → w'.inPos = w.inPos → ∀ j, (h : j < rest.length) →
        s.mem.read (w'.srcAt (i + 1 + j)) = rest[j] := by
      intro w' h1 h2 j hj
      have := hg (j + 1) (by simpa using hj)
      rw [show i + (j + 1) = i + 1 + j by omega] at this
      simpa [Work.srcAt, h1, h2] using this
    rw [List.length_cons, show left + (rest.length + 1) = left + rest.length + 1 by omega, decodeSymbols,
      EngineProg.run_read (by simpa using ha 0 (by simp)), hc, if_neg hc0]
    rw [firstBad] at hf
    rw [absorb]
    cases hcl : classify c with
    | invalid => simp [hcl] at hf
    | padding =>
      simp only [hcl] at hf ⊢
      rw [ih (i + 1) { w with pad := true } (ha' _ rfl rfl) (hg' _ rfl rfl) hr (by simpa using hf),
        show i + 1 + rest.length = i + (rest.length + 1) by omega]
    | value v =>
      simp only [hcl] at hf ⊢
      by_cases hp : w.pad = true
      · simp [hp] at hf
      · rw [if_neg hp] at hf ⊢
        rw [ih (i + 1) { w with acc := setGroupSym w.acc i v, k := w.k + 1 } (ha' _ rfl rfl) (hg' _ rfl rfl) hr
            (by simpa using hf),
          show i + 1 + rest.length = i + (rest.length + 1) by omega]

/-- A symbol that fails ends the command with INVALID_SYMBOL at its offset (R176). -/
theorem decodeSymbols_bad (left i : Nat) (w : Work) (s : State) (c : Byte) (ha : s.platform.admits (w.srcAt i) = true)
    (hc : s.mem.read (w.srcAt i) = c) (h0 : c ≠ 0x00) (hf : firstBad w.pad [c] = some 0) :
    (decodeSymbols (left + 1) i w).run s =
      .next (State.complete { s with w := w } .invalidSymbol w.outPos (w.inPos + BitVec.ofNat 32 i)) := by
  rw [decodeSymbols, EngineProg.run_read ha, hc, if_neg (show c ≠ Config.terminator from h0)]
  rw [firstBad] at hf
  cases hcl : classify c with
  | invalid => rfl
  | padding => simp [hcl, firstBad] at hf
  | value v =>
    by_cases hp : w.pad = true
    · simp only [hp, if_true]
      rfl
    · simp [hcl, hp, firstBad] at hf

/-- The terminator ends the group (R172). -/
theorem decodeSymbols_end (left i : Nat) (w : Work) (s : State) (ha : s.platform.admits (w.srcAt i) = true)
    (hc : s.mem.read (w.srcAt i) = 0x00) :
    (decodeSymbols (left + 1) i w).run s = (decodeGroupEnd w i true).run s := by
  rw [decodeSymbols, EngineProg.run_read ha, hc, if_pos (show (0x00 : Byte) = Config.terminator from rfl)]

/-! ### The accumulator -/

/-- The bits below symbol `i` of the group are zero. -/
def ZeroBelow (i : Nat) (acc : Group) : Prop := ∀ b < 40 - 5 * i, acc.getLsbD b = false

/-- The bits of the accumulator after a symbol value is placed (R33). -/
theorem setGroupSym_bit (acc : Group) {i b : Nat} (v : SymVal) (hi : i < 8) (hb : b < 40) :
    (setGroupSym acc i v).getLsbD b = if b / 5 = 7 - i then v.getLsbD (b % 5) else acc.getLsbD b := by
  have mask : ∀ n, (0x1F : Group).getLsbD n = decide (n < 5) := by
    intro n
    by_cases hn : n < 40
    · revert n; decide
    · rw [BitVec.getLsbD_of_ge _ _ (by omega)]
      simp
      omega
  simp only [setGroupSym, BitVec.getLsbD_or, BitVec.getLsbD_and, BitVec.getLsbD_not, BitVec.getLsbD_shiftLeft,
    BitVec.getLsbD_setWidth, mask]
  split
  · next h =>
    have h1 : ¬ b < 35 - 5 * i := by omega
    have h2 : b - (35 - 5 * i) < 5 := by omega
    have h3 : b - (35 - 5 * i) = b % 5 := by omega
    have h4 : b % 5 < 40 := by omega
    have h5 : b % 5 < 5 := by omega
    simp [hb, h1, h3, h4, h5]
  · next h =>
    by_cases h1 : b < 35 - 5 * i
    · simp [hb, h1]
    · have h2 : 5 ≤ b - (35 - 5 * i) := by omega
      have h3 : v.getLsbD (b - (35 - 5 * i)) = false := BitVec.getLsbD_of_ge _ _ h2
      simp [hb, h1, h3, Nat.not_lt.mpr h2]

theorem setGroupSym_zero {i : Nat} {acc : Group} (hi : i < 8) (h : ZeroBelow i acc) : setGroupSym acc i 0 = acc := by
  apply BitVec.eq_of_getLsbD_eq
  intro b hb
  rw [setGroupSym_bit acc 0 hi hb]
  split
  · next h' => rw [h b (by omega)]; simp
  · rfl

theorem setGroupSym_zeroBelow {i : Nat} {acc : Group} (v : SymVal) (h : ZeroBelow i acc) :
    ZeroBelow (i + 1) (setGroupSym acc i v) := by
  intro b hb
  have h' := h b (by omega)
  have hlt : b < 35 - 5 * i := by omega
  simp [setGroupSym, BitVec.getLsbD_shiftLeft, h', hlt]

/-- The accumulator after a group: each symbol's value, zero for padding, at its place (R173). -/
theorem absorb_acc (g : List Byte) (i : Nat) (w : Work) (hl : i + g.length ≤ 8) (hz : ZeroBelow i w.acc)
    (hv : ∀ c ∈ g, classify c ≠ .invalid) :
    (absorb i w g).acc = (g.zipIdx i).foldl (fun acc c => setGroupSym acc c.2 (valueOf c.1)) w.acc := by
  induction g generalizing i w with
  | nil => rfl
  | cons c rest ih =>
    simp only [List.length_cons] at hl
    have hr : ∀ c ∈ rest, classify c ≠ .invalid := fun c h => hv c (List.mem_cons_of_mem _ h)
    simp only [absorb, List.zipIdx_cons, List.foldl_cons]
    split
    · next h => exact absurd h (hv c List.mem_cons_self)
    · next h =>
      have hc : valueOf c = 0 := by simp [valueOf, h]
      rw [hc, setGroupSym_zero (by omega) hz]
      exact ih (i + 1) { w with pad := true } (by omega) (fun b hb => hz b (by omega)) hr
    · next v h =>
      have hc : valueOf c = v := by simp [valueOf, h]
      rw [hc]
      exact ih (i + 1) _ (by omega) (setGroupSym_zeroBelow v hz) hr

/-- The bits of the accumulator after values are placed from symbol `i` on. -/
theorem foldl_setGroupSym_bit (vals : List SymVal) (i : Nat) (acc : Group) {b : Nat} (hl : i + vals.length ≤ 8)
    (hb : b < 40) :
    ((vals.zipIdx i).foldl (fun acc v => setGroupSym acc v.2 v.1) acc).getLsbD b =
      if i ≤ 7 - b / 5 ∧ 7 - b / 5 < i + vals.length then (vals.getD (7 - b / 5 - i) 0).getLsbD (b % 5)
      else acc.getLsbD b := by
  induction vals generalizing i acc with
  | nil => simp; omega
  | cons v rest ih =>
    simp only [List.length_cons] at hl
    simp only [List.zipIdx_cons, List.foldl_cons]
    rw [ih (i + 1) _ (by omega), setGroupSym_bit acc v (by omega) hb, List.length_cons]
    by_cases h1 : i + 1 ≤ 7 - b / 5 ∧ 7 - b / 5 < i + 1 + rest.length
    · rw [if_pos h1, if_pos (by omega), show 7 - b / 5 - i = (7 - b / 5 - (i + 1)) + 1 by omega, List.getD_cons_succ]
    · rw [if_neg h1]
      by_cases h2 : b / 5 = 7 - i
      · rw [if_pos h2, if_pos (by omega), show 7 - b / 5 - i = 0 by omega, List.getD_cons_zero]
      · rw [if_neg h2, if_neg (by omega)]

/-- The bits of eight values side by side, the first the most significant (R33, R180). -/
theorem groupOfValues_bit (vals : List SymVal) {b : Nat} (hb : b < 40) :
    (groupOfValues vals).getLsbD b = (vals.getD (7 - b / 5) 0).getLsbD (b % 5) := by
  simp only [groupOfValues, BitVec.getLsbD_append]
  interval_cases b <;> simp

/-- Placing values from a zero accumulator is concatenation (R180). -/
theorem foldl_setGroupSym (vals : List SymVal) (hl : vals.length ≤ 8) :
    (vals.zipIdx 0).foldl (fun acc v => setGroupSym acc v.2 v.1) 0 = groupOfValues vals := by
  apply BitVec.eq_of_getLsbD_eq
  intro b hb
  rw [foldl_setGroupSym_bit vals 0 0 (by omega) hb, groupOfValues_bit vals hb]
  split
  · simp
  · next h =>
    rw [List.getD_eq_default]
    · simp
    · omega

/-- A text none of whose symbols fails has no Invalid symbol. -/
theorem not_invalid_of_firstBad {g : List Byte} {p : Bool} (h : firstBad p g = none) : ∀ c ∈ g, classify c ≠ .invalid := by
  induction g generalizing p with
  | nil => simp
  | cons c rest ih =>
    intro d hd
    simp only [firstBad] at h
    split at h
    · cases h
    · next hc =>
      rcases List.mem_cons.mp hd with rfl | hd
      · simp [hc]
      · exact ih (by simpa using h) d hd
    · next v hc =>
      split at h
      · cases h
      · rcases List.mem_cons.mp hd with rfl | hd
        · simp [hc]
        · exact ih (by simpa using h) d hd

/-- The group's bytes the engine writes are those of `decode_fn` (R173, R174, R180). -/
theorem decodeGroup_eq (g : List Byte) (room : Nat) (hl : g.length ≤ 8) :
    (List.range (min (bytesOfValues (g.countP isValue)) room)).map (groupByte (groupOfValues (g.map valueOf))) =
      (decodeGroup g).take room := by
  have hk : g.countP isValue ≤ 8 := le_trans List.countP_le_length hl
  have hb : bytesOfValues (g.countP isValue) ≤ 5 := by unfold bytesOfValues; omega
  unfold decodeGroup
  rw [List.take_take, Nat.min_comm room]
  have hm : min (bytesOfValues (g.countP isValue)) room ≤ 5 := by omega
  generalize min (bytesOfValues (g.countP isValue)) room = m at hm
  generalize groupOfValues (g.map valueOf) = acc
  interval_cases m <;> simp [List.range_succ, groupByte, groupBytesOf]

end Sys2Proof.Machine
end

