-- ==== Sys2Proof/Laws/Ends.lean ====
section
/-! SUPPORT. Every way an engine step can end, said once: taken whole (`run_ends`) or with host accesses and reset inside
it (`runSplit_ends`), and the ends of ENCODE's and DECODE's steps; and which addresses a step writes (`Stores`). Invariants
and frames follow from these without unfolding a step. -/

namespace Sys2Proof.Machine

/-- How an engine step ends: the working state it leaves, and the completion if it is one. -/
structure StepEnd where
  w    : Work
  done : Option (Code × Word × Word)

/-- The ends of an engine step, whatever its reads return. -/
inductive EngineProg.Ends : EngineProg → StepEnd → Prop where
  | read {a : Addr} {next : Byte → EngineProg} {e : StepEnd} (b : Byte) (h : (next b).Ends e) :
      (EngineProg.read a next).Ends e
  | write {a : Addr} {v : Byte} {next : EngineProg} {e : StepEnd} (h : next.Ends e) : (EngineProg.write a v next).Ends e
  | goOn (w : Work) : (EngineProg.goOn w).Ends ⟨w, none⟩
  | complete (w : Work) (c : Code) (r p : Word) : (EngineProg.complete w c r p).Ends ⟨w, some (c, r, p)⟩

/-- The state at an end, memory being as it is then. -/
def State.endStep (s : State) (e : StepEnd) : State :=
  match e.done with
  | none => { s with w := e.w }
  | some (c, r, p) => State.complete { s with w := e.w } c r p

/-- All a step taken whole can come to. -/
theorem EngineProg.run_ends (p : EngineProg) {s t : State} (h : p.run s = .next t) :
    ∃ e, p.Ends e ∧ t = State.endStep { s with mem := t.mem } e := by
  induction p generalizing s with
  | read a next ih =>
    simp only [EngineProg.run] at h
    split at h
    · obtain ⟨e, he, ht⟩ := ih _ h
      exact ⟨e, .read _ he, ht⟩
    · cases h
  | write a v next ih =>
    simp only [EngineProg.run] at h
    split at h
    · obtain ⟨e, he, ht⟩ := ih h
      exact ⟨e, .write he, ht⟩
    · cases h
  | goOn w => cases h; exact ⟨_, .goOn w, rfl⟩
  | complete w c r e => cases h; exact ⟨_, .complete w c r e, rfl⟩

/-- All a step with host accesses inside can come to, while BUSY = 1. -/
theorem EngineProg.runSplit_ends (p : EngineProg) {bt : List (List HostAccess)} {r : Option Nat} {s t : State}
    (hb : s.busy = true) (h : p.runSplit bt r s = .next t) :
    ∃ m l, (s.mem.wf = true → m.wf = true) ∧
      ((r = none ∧ ∃ e, p.Ends e ∧ t = State.endStep { s with mem := m, seen := l } e) ∨
       (r = none ∧ ∃ a, s.platform.admits a = false ∧ t = { s with mem := m, seen := l, stuckAt := some a }) ∨
       (r ≠ none ∧ t = State.resetEvent { s with mem := m, seen := l })) := by
  have ended : ∀ {s : State} {bt : List (List HostAccess)} {r : Option Nat} {finish : State → State}, s.busy = true →
      s.endSlot bt r finish = .next t → ∃ m l, (s.mem.wf = true → m.wf = true) ∧
        ((r = none ∧ t = finish { s with mem := m, seen := l }) ∨
         (r ≠ none ∧ t = State.resetEvent { s with mem := m, seen := l })) := by
    intro s bt r finish hb h
    obtain ⟨u, hu, h⟩ := State.endSlot_next h
    obtain ⟨m, l, rfl, hm⟩ := State.hosts_busy hb hu
    exact ⟨m, l, hm, h⟩
  induction p generalizing s bt r with
  | read a next ih =>
    simp only [EngineProg.runSplit] at h
    split at h
    · next u hu =>
      obtain ⟨m, l, rfl, hm⟩ := State.hosts_busy hb hu
      split at h
      · next hr => cases h; exact ⟨m, l, hm, .inr (.inr ⟨by simp [hr], rfl⟩)⟩
      · split at h
        · obtain ⟨m', l', hm', h'⟩ := ih _ (by exact hb) h
          refine ⟨m', l', hm' ∘ hm, ?_⟩
          rcases h' with ⟨hr, e, he, ht⟩ | ⟨hr, a, ha, ht⟩ | ⟨hr, ht⟩
          · exact .inl ⟨by simpa using hr, e, .read _ he, ht⟩
          · exact .inr (.inl ⟨by simpa using hr, a, ha, ht⟩)
          · exact .inr (.inr ⟨by simpa using hr, ht⟩)
        · next ha =>
          obtain ⟨m', l', hm', ⟨hr, ht⟩ | ⟨hr, ht⟩⟩ := ended (by exact hb) h
          · exact ⟨m', l', hm' ∘ hm, .inr (.inl ⟨by simpa using hr, a, by simpa using ha, ht⟩)⟩
          · exact ⟨m', l', hm' ∘ hm, .inr (.inr ⟨by simpa using hr, ht⟩)⟩
    · cases h
    · cases h
  | write a v next ih =>
    simp only [EngineProg.runSplit] at h
    split at h
    · next u hu =>
      obtain ⟨m, l, rfl, hm⟩ := State.hosts_busy hb hu
      split at h
      · next hr => cases h; exact ⟨m, l, hm, .inr (.inr ⟨by simp [hr], rfl⟩)⟩
      · split at h
        · obtain ⟨m', l', hm', h'⟩ := ih (by exact hb) h
          refine ⟨m', l', fun x => hm' (Memory.write_wf _ _ _ (hm x)), ?_⟩
          rcases h' with ⟨hr, e, he, ht⟩ | ⟨hr, a, ha, ht⟩ | ⟨hr, ht⟩
          · exact .inl ⟨by simpa using hr, e, .write he, ht⟩
          · exact .inr (.inl ⟨by simpa using hr, a, ha, ht⟩)
          · exact .inr (.inr ⟨by simpa using hr, ht⟩)
        · next ha =>
          obtain ⟨m', l', hm', ⟨hr, ht⟩ | ⟨hr, ht⟩⟩ := ended (by exact hb) h
          · exact ⟨m', l', hm' ∘ hm, .inr (.inl ⟨by simpa using hr, a, by simpa using ha, ht⟩)⟩
          · exact ⟨m', l', hm' ∘ hm, .inr (.inr ⟨by simpa using hr, ht⟩)⟩
    · cases h
    · cases h
  | goOn w =>
    obtain ⟨m, l, hm, ⟨hr, ht⟩ | ht⟩ := ended (by exact hb) h
    · exact ⟨m, l, hm, .inl ⟨hr, _, .goOn w, ht⟩⟩
    · exact ⟨m, l, hm, .inr (.inr ht)⟩
  | complete w c x y =>
    obtain ⟨m, l, hm, ⟨hr, ht⟩ | ht⟩ := ended (by exact hb) h
    · exact ⟨m, l, hm, .inl ⟨hr, _, .complete w c x y, ht⟩⟩
    · exact ⟨m, l, hm, .inr (.inr ht)⟩

/-- Writing bytes does not decide how a step ends. -/
theorem writeBytes_ends {w : Work} {next : EngineProg} {bs : List Byte} {j : Nat} {e : StepEnd} :
    (writeBytes w next j bs).Ends e → next.Ends e := by
  induction bs generalizing j with
  | nil => exact id
  | cons b rest ih => intro h; cases h with | write h => exact ih h

/-- Reading a group leaves some accumulator. -/
theorem readGroup_ends {w : Work} {next : Group → EngineProg} {n j : Nat} {acc : Group} {e : StepEnd} :
    (readGroup w next n j acc).Ends e → ∃ acc', (next acc').Ends e := by
  induction n generalizing j acc with
  | zero => exact fun h => ⟨_, h⟩
  | succ n ih => intro h; cases h with | read b h => exact ih h

/-- The ends of ENCODE's step (42_encoder.md R144 to R146). -/
theorem encodeProg_ends {w : Work} {e : StepEnd} (h : (encodeProg w).Ends e) :
    (w.phase = .check ∧
      ((encodedLength w.len.toNat > 2 ^ 32 - 1 ∧ e = ⟨w, some (.lengthRange, 0, 0)⟩) ∨
       (encodedLength w.len.toNat ≤ 2 ^ 32 - 1 ∧ encodedLength w.len.toNat > w.lim.toNat ∧
        e = ⟨w, some (.outputLimit, BitVec.ofNat 32 (encodedLength w.len.toNat), 0)⟩) ∨
       (encodedLength w.len.toNat ≤ w.lim.toNat ∧ e = ⟨{ w with phase := .groups }, none⟩))) ∨
    (w.phase = .groups ∧ w.inPos < w.len ∧ ∃ acc, e = ⟨{ w with
      acc := acc, inPos := w.inPos + BitVec.ofNat 32 (quintetSize w), outPos := w.outPos + 8 }, none⟩) ∨
    (w.phase = .groups ∧ ¬ w.inPos < w.len ∧ e = ⟨w, some (.ok, w.outPos, 0)⟩) := by
  unfold encodeProg at h
  split at h
  · next hp =>
    left
    refine ⟨hp, ?_⟩
    simp only [encodeCheckProg] at h
    split at h
    · cases h
      simp_all
    · split at h
      · cases h
        next h1 h2 => exact .inr (.inl ⟨by omega, h2, rfl⟩)
      · cases h
        next h1 h2 => exact .inr (.inr ⟨by omega, rfl⟩)
  · next hp =>
    right
    split at h
    · next hl =>
      left
      obtain ⟨acc, h⟩ := readGroup_ends h
      have := writeBytes_ends h
      cases this
      exact ⟨hp, hl, acc, rfl⟩
    · next hl =>
      right
      cases h with | write h => cases h; exact ⟨hp, hl, rfl⟩

/-- A group's bytes fit under the limit (43_decoder.md R174). -/
theorem groupBytesKept_le (w : Work) : groupBytesKept w ≤ w.lim.toNat - w.outPos.toNat := Nat.min_le_right _ _

/-- The ends of the last lines of a DECODE step. -/
theorem decodeGroupEnd_ends {w : Work} {i : Nat} {b : Bool} {e : StepEnd} (h : (decodeGroupEnd w i b).Ends e) :
    (i = 0 ∧ e = ⟨w, some (.ok, w.outPos, 0)⟩) ∨
    (i ≠ 0 ∧ ∃ w', w' = { w with
        outPos := w.outPos + BitVec.ofNat 32 (groupBytesKept w), inPos := w.inPos + BitVec.ofNat 32 i } ∧
      e = ⟨w', if b then some (.ok, w'.outPos, 0) else none⟩) := by
  unfold decodeGroupEnd at h
  split at h
  · next hi => cases h; exact .inl ⟨hi, rfl⟩
  · next hi =>
    right
    refine ⟨hi, _, rfl, ?_⟩
    have := writeBytes_ends h
    cases b
    · cases this; rfl
    · cases this; rfl

/-- The ends of a DECODE step past its limit test (R172): `w'` differs from `w` in the group's scratch only. -/
theorem decodeSymbols_ends {left i : Nat} {w : Work} {e : StepEnd} (h : (decodeSymbols left i w).Ends e) :
    ∃ w', w' = { w with acc := w'.acc, pad := w'.pad, k := w'.k } ∧ w'.k ≤ w.k + left ∧
     ((e = ⟨w', some (.ok, w.outPos, 0)⟩) ∨ (∃ p, e = ⟨w', some (.invalidSymbol, w.outPos, p)⟩) ∨
      ∃ n w'', w'' = { w' with
        outPos := w'.outPos + BitVec.ofNat 32 (groupBytesKept w'), inPos := w'.inPos + BitVec.ofNat 32 n } ∧
       (e = ⟨w'', none⟩ ∨ e = ⟨w'', some (.ok, w''.outPos, 0)⟩)) := by
  induction left generalizing i w with
  | zero =>
    refine ⟨w, rfl, by omega, ?_⟩
    rcases decodeGroupEnd_ends h with ⟨h1, h2⟩ | ⟨h1, w', h2, h3⟩
    · exact .inl h2
    · exact .inr (.inr ⟨i, w', h2, .inl (by simpa using h3)⟩)
  | succ left ih =>
    rw [decodeSymbols] at h
    cases h with
    | read c h =>
      dsimp only at h
      split at h
      · refine ⟨w, rfl, by omega, ?_⟩
        rcases decodeGroupEnd_ends h with ⟨h1, h2⟩ | ⟨h1, w', h2, h3⟩
        · exact .inl h2
        · exact .inr (.inr ⟨i, w', h2, .inr (by simpa using h3)⟩)
      · split at h
        · cases h; exact ⟨w, rfl, by omega, .inr (.inl ⟨_, rfl⟩)⟩
        · obtain ⟨w', h1, h2, h3⟩ := ih h
          exact ⟨w', h1, by simp at h2; omega, h3⟩
        · split at h
          · cases h; exact ⟨w, rfl, by omega, .inr (.inl ⟨_, rfl⟩)⟩
          · obtain ⟨w', h1, h2, h3⟩ := ih h
            exact ⟨w', h1, by simp at h2; omega, h3⟩

/-! ### The addresses a step writes -/

/-- Every write of an engine step goes to an address of which `P` holds. -/
inductive EngineProg.Stores (P : Addr → Prop) : EngineProg → Prop where
  | read {a : Addr} {next : Byte → EngineProg} (h : ∀ b, (next b).Stores P) : (EngineProg.read a next).Stores P
  | write {a : Addr} {v : Byte} {next : EngineProg} (ha : P a) (h : next.Stores P) : (EngineProg.write a v next).Stores P
  | goOn (w : Work) : (EngineProg.goOn w).Stores P
  | complete (w : Work) (c : Code) (r p : Word) : (EngineProg.complete w c r p).Stores P

/-- An address that a step does not write reads as before. -/
theorem EngineProg.run_other {P : Addr → Prop} {p : EngineProg} (hp : p.Stores P) {s t : State} (h : p.run s = .next t)
    {x : Addr} (hx : ¬ P x) : t.mem.read x = s.mem.read x := by
  induction hp generalizing s with
  | read _ ih =>
    simp only [EngineProg.run] at h
    split at h
    · exact ih _ h
    · cases h
  | write ha _ ih =>
    simp only [EngineProg.run] at h
    split at h
    · rw [ih h]
      exact Memory.read_write_other _ _ fun e => hx (e ▸ ha)
    · cases h
  | goOn w =>
    cases h
    rfl
  | complete w c r p =>
    cases h
    rfl

/-- Writing bytes writes their addresses. -/
theorem writeBytes_stores {P : Addr → Prop} {w : Work} {next : EngineProg} {bs : List Byte} {j : Nat}
    (hn : next.Stores P) (h : ∀ i < bs.length, P (w.dstAt (j + i))) : (writeBytes w next j bs).Stores P := by
  induction bs generalizing j with
  | nil => exact hn
  | cons b rest ih =>
    refine .write (by simpa using h 0 (by simp)) (ih fun i hi => ?_)
    have := h (i + 1) (by simpa using hi)
    rwa [show j + (i + 1) = j + 1 + i by omega] at this

/-- Reading a group writes nothing. -/
theorem readGroup_stores {P : Addr → Prop} {w : Work} {next : Group → EngineProg} {n j : Nat} {acc : Group}
    (h : ∀ acc, (next acc).Stores P) : (readGroup w next n j acc).Stores P := by
  induction n generalizing j acc with
  | zero => exact h _
  | succ n ih => exact .read fun b => ih

/-- ENCODE's guard writes nothing (R144). -/
theorem encodeCheckProg_stores {P : Addr → Prop} (w : Work) : (encodeCheckProg w).Stores P := by
  simp only [encodeCheckProg]
  split
  · exact .complete ..
  · split
    · exact .complete ..
    · exact .goOn _

/-- ENCODE's step writes the eight symbols of a group, or the terminator (R145, R146). -/
theorem encodeProg_stores (w : Work) :
    (encodeProg w).Stores fun x => ∃ j < (if w.phase = .groups then (if w.inPos < w.len then 8 else 1) else 0),
      x = w.dstAt j := by
  unfold encodeProg
  cases hp : w.phase with
  | check => exact encodeCheckProg_stores w
  | groups =>
    by_cases hl : w.inPos < w.len
    · simp only [hl, if_true]
      refine readGroup_stores fun acc => writeBytes_stores (.goOn _) fun i hi => ⟨i, ?_, by rw [Nat.zero_add]⟩
      simpa [groupSymbols, Config.groupSyms] using hi
    · simp only [hl, if_true, if_false]
      exact .write ⟨0, by simp, rfl⟩ (.complete ..)

/-- DECODE's step past its limit test writes at most five bytes, none at or above the limit (R174). -/
theorem decodeSymbols_stores {left i : Nat} {w v : Work} (hd : w.dst = v.dst) (ho : w.outPos = v.outPos)
    (hl : w.lim = v.lim) (hk : w.k + left ≤ 8) :
    (decodeSymbols left i w).Stores fun x => ∃ j < min 5 (v.lim.toNat - v.outPos.toNat), x = v.dstAt j := by
  have tail : ∀ {w : Work} {i : Nat} {b : Bool}, w.dst = v.dst → w.outPos = v.outPos → w.lim = v.lim → w.k ≤ 8 →
      (decodeGroupEnd w i b).Stores fun x => ∃ j < min 5 (v.lim.toNat - v.outPos.toNat), x = v.dstAt j := by
    intro w i b hd ho hl hk
    unfold decodeGroupEnd
    split
    · exact .complete ..
    · refine writeBytes_stores ?_ fun j hj => ⟨j, ?_, ?_⟩
      · split
        · exact .complete ..
        · exact .goOn _
      · simp only [List.length_map, List.length_range, groupBytesKept, bytesOfValues, ho, hl] at hj
        omega
      · simp [Work.dstAt, hd, ho]
  induction left generalizing i w with
  | zero => exact tail hd ho hl (by omega)
  | succ left ih =>
    refine .read fun c => ?_
    split
    · exact tail hd ho hl (by omega)
    · split
      · exact .complete ..
      · exact ih hd ho hl (by simp only; omega)
      · split
        · exact .complete ..
        · exact ih hd ho hl (by simp only; omega)

end Sys2Proof.Machine
end

