-- ==== Sys2Proof/Laws/PerInstr.lean ====
section
/-! SUPPORT. A law of every instruction as syntax, one lemma per constructor: its word is selected by the row of the match
and mask table that carries its mnemonic (30_encoding.md R73). -/

namespace Sys2Proof.Laws.RowSelects

/-- The instruction is well formed, and the row of its mnemonic, and no other row, selects its word. -/
def Statement (i : Instr) : Prop :=
  i.wf = true ∧ ∀ r ∈ opcodeRows, (r.selects (encode i) = true ↔ r.mnemonic = i.mnemonic)

theorem classify (ch : Byte) : Statement (.classify ch) := by
  revert ch
  unfold Statement
  decide

theorem enclen : Statement .enclen := by unfold Statement; decide

theorem maxdec : Statement .maxdec := by unfold Statement; decide

theorem encode : Statement .encode := by unfold Statement; decide

theorem decode : Statement .decode := by unfold Statement; decide

end Sys2Proof.Laws.RowSelects
end

