-- ==== Sys2Proof/Laws/Run.lean ====
section
/-! SUPPORT. Runs of several steps: the host's own run, and runs put together. -/

namespace Sys2Proof.Machine

/-- `runSteps` is the run of the host's interface. -/
theorem runSteps_eq_run (n : Nat) (s : State) : runSteps n s = Host.Core.run Sys2Proof.core n s := by
  induction n generalizing s with
  | zero => rfl
  | succ n ih =>
    refine Eq.trans ?_ (Host.Core.run.eq_2 Sys2Proof.core s n).symm
    rw [runSteps]
    cases hs : step s with
    | next t =>
      rw [show Sys2Proof.core.step s = .next t from hs]
      exact ih t
    | fault r =>
      rw [show Sys2Proof.core.step s = .fault r from hs]
      rfl
    | refused r =>
      rw [show Sys2Proof.core.step s = .refused r from hs]
      rfl

@[simp] theorem runSteps_zero (s : State) : runSteps 0 s = .next s := rfl

/-- A first step and the run after it. -/
theorem runSteps_cons {n : Nat} {s t : State} (h : step s = .next t) : runSteps (n + 1) s = runSteps n t := by
  simp [runSteps, h]

/-- A run and the run after it. -/
theorem runSteps_append {n m : Nat} {s t : State} (h : runSteps n s = .next t) :
    runSteps (n + m) s = runSteps m t := by
  induction n generalizing s with
  | zero =>
    cases h
    rw [Nat.zero_add]
  | succ n ih =>
    cases hs : step s with
    | next u =>
      rw [runSteps_cons hs] at h
      rw [show n + 1 + m = (n + m) + 1 by omega, runSteps_cons hs]
      exact ih h
    | fault r => simp [runSteps, hs] at h
    | refused r => simp [runSteps, hs] at h

/-- A run and one step more. -/
theorem runSteps_snoc {n : Nat} {s t u : State} (h : runSteps n s = .next t) (hu : step t = .next u) :
    runSteps (n + 1) s = .next u := by
  rw [runSteps_append h, runSteps_cons hu, runSteps_zero]

end Sys2Proof.Machine
end

