-- ==== Sys2Proof/Laws/Split.lean ====
section
/-! SUPPORT. An engine step with nothing of the host inside it: without a reset it is the step taken whole
(20_memory.md R55), and with a reset after `e` memory events it leaves what those events wrote (70_reset_and_hazards.md
R241). -/

namespace Sys2Proof.Machine

@[simp] theorem State.hosts_nil (s : State) : s.hosts [] = .next s := rfl

/-- The end of a slot with nothing of the host inside. -/
@[simp] theorem State.endSlot_nil (s : State) (r : Option Nat) (finish : State → State) :
    s.endSlot [] r finish = .next (if r.isSome then s.resetEvent else finish s) := by
  cases r <;> rfl

/-- The slot of a running engine that is not stuck. -/
theorem State.splitSlot_running {s : State} {i : Instr} (between : List (List HostAccess)) (r : Option Nat)
    (hr : s.w.running = some i) (hn : s.stuckAt = none) :
    s.splitSlot between r = (engineProg i s.w).runSplit between r s := by simp [State.splitSlot, hr, hn]

/-- Nothing inside: the step taken whole. -/
theorem EngineProg.runSplit_nil (p : EngineProg) {s t : State} (h : p.run s = .next t) :
    p.runSplit [] none s = .next t := by
  induction p generalizing s with
  | read a next ih =>
    simp only [EngineProg.run] at h
    split at h
    · next ha => simpa [EngineProg.runSplit, ha] using ih _ h
    · cases h
  | write a v next ih =>
    simp only [EngineProg.run] at h
    split at h
    · next ha => simpa [EngineProg.runSplit, ha] using ih h
    · cases h
  | goOn w => simpa [EngineProg.runSplit] using h
  | complete w c r e => simpa [EngineProg.runSplit] using h

/-! ### Reset after `e` events -/

@[simp] theorem EngineProg.runSplit_read_zero (a : Addr) (next : Byte → EngineProg) (s : State) :
    (EngineProg.read a next).runSplit [] (some 0) s = .next s.resetEvent := rfl

@[simp] theorem EngineProg.runSplit_write_zero (a : Addr) (v : Byte) (next : EngineProg) (s : State) :
    (EngineProg.write a v next).runSplit [] (some 0) s = .next s.resetEvent := rfl

theorem EngineProg.runSplit_read_succ {a : Addr} {next : Byte → EngineProg} {e : Nat} {s : State}
    (h : s.platform.admits a = true) :
    (EngineProg.read a next).runSplit [] (some (e + 1)) s = (next (s.mem.read a)).runSplit [] (some e) s := by
  simp [EngineProg.runSplit, h]

theorem EngineProg.runSplit_write_succ {a : Addr} {v : Byte} {next : EngineProg} {e : Nat} {s : State}
    (h : s.platform.admits a = true) :
    (EngineProg.write a v next).runSplit [] (some (e + 1)) s =
      next.runSplit [] (some e) { s with mem := s.mem.write a v } := by simp [EngineProg.runSplit, h]

/-- Reset while a group is read, or after all of it is. -/
theorem readGroup_reset (w : Work) (next : Group → EngineProg) (left j : Nat) (acc : Group) (e : Nat) (s : State)
    (h : ∀ i < left, s.platform.admits (w.srcAt (j + i)) = true) :
    (readGroup w next left j acc).runSplit [] (some e) s =
      if e < left then .next s.resetEvent
      else (next ((List.range' j left).foldl (fun acc i => setGroupByte acc i (s.mem.read (w.srcAt i))) acc)).runSplit []
        (some (e - left)) s := by
  induction left generalizing j acc e with
  | zero => rfl
  | succ left ih =>
    cases e with
    | zero => rfl
    | succ e =>
      have h0 : s.platform.admits (w.srcAt j) = true := by simpa using h 0 (by omega)
      rw [readGroup, EngineProg.runSplit_read_succ h0, ih]
      · simp only [Nat.add_lt_add_iff_right, Nat.add_sub_add_right]
        rfl
      · intro i hi
        have := h (i + 1) (by omega)
        rwa [show j + (i + 1) = j + 1 + i by omega] at this

/-- Reset while bytes are written leaves the first `e` of them; after all of them, the step goes on. -/
theorem writeBytes_reset (w : Work) (next : EngineProg) (j : Nat) (bs : List Byte) (e : Nat) (s : State)
    (h : ∀ i < bs.length, s.platform.admits (w.dstAt (j + i)) = true) :
    (writeBytes w next j bs).runSplit [] (some e) s =
      let t := { s with mem := ((bs.take e).zipIdx j).foldl (fun m b => m.write (w.dstAt b.2) b.1) s.mem }
      if e < bs.length then .next t.resetEvent else next.runSplit [] (some (e - bs.length)) t := by
  induction bs generalizing j s e with
  | nil => simp [writeBytes]
  | cons b rest ih =>
    cases e with
    | zero => simp [writeBytes]
    | succ e =>
      have h0 : s.platform.admits (w.dstAt j) = true := by simpa using h 0 (by simp)
      rw [writeBytes, EngineProg.runSplit_write_succ h0, ih]
      · simp
      · intro i hi
        have := h (i + 1) (by simpa using hi)
        rwa [show j + (i + 1) = j + 1 + i by omega] at this

/-- Reset while symbols none of which fails are read, or after all of them are. -/
theorem decodeSymbols_good_reset (g : List Byte) (left i : Nat) (w : Work) (e : Nat) (s : State)
    (ha : ∀ j < g.length, s.platform.admits (w.srcAt (i + j)) = true)
    (hg : ∀ j, (h : j < g.length) → s.mem.read (w.srcAt (i + j)) = g[j]) (h0 : (0x00 : Byte) ∉ g)
    (hf : firstBad w.pad g = none) :
    (decodeSymbols (left + g.length) i w).runSplit [] (some e) s =
      if e < g.length then .next s.resetEvent
      else (decodeSymbols left (i + g.length) (absorb i w g)).runSplit [] (some (e - g.length)) s := by
  induction g generalizing i w e with
  | nil => rfl
  | cons c rest ih =>
    cases e with
    | zero => rfl
    | succ e =>
      have hc : s.mem.read (w.srcAt i) = c := hg 0 (by simp)
      have hc0 : c ≠ Config.terminator := fun e => h0 (by rw [e]; exact List.mem_cons_self)
      have hr : (0x00 : Byte) ∉ rest := fun h => h0 (List.mem_cons_of_mem _ h)
      have ha' : ∀ w' : Work, w'.src = w.src → w'.inPos = w.inPos → ∀ j < rest.length,
          s.platform.admits (w'.srcAt (i + 1 + j)) = true := by
        intro w' h1 h2 j hj
        have := ha (j + 1) (by simpa using hj)
        rw [show i + (j + 1) = i + 1 + j by omega] at this
        simpa [Work.srcAt, h1, h2] using this
      have hg' : ∀ w' : Work, w'.src = w.src → w'.inPos = w.inPos → ∀ j, (h : j < rest.length) →
          s.mem.read (w'.srcAt (i + 1 + j)) = rest[j] := by
        intro w' h1 h2 j hj
        have := hg (j + 1) (by simpa using hj)
        rw [show i + (j + 1) = i + 1 + j by omega] at this
        simpa [Work.srcAt, h1, h2] using this
      rw [List.length_cons, show left + (rest.length + 1) = left + rest.length + 1 by omega, decodeSymbols,
        EngineProg.runSplit_read_succ (by simpa using ha 0 (by simp)), hc, if_neg hc0]
      rw [firstBad] at hf
      rw [absorb]
      cases hcl : classify c with
      | invalid => simp [hcl] at hf
      | padding =>
        simp only [hcl] at hf ⊢
        rw [ih (i + 1) { w with pad := true } e (ha' _ rfl rfl) (hg' _ rfl rfl) hr (by simpa using hf),
          show i + 1 + rest.length = i + (rest.length + 1) by omega]
        simp only [Nat.add_lt_add_iff_right, Nat.add_sub_add_right]
      | value v =>
        simp only [hcl] at hf ⊢
        by_cases hp : w.pad = true
        · simp [hp] at hf
        · rw [if_neg hp] at hf ⊢
          rw [ih (i + 1) { w with acc := setGroupSym w.acc i v, k := w.k + 1 } e (ha' _ rfl rfl) (hg' _ rfl rfl) hr
              (by simpa using hf),
            show i + 1 + rest.length = i + (rest.length + 1) by omega]
          simp only [Nat.add_lt_add_iff_right, Nat.add_sub_add_right]

/-- A failing symbol's step has written nothing wherever the reset falls. -/
theorem decodeSymbols_bad_reset (left i : Nat) (w : Work) (e : Nat) (s : State) (c : Byte)
    (ha : s.platform.admits (w.srcAt i) = true) (hc : s.mem.read (w.srcAt i) = c) (h0 : c ≠ 0x00)
    (hf : firstBad w.pad [c] = some 0) :
    (decodeSymbols (left + 1) i w).runSplit [] (some e) s = .next s.resetEvent := by
  cases e with
  | zero => rfl
  | succ e =>
    rw [decodeSymbols, EngineProg.runSplit_read_succ ha, hc, if_neg (show c ≠ Config.terminator from h0)]
    rw [firstBad] at hf
    cases hcl : classify c with
    | invalid => simp [EngineProg.runSplit]
    | padding => simp [hcl, firstBad] at hf
    | value v =>
      by_cases hp : w.pad = true
      · simp [hp, EngineProg.runSplit]
      · simp [hcl, hp, firstBad] at hf

/-- The terminator's read, then the end of the group. -/
theorem decodeSymbols_end_reset (left i : Nat) (w : Work) (e : Nat) (s : State)
    (ha : s.platform.admits (w.srcAt i) = true) (hc : s.mem.read (w.srcAt i) = 0x00) :
    (decodeSymbols (left + 1) i w).runSplit [] (some e) s =
      if e = 0 then .next s.resetEvent else (decodeGroupEnd w i true).runSplit [] (some (e - 1)) s := by
  cases e with
  | zero => rfl
  | succ e =>
    rw [decodeSymbols, EngineProg.runSplit_read_succ ha, hc, if_pos (show (0x00 : Byte) = Config.terminator from rfl)]
    simp

/-! ### Stuck inside a step taken whole -/

theorem EngineProg.run_read_absent {a : Addr} {next : Byte → EngineProg} {s : State} (h : s.platform.admits a = false) :
    (EngineProg.read a next).run s = .fault (.stuck a) := by simp [EngineProg.run, h]

theorem EngineProg.run_write_absent {a : Addr} {v : Byte} {next : EngineProg} {s : State}
    (h : s.platform.admits a = false) : (EngineProg.write a v next).run s = .fault (.stuck a) := by
  simp [EngineProg.run, h]

/-- Reading a group sticks at its first address that does not exist. -/
theorem readGroup_stuck (w : Work) (next : Group → EngineProg) (left j : Nat) (acc : Group) (s : State) {k : Nat}
    (hk : k < left) (h : ∀ i < k, s.platform.admits (w.srcAt (j + i)) = true)
    (ha : s.platform.admits (w.srcAt (j + k)) = false) :
    (readGroup w next left j acc).run s = .fault (.stuck (w.srcAt (j + k))) := by
  induction k generalizing left j acc with
  | zero =>
    obtain ⟨left, rfl⟩ : ∃ n, left = n + 1 := ⟨left - 1, by omega⟩
    exact EngineProg.run_read_absent (by simpa using ha)
  | succ k ih =>
    obtain ⟨left, rfl⟩ : ∃ n, left = n + 1 := ⟨left - 1, by omega⟩
    rw [readGroup, EngineProg.run_read (by simpa using h 0 (by omega))]
    rw [show j + (k + 1) = j + 1 + k by omega] at ha ⊢
    exact ih left (j + 1) _ (by omega) (fun i hi => by
      have := h (i + 1) (by omega)
      rwa [show j + (i + 1) = j + 1 + i by omega] at this) ha

/-- Writing bytes sticks at the first address that does not exist. -/
theorem writeBytes_stuck (w : Work) (next : EngineProg) (j : Nat) (bs : List Byte) (s : State) {k : Nat}
    (hk : k < bs.length) (h : ∀ i < k, s.platform.admits (w.dstAt (j + i)) = true)
    (ha : s.platform.admits (w.dstAt (j + k)) = false) :
    (writeBytes w next j bs).run s = .fault (.stuck (w.dstAt (j + k))) := by
  induction bs generalizing j s k with
  | nil => simp at hk
  | cons b rest ih =>
    cases k with
    | zero => exact EngineProg.run_write_absent (by simpa using ha)
    | succ k =>
      rw [writeBytes, EngineProg.run_write (by simpa using h 0 (by omega))]
      rw [show j + (k + 1) = j + 1 + k by omega] at ha ⊢
      exact ih (j + 1) _ (by simpa using hk) (fun i hi => by
        have := h (i + 1) (by omega)
        rwa [show j + (i + 1) = j + 1 + i by omega] at this) ha

end Sys2Proof.Machine
end

