-- ==== Sys2Proof/Tests/Slice0.lean ====
section
/-! SUPPORT. Checks of the model on fixed values: ill-formed fields, command words written out from 30_encoding.md R70 and
R73, single steps against 95_test_vectors.md, and for each statement of Certificates/Slice0/Obligations.lean that has
hypotheses a state and operands that meet them. -/

namespace Sys2Proof.Tests

open Sys2Proof.Machine

/-! ### Ill-formed command fields -/

/-- R21, R71: OP 0x0 is reserved. -/
theorem test_wf_refuses_op_zero : ({ rsv1 := 0, char := 0, rsv0 := 0, op := 0 } : CmdFields).wf = false := by decide

/-- R21, R71: OP 0x6 is reserved. -/
theorem test_wf_refuses_op_six : ({ rsv1 := 0, char := 0, rsv0 := 0, op := 6 } : CmdFields).wf = false := by decide

/-- R21: RSV0 must be zero. -/
theorem test_wf_refuses_rsv0 : ({ rsv1 := 0, char := 0, rsv0 := 1, op := 2 } : CmdFields).wf = false := by decide

/-- R21: RSV1 must be zero. -/
theorem test_wf_refuses_rsv1 : ({ rsv1 := 1, char := 0, rsv0 := 0, op := 2 } : CmdFields).wf = false := by decide

/-- R21: CHAR must be zero unless the command is CLASSIFY. -/
theorem test_wf_refuses_stray_char : ({ rsv1 := 0, char := 0x4D, rsv0 := 0, op := 5 } : CmdFields).wf = false := by
  decide

/-! ### Words written out: RSV1, CHAR, RSV0, OP (R70, R71) -/

theorem test_decode_classify : decode 0b0000000000000000_01001101_0000_0001 = .ok (.classify 0x4D) := by decide

theorem test_decode_enclen : decode 0b0000000000000000_00000000_0000_0010 = .ok .enclen := by decide

theorem test_decode_maxdec : decode 0b0000000000000000_00000000_0000_0011 = .ok .maxdec := by decide

theorem test_decode_encode : decode 0b0000000000000000_00000000_0000_0100 = .ok .encode := by decide

theorem test_decode_decode : decode 0b0000000000000000_00000000_0000_0101 = .ok .decode := by decide

/-- 95_test_vectors.md 3.6: all reserved bits set. -/
theorem test_decode_refuses_all_ones : decode 0xFFFFFFFF = .error (.reservedBits 0xFFFF 0xF) := by decide

/-- The opcode table numbers a 32-bit word as the register does; a longer number is no command. -/
theorem test_decodeTableWord :
    decodeTableWord 32 0x00004D01 = some (.classify 0x4D) ∧ decodeTableWord 32 0x12 = none ∧
      decodeTableWord 64 0x100000002 = none := by decide

/-! ### States for the tests -/

/-- Memory holding bytes from an address on. -/
def memAt (a : Addr) (bytes : List Byte) : Memory :=
  bytes.zipIdx.foldl (fun m b => m.write (a + BitVec.ofNat 32 b.2) b.1) []

/-- The state after reset, with the arguments and the memory given, right after a command is accepted. -/
def started (i : Instr) (src len dst lim : Word) (m : Memory) : State :=
  State.accept i { State.reset with srcAddr := src, srcLen := len, dstAddr := dst, dstLimit := lim, mem := m }

/-- The same for ENCODE with its guard passed. -/
def encoding (src len dst lim : Word) (m : Memory) : State :=
  let s := started .encode src len dst lim m
  { s with w := { s.w with phase := .groups } }

/-- The state of an answer, if it is one. -/
def nextState (o : Answer) : Option State :=
  match o with
  | .next t => some t
  | .fault _ => none
  | .refused _ => none

/-- BUSY, CODE, RESULT and ERR_POS of an answer's state. -/
def outcome (o : Answer) : Option (Bool × Code × Word × Word) :=
  (nextState o).map fun t => (t.busy, t.code, t.result, t.errPos)

/-- Bytes of memory in an answer's state. -/
def bytesOf (o : Answer) (a : Addr) (n : Nat) : Option (List Byte) :=
  (nextState o).map fun t => t.mem.bytesAt a n

/-- "MZXW6YTB" and the terminator. -/
def foobaText : List Byte := [0x4D, 0x5A, 0x58, 0x57, 0x36, 0x59, 0x54, 0x42, 0x00]

/-! ### One step of each instruction (95_test_vectors.md) -/

/-- 3.1: 'M' has value 12. -/
theorem test_classify_letter : outcome (exec (.classify 0x4D) (started (.classify 0x4D) 0 0 0 0 [])) =
    some (false, .ok, 0x0C, 0) := by decide

/-- 3.1: '[' is just above 'Z'. -/
theorem test_classify_above_z : outcome (exec (.classify 0x5B) (started (.classify 0x5B) 0 0 0 0 [])) =
    some (false, .ok, 0x200, 0) := by decide

/-- 3.2: the largest size that fits. -/
theorem test_enclen_at_bound : outcome (exec .enclen (started .enclen 0 0x9FFFFFFB 0 0 [])) =
    some (false, .ok, 0xFFFFFFF9, 0) := by decide

/-- 3.2: one byte more. -/
theorem test_enclen_past_bound : outcome (exec .enclen (started .enclen 0 0x9FFFFFFC 0 0 [])) =
    some (false, .lengthRange, 0, 0) := by decide

/-- 3.3: nine symbols. -/
theorem test_maxdec_nine : outcome (exec .maxdec (started .maxdec 0 9 0 0 [])) = some (false, .ok, 5, 0) := by decide

/-- 3.3: the largest length. -/
theorem test_maxdec_largest : outcome (exec .maxdec (started .maxdec 0 0xFFFFFFFF 0 0 [])) =
    some (false, .ok, 0x9FFFFFFB, 0) := by decide

/-- 3.4: "foo" with a limit of 8 is one short; RESULT is the capacity needed. -/
theorem test_encode_guard : outcome (exec .encode (started .encode 0x1000 3 0x2000 8 [])) =
    some (false, .outputLimit, 9, 0) := by decide

/-- W5 and B3, on E-wrap's addresses: "foob" is "MZXW6YQ=", written across the top of memory. -/
theorem test_encode_group_wraps :
    bytesOf (exec .encode (encoding 0x1000 4 0xFFFFFFFC 9 (memAt 0x1000 [0x66, 0x6F, 0x6F, 0x62]))) 0xFFFFFFFC 8 =
      some [0x4D, 0x5A, 0x58, 0x57, 0x36, 0x59, 0x51, 0x3D] := by decide

/-- D9: the limit cuts "fooba" to "foo" inside the group. -/
theorem test_decode_clips :
    bytesOf (exec .decode (started .decode 0x1000 0 0x3000 3 (memAt 0x1000 foobaText))) 0x3000 4 =
      some [0x66, 0x6F, 0x6F, 0x00] := by decide

/-- W10: "M=Y" fails at the value after a padding, and writes nothing. -/
theorem test_decode_value_after_padding :
    outcome (exec .decode (started .decode 0x1000 0 0x3000 16 (memAt 0x1000 [0x4D, 0x3D, 0x59]))) =
      some (false, .invalidSymbol, 0, 2) := by decide

/-! ### The machine around the instructions -/

/-- 3.6: a word with a stray CHAR completes in its write, BUSY staying 0. -/
theorem test_bad_command : outcome (step (State.reset.withFetchWord 32 0x00004D05)) = some (false, .badCommand, 0, 0) := by
  decide

/-- R80: the first step after reset runs the word placed for it. -/
theorem test_first_step_accepts : outcome (step (State.reset.withFetchWord 32 0x00000005)) = some (true, .ok, 0, 0) := by
  decide

/-- R241, in the middle of "MY======": two of its eight writes have happened. -/
theorem test_reset_inside_encode_group :
    bytesOf (step { encoding 0x1000 1 0x2000 9 (memAt 0x1000 [0x66]) with bus := [.split [] (some 3)] }) 0x2000 3 =
      some [0x4D, 0x59, 0x00] := by decide

/-- R241: DECODE of "MZXW6YTB" reset after eight reads and two writes has written "fo". -/
theorem test_reset_inside_decode_group :
    bytesOf (step { started .decode 0x1000 0 0x3000 16 (memAt 0x1000 foobaText) with bus := [.split [] (some 10)] })
      0x3000 3 = some [0x66, 0x6F, 0x00] := by decide

/-- R20, R53: a byte access to the window is refused. -/
theorem test_byte_access_refused : step { State.reset with bus := [.host (.read 0x04 1)] } = .refused (.windowAccess 4 1) := by
  rfl

/-! ### Hypotheses met, statement by statement -/

/-- One event to come. -/
def facing (e : Event) (s : State) : State := { s with bus := [e] }

/-- A busy state: DECODE of the text at 0x1000, just accepted. -/
def decoding : State := started .decode 0x1000 0 0x3000 16 (memAt 0x1000 foobaText)

/-- A platform without the addresses 0x1000 to 0x1FFF, at another BASE. -/
def holed : Platform := { basePage := 0x10, absent := [(0x1000, 0x1FFF)] }

/-- The engine stuck at an address that does not exist. -/
def stuckState : State := { decoding with platform := holed, stuckAt := some 0x1000 }

theorem witness_LegalWordsHaveOneMnemonic : legal 0x0000FF01 = true ∧ legal 0x00000102 = false ∧
    (∃ r ∈ opcodeRows, r.selects 0x0000FF01 = true) := by decide

theorem witness_IllegalWordsHaveTheirReason :
    ((0xFFFF0000 : Word).extractLsb' 16 16 ≠ 0 ∧ (0x000000F5 : Word).extractLsb' 4 4 ≠ 0) ∧
    ((0x6 : Word).extractLsb' 16 16 = 0 ∧ (0x6 : Word).extractLsb' 4 4 = 0 ∧ 6 ≤ (0x6 : Word).extractLsb' 0 4 ∧
      (0x0 : Word).extractLsb' 0 4 = 0) ∧
    ((0x0102 : Word).extractLsb' 16 16 = 0 ∧ (0x0102 : Word).extractLsb' 4 4 = 0 ∧
      2 ≤ (0x0102 : Word).extractLsb' 0 4 ∧ (0x0105 : Word).extractLsb' 0 4 ≤ 5 ∧
      (0x0102 : Word).extractLsb' 8 8 ≠ 0) := by decide

theorem witness_CmdWriteRunsDecodedInstruction :
    let s := facing (.host (wr State.reset.platform .cmd 0x00004D01)) State.reset
    s.bus = .host (wr s.platform .cmd 0x00004D01) :: [] ∧ s.busy = false ∧ decode 0x00004D01 = .ok (.classify 0x4D) := by decide

theorem witness_EngineTurnRunsLatchedInstruction :
    decoding.w.running = some .decode ∧ decoding.stuckAt = none ∧ decoding.bus = [] ∧
      (facing .engine decoding).bus = .engine :: [] ∧
      ∃ t, exec .decode { facing .engine decoding with bus := [] } = .next t :=
  ⟨by decide, by decide, by decide, by decide, _, rfl⟩

theorem witness_FetchedWordRuns : decodeTableWord 32 0x00000002 = some .enclen := by decide

theorem witness_AcceptanceLatchesOperands :
    let s := facing (.host (wr State.reset.platform .cmd 0x00000004)) State.reset
    s.bus = .host (wr s.platform .cmd 0x00000004) :: [] ∧ s.busy = false ∧ decode 0x00000004 = .ok .encode := by decide

theorem witness_IdleBlockAcceptsEveryInstruction : State.reset.busy = false := by decide

theorem witness_BadCommandCompletesInTheWrite :
    let s := facing (.host (wr State.reset.platform .cmd 0x00010002)) State.reset
    let t := facing (.host (wr decoding.platform .cmd 0x00010002)) decoding
    legal 0x00010002 = false ∧ (s.bus = .host (wr s.platform .cmd 0x00010002) :: [] ∧ s.busy = false) ∧
      (t.bus = .host (wr t.platform .cmd 0x00010002) :: [] ∧ t.busy = true) := by decide

theorem inv_decoding : Inv decoding := by constructor <;> decide

theorem witness_BusyDropsWritesAndReadsClear :
    let s := facing (.host (wr decoding.platform .errPos 7)) decoding
    let r := facing (.host (rd decoding.platform .errPos)) decoding
    (Inv s ∧ s.busy = true ∧ s.bus = .host (wr s.platform .errPos 7) :: []) ∧
      (Inv r ∧ r.busy = true ∧ r.bus = .host (rd r.platform .errPos) :: []) := by
  refine ⟨⟨?_, by decide, by decide⟩, ⟨?_, by decide, by decide⟩⟩ <;> constructor <;> decide

theorem witness_RegisterAccessEffects :
    (∀ r ∈ [Reg.cmd, .srcAddr, .srcLen, .dstAddr, .dstLimit, .status, .result, .errPos],
      let s := facing (.host (wr State.reset.platform r 5)) State.reset
      let b := facing (.host (wr decoding.platform r 5)) decoding
      let d := facing (.host (rd State.reset.platform r)) State.reset
      (s.busy = false ∧ s.bus = .host (wr s.platform r 5) :: []) ∧ (b.busy = true ∧ b.bus = .host (wr b.platform r 5) :: []) ∧
        d.bus = .host (rd d.platform r) :: []) ∧
    legal 5 = true ∧ legal 6 = false := by decide

theorem witness_StatusReadsItsFields :
    let s := facing (.host (rd decoding.platform .status)) decoding
    let t := facing (.host (wr decoding.platform .status 0)) decoding
    s.bus = .host (rd s.platform .status) :: [] ∧ t.bus = .host (wr t.platform .status 0) :: [] := by decide

/-- Just above the window, and the word that ends just below it. -/
theorem witness_WindowMapOfRegisters :
    (∃ k, k < 8 ∧ k = 7) ∧
    let s := facing (.host (.write 0x220 4 1)) { State.reset with platform := holed }
    let t := facing (.host (.read 0x1FC 4)) { State.reset with platform := holed }
    (0x20 ≤ (0x220 - s.platform.base).toNat ∧ (0x220 - s.platform.base).toNat + 4 ≤ 2 ^ 32 ∧
      s.bus = .host (.write 0x220 4 1) :: []) ∧
    (0x20 ≤ (0x1FC - t.platform.base).toNat ∧ (0x1FC - t.platform.base).toNat + 4 = 2 ^ 32 ∧
      t.bus = .host (.read 0x1FC 4) :: []) := by decide

/-- The window's last byte, a word that runs past its end, and a word that begins one byte below it. -/
theorem witness_OddWindowAccessRefused :
    let s := facing (.host (.write 0x1F 1 1)) State.reset
    let t := facing (.host (.read 0x1E 4)) State.reset
    let u := facing (.host (.read 0x1FF 4)) { State.reset with platform := holed }
    ((0x1F - s.platform.base).toNat < 0x20 ∧ (1 ≠ 4) ∧ s.bus = .host (.write 0x1F 1 1) :: []) ∧
    ((0x1E - t.platform.base).toNat < 0x20 ∧ (0x1E - t.platform.base).toNat % 4 ≠ 0 ∧
      t.bus = .host (.read 0x1E 4) :: []) ∧
    (0x20 ≤ (0x1FF - u.platform.base).toNat ∧ 2 ^ 32 < (0x1FF - u.platform.base).toNat + 4 ∧
      u.bus = .host (.read 0x1FF 4) :: []) := by
  decide

theorem witness_HostLoadReturnsLastStore :
    let s := { State.reset with bus := [.host (.store 0x10 7), .host (lb 0x10)] }
    s.platform.admits 0x10 = true ∧ s.bus = .host (.store 0x10 7) :: .host (lb 0x10) :: [] := by decide

/-- The ends of the ranges of R103. -/
theorem witness_ClassifierPartition :
    (0x31 : Byte) ≤ 0x31 ∧ ((0x32 : Byte) ≤ 0x37 ∧ (0x37 : Byte) ≤ 0x37) ∧ ((0x38 : Byte) ≤ 0x3C ∧ (0x3C : Byte) ≤ 0x3C) ∧
    ((0x3E : Byte) ≤ 0x40 ∧ (0x40 : Byte) ≤ 0x40) ∧ ((0x41 : Byte) ≤ 0x5A ∧ (0x5A : Byte) ≤ 0x5A) ∧
    (0x5B : Byte) ≤ 0xFF := by decide

theorem witness_ClassifierInvertsAlphabet : Machine.classify 0x37 = .value 31 := by decide

theorem witness_ClassifyCompletesWithClassWord : Runs (.classify 0x3D) (started (.classify 0x3D) 0 0 0 0 []) := by decide

theorem witness_EnclenCompletes :
    let s := started .enclen 0 0x9FFFFFFB 0 0 []
    let t := started .enclen 0 0x9FFFFFFC 0 0 []
    (Runs .enclen s ∧ s.w.len.toNat ≤ 2684354555) ∧ (Runs .enclen t ∧ 2684354555 < t.w.len.toNat) := by decide

theorem witness_MaxdecCompletes : Runs .maxdec (started .maxdec 0 0xFFFFFFFF 0 0 []) := by decide

theorem witness_EncodeGuard :
    let s := started .encode 0 0x9FFFFFFC 0 0xFFFFFFFF []
    let t := started .encode 0 3 0 8 []
    let u := started .encode 0 3 0 9 []
    (Runs .encode s ∧ s.w.phase = .check ∧ (s.w.len.toNat + 4) / 5 * 8 + 1 > 2 ^ 32 - 1) ∧
    (Runs .encode t ∧ t.w.phase = .check ∧ (t.w.len.toNat + 4) / 5 * 8 + 1 ≤ 2 ^ 32 - 1 ∧
      (t.w.len.toNat + 4) / 5 * 8 + 1 > t.w.lim.toNat) ∧
    (Runs .encode u ∧ u.w.phase = .check ∧ (u.w.len.toNat + 4) / 5 * 8 + 1 ≤ u.w.lim.toNat) := by decide

theorem witness_EncodeGroupStep :
    let s := encoding 0x1000 1 0xFFFFFFFC 9 (memAt 0x1000 [0x66])
    Runs .encode s ∧ s.w.phase = .groups ∧ s.w.inPos < s.w.len ∧
      Admitted s.platform (s.w.src + s.w.inPos) (min 5 (s.w.len.toNat - s.w.inPos.toNat)) ∧
      Admitted s.platform (s.w.dst + s.w.outPos) 8 := by decide

theorem witness_EncodeEndStep :
    let s := encoding 0x1000 0 0x2000 1 []
    Runs .encode s ∧ s.w.phase = .groups ∧ s.w.inPos = s.w.len ∧ s.platform.admits (s.w.dst + s.w.outPos) = true := by
  decide

theorem witness_DecodeCompletesAtLimit :
    let s := started .decode 0x1000 0 0x3000 0 []
    Runs .decode s ∧ s.w.outPos = s.w.lim := by decide

theorem witness_DecodeCompletesAtTerminator :
    let s := started .decode 0x1000 0 0x3000 16 []
    Runs .decode s ∧ s.w.outPos ≠ s.w.lim ∧ s.platform.admits (s.w.src + s.w.inPos) = true ∧
      s.mem.read (s.w.src + s.w.inPos) = 0x00 := by decide

/-- A whole group, and the shortest one. -/
theorem witness_DecodeGroupStep :
    let g := foobaText.take 8
    let r : List Byte := [0x4D]
    let s := decoding
    let t := started .decode 0x1000 0 0x3000 16 (memAt 0x1000 r)
    (Runs .decode s ∧ s.w.outPos ≠ s.w.lim ∧ Holds s.mem (s.w.src + s.w.inPos) g ∧ (0x00 : Byte) ∉ g ∧ g ≠ [] ∧
      firstBad false g = none ∧ g.length = 8 ∧
      Admitted s.platform (s.w.src + s.w.inPos) (min 8 (g.length + 1)) ∧
      Admitted s.platform (s.w.dst + s.w.outPos)
        ((decodeGroup g).take (s.w.lim.toNat - s.w.outPos.toNat)).length) ∧
    (Runs .decode t ∧ t.w.outPos ≠ t.w.lim ∧ Holds t.mem (t.w.src + t.w.inPos) r ∧ (0x00 : Byte) ∉ r ∧ r ≠ [] ∧
      firstBad false r = none ∧
      (r.length < 8 ∧ t.mem.read (t.w.src + t.w.inPos + BitVec.ofNat 32 r.length) = 0x00) ∧
      Admitted t.platform (t.w.src + t.w.inPos) (min 8 (r.length + 1)) ∧
      Admitted t.platform (t.w.dst + t.w.outPos)
        ((decodeGroup r).take (t.w.lim.toNat - t.w.outPos.toNat)).length) := by decide

/-- D5: the last symbol of a whole group fails. -/
theorem witness_DecodeFailsAtFirstBadSymbol :
    let g : List Byte := [0x4D, 0x3D, 0x3D, 0x3D, 0x3D, 0x3D, 0x3D, 0x59]
    let s := started .decode 0x1000 0 0x3000 16 (memAt 0x1000 g)
    Runs .decode s ∧ s.w.outPos ≠ s.w.lim ∧ Holds s.mem (s.w.src + s.w.inPos) g ∧ (0x00 : Byte) ∉ g ∧
      g.length = 7 + 1 ∧ 7 < 8 ∧ firstBad false g = some 7 ∧
      Admitted s.platform (s.w.src + s.w.inPos) g.length := by decide

/-- The three cases, and a step that is none of them. -/
theorem witness_DecodeOkInExactlyThreeCases :
    let s := started .decode 0x1000 0 0x3000 0 []
    let t := started .decode 0x1000 0 0x3000 1 []
    let u := started .decode 0x1000 0 0x3000 16 (memAt 0x1000 [0x4D, 0x59])
    (Runs .decode s ∧ s.w.outPos = s.w.lim ∧ ∃ r, exec .decode s = .next r) ∧
    (Runs .decode t ∧ t.w.outPos ≠ t.w.lim ∧ t.mem.read (t.w.src + t.w.inPos) = 0x00 ∧
      ∃ r, exec .decode t = .next r) ∧
    (Runs .decode u ∧ u.w.outPos ≠ u.w.lim ∧ Holds u.mem (u.w.src + u.w.inPos) [0x4D, 0x59] ∧
      (0x00 : Byte) ∉ ([0x4D, 0x59] : List Byte) ∧ firstBad false [0x4D, 0x59] = none ∧
      u.mem.read (u.w.src + u.w.inPos + BitVec.ofNat 32 2) = 0x00 ∧ ∃ r, exec .decode u = .next r) ∧
    (Runs .decode decoding ∧ ∃ r, exec .decode decoding = .next r ∧ r.busy = true) :=
  ⟨⟨by decide, by decide, _, rfl⟩, ⟨by decide, by decide, by decide, _, rfl⟩,
    ⟨by decide, by decide, by decide, by decide, by decide, by decide, _, rfl⟩, by decide, _, rfl, by decide⟩

theorem witness_PaddingWithoutTerminatorHangs :
    let s := started .decode 0xFFFFFFFC 0 0x3000 16 (memAt 0xFFFFFFFC (List.replicate 16 0x3D))
    s.bus = [] ∧ Runs .decode s ∧ s.stuckAt = none ∧ s.w.outPos ≠ s.w.lim ∧
      ∀ i < 8 * 2, s.platform.admits (s.w.src + s.w.inPos + BitVec.ofNat 32 i) = true ∧
        s.mem.read (s.w.src + s.w.inPos + BitVec.ofNat 32 i) = 0x3D := by decide

theorem witness_EngineKeepsArguments :
    (∃ t, exec .decode State.reset = .next t) ∧ State.reset.busy = false ∧
    (∃ t, exec .decode decoding = .next t) ∧ decoding.busy = true := ⟨⟨_, rfl⟩, by decide, ⟨_, rfl⟩, by decide⟩

theorem witness_SizeAndClassifyKeepMemory :
    (∃ t, exec .enclen (started .enclen 0 0 0 0 []) = .next t) ∧
    (∃ t, exec .maxdec (started .maxdec 0 0 0 0 []) = .next t) ∧
    (∃ t, exec (.classify 0) (started (.classify 0) 0 0 0 0 []) = .next t) := ⟨⟨_, rfl⟩, ⟨_, rfl⟩, ⟨_, rfl⟩⟩

theorem witness_EncodeStoresOnlyItsSymbols :
    ∃ t, exec .encode (encoding 0x1000 1 0xFFFFFFFC 9 (memAt 0x1000 [0x66])) = .next t := ⟨_, rfl⟩

theorem witness_DecodeStoresOnlyBelowLimit : ∃ t, exec .decode decoding = .next t := ⟨_, rfl⟩

/-- A source byte, a symbol's address, or the terminator's does not exist. -/
theorem witness_AbsentAddressLeavesEncodeStuck :
    let s := { encoding 0x0FFF 2 0x2000 9 [] with platform := holed }
    let t := { encoding 0x2000 1 0x0FF9 9 [] with platform := holed }
    let u := { encoding 0x2000 0 0x1FFF 1 [] with platform := holed }
    (Runs .encode s ∧ s.w.phase = .groups ∧ s.stuckAt = none ∧ s.w.inPos < s.w.len ∧
      1 < min 5 (s.w.len.toNat - s.w.inPos.toNat) ∧ Admitted s.platform (s.w.src + s.w.inPos) 1 ∧
      s.platform.admits (s.w.src + s.w.inPos + BitVec.ofNat 32 1) = false) ∧
    (Runs .encode t ∧ t.w.phase = .groups ∧ t.stuckAt = none ∧ t.w.inPos < t.w.len ∧
      Admitted t.platform (t.w.src + t.w.inPos) (min 5 (t.w.len.toNat - t.w.inPos.toNat)) ∧
      Admitted t.platform (t.w.dst + t.w.outPos) 7 ∧
      t.platform.admits (t.w.dst + t.w.outPos + BitVec.ofNat 32 7) = false) ∧
    (Runs .encode u ∧ u.w.phase = .groups ∧ u.stuckAt = none ∧ u.w.inPos = u.w.len ∧
      u.platform.admits (u.w.dst + u.w.outPos) = false) := by decide

/-- The input address after seven symbols, or the last byte of a whole group, does not exist. -/
theorem witness_AbsentAddressLeavesDecodeStuck :
    let g := foobaText.take 7
    let s := { started .decode 0x0FF9 0 0x3000 16 (memAt 0x0FF9 g) with platform := holed }
    let h := foobaText.take 8
    let t := { started .decode 0x2000 0 0x0FFC 5 (memAt 0x2000 h) with platform := holed }
    (Runs .decode s ∧ s.stuckAt = none ∧ s.w.outPos ≠ s.w.lim ∧ Holds s.mem (s.w.src + s.w.inPos) g ∧
      (0x00 : Byte) ∉ g ∧ firstBad false g = none ∧ g.length < 8 ∧
      Admitted s.platform (s.w.src + s.w.inPos) g.length ∧
      s.platform.admits (s.w.src + s.w.inPos + BitVec.ofNat 32 g.length) = false) ∧
    (Runs .decode t ∧ t.stuckAt = none ∧ t.w.outPos ≠ t.w.lim ∧ Holds t.mem (t.w.src + t.w.inPos) h ∧
      (0x00 : Byte) ∉ h ∧ firstBad false h = none ∧ h.length = 8 ∧
      Admitted t.platform (t.w.src + t.w.inPos) (min 8 (h.length + 1)) ∧
      4 < ((decodeGroup h).take (t.w.lim.toNat - t.w.outPos.toNat)).length ∧
      Admitted t.platform (t.w.dst + t.w.outPos) 4 ∧
      t.platform.admits (t.w.dst + t.w.outPos + BitVec.ofNat 32 4) = false) := by decide

theorem witness_OnlyResetLeavesStuck :
    Inv stuckState ∧ stuckState.stuckAt ≠ none ∧ stuckState.bus = [] ∧
      ∃ t, step (facing .reset stuckState) = .next t :=
  ⟨by constructor <;> decide, by decide, by decide, _, rfl⟩

theorem witness_ResetEventIdlesTheBlock : (facing .reset stuckState).bus = .reset :: [] := by decide

/-- Inside a group of one byte, and after the terminator's write. -/
theorem witness_ResetInsideGroupLeavesPrefix :
    let s := facing (.split [] (some 3)) (encoding 0x1000 1 0x2000 9 (memAt 0x1000 [0x66]))
    let t := facing (.split [] (some 1)) (encoding 0x1000 0 0x2000 1 [])
    (Runs .encode s ∧ s.w.phase = .groups ∧ s.stuckAt = none ∧ s.bus = .split [] (some 3) :: [] ∧
      s.w.inPos < s.w.len ∧
      Admitted s.platform (s.w.src + s.w.inPos) (min 5 (s.w.len.toNat - s.w.inPos.toNat)) ∧
      Admitted s.platform (s.w.dst + s.w.outPos) 8) ∧
    (Runs .encode t ∧ t.w.phase = .groups ∧ t.stuckAt = none ∧ t.bus = .split [] (some 1) :: [] ∧
      t.w.inPos = t.w.len ∧ t.platform.admits (t.w.dst + t.w.outPos) = true) := by decide

/-- At the limit, in a group that ends with the terminator, and in one whose last symbol fails. -/
theorem witness_ResetInsideDecodeGroupLeavesPrefix :
    let r := facing (.split [] (some 0)) (started .decode 0x1000 0 0x3000 0 [])
    let g : List Byte := [0x4D, 0x59]
    let s := facing (.split [] (some 4)) (started .decode 0x1000 0 0x3000 16 (memAt 0x1000 g))
    let b : List Byte := [0x4D, 0x3D, 0x3D, 0x3D, 0x3D, 0x3D, 0x3D, 0x59]
    let t := facing (.split [] (some 8)) (started .decode 0x1000 0 0x3000 16 (memAt 0x1000 b))
    (Runs .decode r ∧ r.stuckAt = none ∧ r.bus = .split [] (some 0) :: [] ∧ r.w.outPos = r.w.lim) ∧
    (Runs .decode s ∧ s.stuckAt = none ∧ s.bus = .split [] (some 4) :: [] ∧ s.w.outPos ≠ s.w.lim ∧
      Holds s.mem (s.w.src + s.w.inPos) g ∧ (0x00 : Byte) ∉ g ∧
      (g.length < 8 ∧ s.mem.read (s.w.src + s.w.inPos + BitVec.ofNat 32 g.length) = 0x00) ∧
      firstBad false g = none ∧ Admitted s.platform (s.w.src + s.w.inPos) (min 8 (g.length + 1)) ∧
      Admitted s.platform (s.w.dst + s.w.outPos)
        ((decodeGroup g).take (s.w.lim.toNat - s.w.outPos.toNat)).length) ∧
    (Runs .decode t ∧ t.stuckAt = none ∧ t.bus = .split [] (some 8) :: [] ∧ t.w.outPos ≠ t.w.lim ∧
      Holds t.mem (t.w.src + t.w.inPos) b ∧ (0x00 : Byte) ∉ b ∧ b.length = 7 + 1 ∧ firstBad false b = some 7 ∧
      Admitted t.platform (t.w.src + t.w.inPos) b.length) := by decide

theorem witness_SplitWithoutInterferenceIsWhole :
    Inv decoding ∧ decoding.stuckAt = none ∧
      ∃ t, step { decoding with bus := .engine :: [] } = .next t ∧ t.stuckAt = none :=
  ⟨inv_decoding, by decide, _, rfl, by decide⟩

theorem witness_HostStoreRacesWithEngineRead :
    let e := encoding 0x1000 1 0x2000 9 (memAt 0x1000 [0x66])
    let s := facing (.split [[.store 0x1000 0x67]] none) e
    let t := facing (.split [[], [.store 0x1000 0x67]] none) e
    (Runs .encode s ∧ s.w.phase = .groups ∧ s.w.len.toNat = s.w.inPos.toNat + 1 ∧ s.stuckAt = none ∧
      s.platform.admits (s.w.src + s.w.inPos) = true ∧ Admitted s.platform (s.w.dst + s.w.outPos) 8 ∧
      s.bus = .split [[.store (s.w.src + s.w.inPos) 0x67]] none :: []) ∧
    t.bus = .split [[], [.store (t.w.src + t.w.inPos) 0x67]] none :: [] := by decide

theorem witness_StatusStillBusyAfterTerminatorIsSeen :
    let e := encoding 0x1000 0 0x2000 1 []
    let s := facing (.split [[], [lb 0x2000, rd e.platform .status, wr e.platform .cmd 2]] none) e
    Inv s ∧ Runs .encode s ∧ s.w.phase = .groups ∧ s.w.inPos = s.w.len ∧ s.stuckAt = none ∧
      s.platform.admits (s.w.dst + s.w.outPos) = true ∧
      s.bus = .split [[], [lb (s.w.dst + s.w.outPos), rd s.platform .status, wr s.platform .cmd 2]] none :: [] :=
  ⟨by constructor <;> decide, by decide, by decide, by decide, by decide, by decide, by decide⟩

theorem witness_WaitEndsWithBusyClear :
    ((facing .wait State.reset).bus = .wait :: [] ∧ (facing .wait State.reset).busy = false) ∧
    ((facing .wait decoding).bus = .wait :: [] ∧ (facing .wait decoding).busy = true ∧
      (facing .wait decoding).stuckAt = none ∧ (facing .wait decoding).w.running = some .decode ∧
      ∃ t, exec .decode (facing .wait decoding) = .next t) :=
  ⟨by decide, by decide, by decide, by decide, by decide, _, rfl⟩

theorem witness_CompletionValuesPersist :
    let s := { State.reset with code := .outputLimit, result := 1 }
    s.busy = false ∧ s.w.op = .idle ∧ ∃ t, step s = .next t := ⟨by decide, by decide, _, rfl⟩

theorem witness_IdleStatePersists :
    State.reset.bus = [] ∧ State.reset.w.op = .idle ∧ State.reset.stuckAt = none := by decide

theorem witness_EveryStepKeepsInvariant : Inv decoding ∧ ∃ t, step decoding = .next t := ⟨inv_decoding, _, rfl⟩

theorem witness_EncodeRunWritesEncodedText :
    let s := started .encode 0x1000 6 0xFFFFFFFC 17 (memAt 0x1000 [0x66, 0x6F, 0x6F, 0x62, 0x61, 0x72])
    Accepted .encode s ∧ (s.w.len.toNat + 4) / 5 * 8 + 1 ≤ s.w.lim.toNat ∧
      Admitted s.platform s.w.src s.w.len.toNat ∧ Admitted s.platform s.w.dst ((s.w.len.toNat + 4) / 5 * 8 + 1) ∧
      Apart s.w.src s.w.len.toNat s.w.dst ((s.w.len.toNat + 4) / 5 * 8 + 1) := by decide

theorem witness_DecodeRunComputesDecodedText :
    let text := foobaText.take 8
    let d : Decoded := { code := .ok, out := [0x66, 0x6F, 0x6F, 0x62, 0x61], errPos := 0 }
    let s := decoding
    Accepted .decode s ∧ Holds s.mem s.w.src (text ++ [0x00]) ∧ (0x00 : Byte) ∉ text ∧ text.length < 2 ^ 32 ∧
      decodeText text s.w.lim.toNat = some d ∧ Admitted s.platform s.w.src (text.length + 1) ∧
      Admitted s.platform s.w.dst d.out.length ∧ Apart s.w.src (text.length + 1) s.w.dst d.out.length := by decide

theorem witness_DecodeRunOfEncodedTextGivesBytes :
    let bytes : List Byte := [0x66]
    let s := started .decode 0x1000 0 0x3000 1 (memAt 0x1000 [0x4D, 0x59, 0x3D, 0x3D, 0x3D, 0x3D, 0x3D, 0x3D])
    bytes.length ≤ 2684354555 ∧ Accepted .decode s ∧ Holds s.mem s.w.src (encodeText bytes ++ [0x00]) ∧
      Admitted s.platform s.w.src (encodeText bytes ++ [0x00]).length ∧
      Admitted s.platform s.w.dst (min bytes.length s.w.lim.toNat) ∧
      Apart s.w.src (encodeText bytes ++ [0x00]).length s.w.dst (min bytes.length s.w.lim.toNat) := by decide

/-- Law 3's premise at both ends. -/
theorem witness_EncodedTextObeysLaws :
    (1 ≤ ([0xFF] : List Byte).length ∧ ([0xFF, 0xFF, 0xFF, 0xFF, 0xFF] : List Byte).length ≤ 5) ∧
      (encodeText [0xFF])[6]! = 0x3D := by decide

theorem witness_DecodedSizeBound :
    ∃ d, decodeText [0x4D, 0x59] 16 = some d ∧ d.code = .ok ∧ decodeText (foobaText.take 8) 16 ≠ none :=
  ⟨_, rfl, by decide, by decide⟩

end Sys2Proof.Tests
end

/-! ### The invariant (10_state.md R22, R28, R29, R31, R35)

What changes a state is covered case by case first (`Inv.congr`, `Inv.of_idle`, `Inv.accept`, `Inv.badCommand`,
`Inv.stuck`, `Inv.complete`); then each layer of the step follows from the one below: the ends of an engine step, the
engine's turn, the host's accesses, the slots of the bus. -/

namespace Sys2Proof.Machine

/-- The invariant does not look at the argument registers, the platform, the events to come or the readings. -/
theorem Inv.congr {s t : State} (h : Inv s) (hm : t.mem.wf = true) (hb : t.busy = s.busy) (hc : t.code = s.code)
    (hr : t.result = s.result) (he : t.errPos = s.errPos) (hw : t.w = s.w) (hs : t.stuckAt = s.stuckAt) : Inv t := by
  cases t
  subst hb hc hr he hw hs
  exact { h with memory := hm }

/-- An idle block that is not stuck meets the invariant once memory, ERR_POS and the count of values do. -/
theorem Inv.of_idle {s : State} (hm : s.mem.wf = true) (hb : s.busy = false) (hop : s.w.op = .idle)
    (he : s.code ≠ .invalidSymbol → s.errPos = 0) (hs : s.stuckAt = none) (hk : s.w.k ≤ 8) : Inv s := by
  constructor
  case errPosZero => exact he
  all_goals simp [hm, hb, hop, hs, hk]

/-- Settles O53: after reset the block is idle. -/
theorem resetMeetsInvariant : Obligations.ResetMeetsInvariant :=
  Inv.of_idle rfl rfl rfl (fun _ => rfl) rfl (Nat.zero_le 8)

/-- Reset leads to the invariant from any canonical memory (R240). -/
theorem Inv.resetEvent {s : State} (hm : s.mem.wf = true) : Inv s.resetEvent :=
  Inv.of_idle hm rfl rfl (fun _ => rfl) rfl (Nat.zero_le 8)

/-- Acceptance keeps the invariant (R80). -/
theorem Inv.accept {s : State} (h : Inv s) (i : Instr) : Inv (s.accept i) where
  memory      := h.memory
  busyRuns    := by cases i <;> simp [opOf]
  busyClear   := fun _ => ⟨rfl, rfl, rfl⟩
  errPosZero  := fun _ => rfl
  stuckBusy   := fun _ => rfl
  phaseGroups := by cases i <;> simp [opOf, startPhase]
  encodeStart := fun _ _ => ⟨rfl, rfl⟩
  encodeFits  := by cases i <;> simp [opOf, startPhase]
  encodeIn    := fun _ => ⟨BitVec.le_def.mpr (Nat.zero_le _), .inl rfl⟩
  encodeOut   := fun _ => by simp [symbolCount, quintetGroups]
  decodeOut   := fun _ => BitVec.le_def.mpr (Nat.zero_le _)
  valueCount  := h.valueCount

/-- An illegal command word written to an idle block keeps the invariant (R76). -/
theorem Inv.badCommand {s : State} (h : Inv s) (hb : s.busy = false) : Inv s.badCommand :=
  { h with busyClear := fun hb' => (nomatch hb.symm.trans hb'), errPosZero := fun _ => rfl }

/-- A running engine that gets stuck keeps the invariant (R51). -/
theorem Inv.stuck {s : State} (h : Inv s) (hb : s.busy = true) (a : Addr) : Inv { s with stuckAt := some a } :=
  { h with stuckBusy := fun _ => hb }

/-- A command runs exactly while BUSY = 1 (R22). -/
theorem Inv.busy_of_running {s : State} (h : Inv s) {i : Instr} (hr : s.w.running = some i) : s.busy = true := by
  rw [h.busyRuns, Work.op_of_running hr]
  cases i <;> simp [opOf]

/-! ### The ends of an engine step -/

/-- A completion keeps the invariant when ERR_POS is 0 but for INVALID_SYMBOL (R14, R28). -/
theorem Inv.complete {s : State} (h : Inv s) (hs : s.stuckAt = none) {w : Work} {c : Code} {p : Word} (hk : w.k ≤ 8)
    (hp : c ≠ .invalidSymbol → p = 0) (r : Word) : Inv (s.endStep ⟨w, some (c, r, p)⟩) :=
  Inv.of_idle h.memory rfl rfl hp hs hk

/-- Eight more symbols for the next Quintet Group keep ENCODE's counters in step, below the guard's bound (R144, R145). -/
theorem encodeGroup_counters {w : Work} (hfit : encodedLength w.len.toNat ≤ w.lim.toNat) (hlt : w.inPos < w.len)
    (hin : w.inPos.toNat % 5 = 0 ∨ w.inPos = w.len) (hout : w.outPos.toNat = symbolCount w.inPos.toNat) :
    let inPos := w.inPos + BitVec.ofNat 32 (quintetSize w)
    (inPos ≤ w.len ∧ (inPos.toNat % 5 = 0 ∨ inPos = w.len)) ∧ (w.outPos + 8).toNat = symbolCount inPos.toNat := by
  intro inPos
  rw [BitVec.lt_def] at hlt
  have hn : quintetSize w = min 5 (w.len.toNat - w.inPos.toNat) := rfl
  have hpos : inPos.toNat = w.inPos.toNat + quintetSize w := by
    simp only [inPos, BitVec.toNat_add, BitVec.toNat_ofNat]
    omega
  have hmul : w.inPos.toNat % 5 = 0 := hin.resolve_right fun e => by simp [e] at hlt
  simp only [encodedLength, symbolCount, quintetGroups] at hfit hout ⊢
  refine ⟨⟨?_, ?_⟩, ?_⟩
  · rw [BitVec.le_def]
    omega
  · rw [← BitVec.toNat_inj]
    omega
  · rw [BitVec.toNat_add, show (8 : Word).toNat = 8 from rfl]
    omega

/-- ENCODE's step keeps the invariant (42_encoder.md R144 to R146). -/
theorem Inv.encodeEnd {s : State} (h : Inv s) (hop : s.w.op = .encode) (hs : s.stuckAt = none) {e : StepEnd}
    (he : (encodeProg s.w).Ends e) : Inv (s.endStep e) := by
  rcases encodeProg_ends he with
    ⟨-, ⟨-, rfl⟩ | ⟨-, -, rfl⟩ | ⟨hfit, rfl⟩⟩ | ⟨hp, hlt, acc, rfl⟩ | ⟨-, -, rfl⟩
  · exact h.complete hs h.valueCount (fun _ => rfl) _
  · exact h.complete hs h.valueCount (fun _ => rfl) _
  · exact { h with
      phaseGroups := fun _ _ => rfl
      encodeStart := fun _ hc => nomatch hc
      encodeFits  := fun _ _ => hfit }
  · obtain ⟨hin, hout⟩ := encodeGroup_counters (h.encodeFits hop hp) hlt (h.encodeIn hop).2 (h.encodeOut hop)
    exact { h with
      encodeStart := fun _ hc => nomatch hp.symm.trans hc
      encodeIn    := fun _ => hin
      encodeOut   := fun _ => hout
      decodeOut   := fun hd => nomatch hop.symm.trans hd }
  · exact h.complete hs h.valueCount (fun _ => rfl) _

/-- The bytes kept under the limit do not pass it (43_decoder.md R174). -/
theorem outPos_add_groupBytesKept_le {w : Work} (h : w.outPos ≤ w.lim) :
    w.outPos + BitVec.ofNat 32 (groupBytesKept w) ≤ w.lim := by
  have hk := groupBytesKept_le w
  rw [BitVec.le_def] at h ⊢
  rw [BitVec.toNat_add, BitVec.toNat_ofNat]
  omega

/-- The group's scratch is free but for the count of values (R31, R32). -/
theorem Inv.scratch {s : State} (h : Inv s) (acc : Group) (pad : Bool) {k : Nat} (hk : k ≤ 8) :
    Inv { s with w := { s.w with acc := acc, pad := pad, k := k } } := { h with valueCount := hk }

/-- DECODE's step keeps the invariant (43_decoder.md R172, R174, R176). -/
theorem Inv.decodeEnd {s : State} (h : Inv s) (hop : s.w.op = .decode) (hs : s.stuckAt = none) {e : StepEnd}
    (he : (decodeProg s.w).Ends e) : Inv (s.endStep e) := by
  unfold decodeProg at he
  split at he
  · cases he
    exact h.complete hs h.valueCount (fun _ => rfl) _
  · obtain ⟨w, hw, hk, rfl | ⟨p, rfl⟩ | ⟨n, v, rfl, rfl | rfl⟩⟩ := decodeSymbols_ends he
    all_goals have hk : w.k ≤ 8 := by simpa [Config.groupSyms] using hk
    · exact h.complete hs hk (fun _ => rfl) _
    · exact h.complete hs hk (fun hc => absurd rfl hc) _
    · have hop' : w.op = .decode := by rw [hw]; exact hop
      have hsc : Inv { s with w := w } := by rw [hw]; exact h.scratch _ _ hk
      exact { hsc with
        encodeStart := fun hc => nomatch hop'.symm.trans hc
        encodeIn    := fun hc => nomatch hop'.symm.trans hc
        encodeOut   := fun hc => nomatch hop'.symm.trans hc
        decodeOut   := fun _ => outPos_add_groupBytesKept_le (hsc.decodeOut hop') }
    · exact h.complete hs (by exact hk) (fun _ => rfl) _

/-- Every end of the running command's step keeps the invariant. -/
theorem Inv.endStep {s : State} (h : Inv s) {i : Instr} (hop : s.w.op = opOf i) (hs : s.stuckAt = none) {e : StepEnd}
    (he : (engineProg i s.w).Ends e) : Inv (s.endStep e) := by
  cases i with
  | classify ch =>
    cases he
    exact h.complete hs h.valueCount (fun _ => rfl) _
  | enclen =>
    simp only [engineProg, enclenProg] at he
    split at he <;> cases he <;> exact h.complete hs h.valueCount (fun _ => rfl) _
  | maxdec =>
    cases he
    exact h.complete hs h.valueCount (fun _ => rfl) _
  | encode => exact h.encodeEnd hop hs he
  | decode => exact h.decodeEnd hop hs he

/-! ### The engine's turn -/

/-- The engine's turn keeps the invariant (30_encoding.md R81). -/
theorem Inv.engineTurn {s t : State} (h : Inv s) (ht : s.engineTurn = .next t) : Inv t := by
  unfold State.engineTurn at ht
  split at ht
  · cases ht
  · cases ht
    exact h
  · next i hs hr =>
    have hop := Work.op_of_running hr
    rw [exec_running (h.busy_of_running hr) hop] at ht
    have hm := EngineProg.run_wf _ ht h.memory
    obtain ⟨e, he, hte⟩ := EngineProg.run_ends _ ht
    have hmem : Inv { s with mem := t.mem } := h.congr hm rfl rfl rfl rfl rfl rfl
    rw [hte]
    exact hmem.endStep hop hs he

/-- Only a running engine can fail to take its turn (R51). -/
theorem Inv.busy_of_engineTurn_fault {s : State} (h : Inv s) {r : Fault} (ht : s.engineTurn = .fault r) :
    s.busy = true := by
  unfold State.engineTurn at ht
  split at ht
  · next hs => exact h.stuckBusy (by simp [hs])
  · cases ht
  · next hr => exact h.busy_of_running hr

/-- The engine's slot keeps the invariant. -/
theorem Inv.engineSlot {s t : State} (h : Inv s) (ht : s.engineSlot = .next t) : Inv t := by
  unfold State.engineSlot at ht
  split at ht
  · next a hf =>
    cases ht
    exact h.stuck (h.busy_of_engineTurn_fault hf) a
  · exact h.engineTurn ht

/-! ### The host's accesses -/

/-- All a write of a register of an idle block can do: give an argument register a value, start a command, complete as
BAD_COMMAND, or nothing (R57, R76, R80). -/
theorem State.writeReg_idle {s t : State} {r : Reg} {v : Word} (hb : s.busy = false) (ht : s.writeReg r v = .next t) :
    (∃ a b c d, t = { s with srcAddr := a, srcLen := b, dstAddr := c, dstLimit := d }) ∨
      (∃ i, t = s.accept i) ∨ t = s.badCommand := by
  simp only [State.writeReg, if_neg (show ¬ s.busy = true by simp [hb])] at ht
  cases r with
  | cmd =>
    simp only [State.cmdWrite] at ht
    split at ht
    · next i _ =>
      rw [exec_eq_command, State.command_idle _ _ hb] at ht
      cases ht
      exact .inr (.inl ⟨i, rfl⟩)
    · cases ht
      exact .inr (.inr rfl)
  | _ =>
    cases ht
    exact .inl ⟨_, _, _, _, rfl⟩

/-- A register write keeps the invariant. -/
theorem Inv.writeReg {s t : State} (h : Inv s) (hb : s.busy = false) {r : Reg} {v : Word}
    (ht : s.writeReg r v = .next t) : Inv t := by
  rcases State.writeReg_idle hb ht with ⟨a, b, c, d, rfl⟩ | ⟨i, rfl⟩ | rfl
  · exact h.congr h.memory rfl rfl rfl rfl rfl rfl
  · exact h.accept i
  · exact h.badCommand hb

/-- Every access of the host keeps the invariant. -/
theorem Inv.host {s t : State} (h : Inv s) {a : HostAccess} (ht : s.host a = .next t) : Inv t := by
  have hm := (State.host_frame ht).2.2.2 h.memory
  cases hb : s.busy with
  | true =>
    rw [(State.host_busy hb ht).1]
    exact h.congr hm rfl rfl rfl rfl rfl rfl
  | false =>
    cases a with
    | write a n v =>
      simp only [State.host, State.busWrite] at ht
      split at ht
      · cases ht
        exact h
      · cases ht
      · exact h.writeReg hb ht
    | read a n =>
      simp only [State.host, State.busRead] at ht
      split at ht <;> cases ht
      · exact h
      · exact h.congr hm rfl rfl rfl rfl rfl rfl
    | store a v =>
      simp only [State.host, State.hostStore] at ht
      split at ht <;> cases ht
      exact h.congr hm rfl rfl rfl rfl rfl rfl
    | load a =>
      simp only [State.host, State.hostLoad] at ht
      split at ht <;> cases ht
      exact h.congr hm rfl rfl rfl rfl rfl rfl

/-- A list of accesses keeps the invariant. -/
theorem Inv.hosts {s t : State} (h : Inv s) {hs : List HostAccess} (ht : s.hosts hs = .next t) : Inv t :=
  State.hosts_keeps (fun _ _ _ _ hu hv => hu.host hv) h ht

/-! ### The slots of the bus -/

/-- The end of a slot without an engine step keeps the invariant. -/
theorem Inv.endSlot_id {s t : State} (h : Inv s) {between : List (List HostAccess)} {r : Option Nat}
    (ht : s.endSlot between r id = .next t) : Inv t := by
  obtain ⟨u, hu, ⟨-, rfl⟩ | ⟨-, rfl⟩⟩ := State.endSlot_next ht
  · exact h.hosts hu
  · exact Inv.resetEvent (h.hosts hu).memory

/-- An engine step with the host's accesses and reset inside it keeps the invariant (20_memory.md R55, R61, R241). -/
theorem Inv.splitSlot {s t : State} (h : Inv s) {between : List (List HostAccess)} {r : Option Nat}
    (ht : s.splitSlot between r = .next t) : Inv t := by
  unfold State.splitSlot at ht
  split at ht
  · next i hs hr =>
    have hb := h.busy_of_running hr
    obtain ⟨m, l, hm, hend⟩ := EngineProg.runSplit_ends _ hb ht
    have hml : Inv { s with mem := m, seen := l } := h.congr (hm h.memory) rfl rfl rfl rfl rfl rfl
    rcases hend with ⟨-, e, he, rfl⟩ | ⟨-, a, -, rfl⟩ | ⟨-, rfl⟩
    · exact hml.endStep (Work.op_of_running hr) hs he
    · exact hml.stuck hb a
    · exact Inv.resetEvent hml.memory
  · exact h.endSlot_id ht
  · exact h.endSlot_id ht

/-- A round of the polling loop keeps the invariant (R85). -/
theorem Inv.waitRound {s t : State} (h : Inv s) {rest : List Event} (ht : s.waitRound rest = .next t) : Inv t := by
  unfold State.waitRound at ht
  split at ht
  · exact h.engineSlot ht
  · cases ht
    exact h.congr h.memory rfl rfl rfl rfl rfl rfl

/-- Every event keeps the invariant. -/
theorem Inv.takeEvent {s t : State} (h : Inv s) {e : Event} {rest : List Event} (ht : s.takeEvent e rest = .next t) :
    Inv t := by
  have hrest : Inv { s with bus := rest } := h.congr h.memory rfl rfl rfl rfl rfl rfl
  cases e with
  | host a => exact hrest.host ht
  | wait => exact h.waitRound ht
  | engine => exact hrest.engineSlot ht
  | split between r => exact hrest.splitSlot ht
  | reset =>
    cases ht
    exact Inv.resetEvent hrest.memory

/-- Settles O54: each event, and the engine alone when none is left, keeps the invariant. -/
theorem everyStepKeepsInvariant : Obligations.EveryStepKeepsInvariant := by
  intro s t h ht
  cases hbus : s.bus with
  | nil => exact h.engineTurn (step_nil hbus ▸ ht)
  | cons e rest => exact h.takeEvent (step_cons hbus ▸ ht)

end Sys2Proof.Machine

/-! ### The register window (10_state.md R20, R22, R29, R38) -/

namespace Sys2Proof.Machine

/-- Settles O42: right after reset the state is that of a reset event. -/
theorem resetValues : Obligations.ResetValues :=
  ⟨rfl, rfl, rfl, rfl, State.resetEvent_readReg State.reset⟩

/-- STATUS while BUSY = 1 and CODE is OK. -/
theorem State.statusWord_busy {s : State} (hb : s.busy = true) (hc : s.code = .ok) : s.statusWord = 1 := by
  rw [State.statusWord, hb, hc]
  rfl

/-- A write of any register while BUSY = 1 is dropped (R29). -/
theorem State.writeReg_busy {s : State} (hb : s.busy = true) (r : Reg) (v : Word) : s.writeReg r v = .next s := by
  simp [State.writeReg, hb]

/-- STATUS is read-only (R22). -/
theorem State.writeReg_status (s : State) (v : Word) : s.writeReg .status v = .next s := by
  simp [State.writeReg]

/-- Settles O11: BUSY = 1 drops the write, and the invariant fixes STATUS, RESULT and ERR_POS while BUSY = 1. -/
theorem busyDropsWritesAndReadsClear : Obligations.BusyDropsWritesAndReadsClear := by
  intro s r rest h hb
  obtain ⟨hcode, hresult, herrPos⟩ := h.busyClear hb
  refine ⟨fun v hbus => ?_, fun hbus => ?_⟩
  · rw [step_wr hbus]
    exact State.writeReg_busy (s := { s with bus := rest }) hb r v
  · rw [step_rd hbus]
    cases r with
    | status => rw [← State.statusWord_busy hb hcode]; rfl
    | result => rw [← hresult]; rfl
    | errPos => rw [← herrPos]; rfl
    | _ => rfl

/-- The fields of STATUS (R22). -/
theorem State.statusWord_fields (s : State) :
    s.statusWord.getLsbD 0 = s.busy ∧ s.statusWord.extractLsb' 1 7 = 0 ∧
      s.statusWord.extractLsb' 8 4 = codeNumber s.code ∧ s.statusWord.extractLsb' 12 20 = 0 := by
  unfold State.statusWord
  cases s.busy <;> cases s.code <;> decide

/-- The codes are numbered 0 to 4 (60_exceptions.md R210). -/
theorem codeNumber_le (c : Code) : (codeNumber c).toNat ≤ 4 := by cases c <;> decide

/-- Settles O13: a read notes STATUS and its fields are those of `State.statusWord`; a write is ignored. -/
theorem statusReadsItsFields : Obligations.StatusReadsItsFields := by
  intro s rest
  refine ⟨fun hbus => ?_, fun v hbus => ?_, codeNumber_le s.code, rfl, rfl, rfl, rfl, rfl⟩
  · exact ⟨s.statusWord, step_rd hbus, s.statusWord_fields⟩
  · rw [step_wr hbus]
    exact State.writeReg_status _ v

/-- BASE is a multiple of 32 (R20). -/
theorem Platform.base_aligned (p : Platform) : p.base.toNat % 32 = 0 := by
  rw [Platform.base, BitVec.toNat_append]
  simp [Nat.shiftLeft_eq]

/-- An access none of whose bytes lies in the window is not one to this block (R20). -/
theorem Platform.target_outside {p : Platform} {a : Addr} {bytes : Nat} (hlo : 0x20 ≤ (a - p.base).toNat)
    (hhi : (a - p.base).toNat + bytes ≤ 2 ^ 32) : p.target a bytes = .outside := by
  unfold Platform.target
  rw [if_neg (by omega), if_neg (by omega)]

/-- Settles O14: each word of the window is some register's address; an access outside reaches nothing. -/
theorem windowMapOfRegisters : Obligations.WindowMapOfRegisters := by
  intro s rest
  refine ⟨s.platform.base_aligned, fun k hk => ?_, fun a bytes hlo hhi => ?_⟩
  · interval_cases k
    · exact s.platform.target_regAddr .cmd
    · exact s.platform.target_regAddr .status
    · exact s.platform.target_regAddr .srcAddr
    · exact s.platform.target_regAddr .srcLen
    · exact s.platform.target_regAddr .dstAddr
    · exact s.platform.target_regAddr .dstLimit
    · exact s.platform.target_regAddr .result
    · exact s.platform.target_regAddr .errPos
  · have hout : s.platform.target a bytes = .outside := Platform.target_outside hlo hhi
    refine ⟨fun v hbus => ?_, fun hbus => ?_⟩
    · rw [step_cons hbus]
      simp only [State.takeEvent, State.host, State.busWrite, hout]
    · rw [step_cons hbus]
      simp only [State.takeEvent, State.host, State.busRead, hout]

/-! ### A word put where the next event is taken (log 14) -/

/-- The table's decoder is the decoder on the low `nbits` bits (30_encoding.md R77). -/
theorem decode_of_decodeTableWord {nbits w : Nat} {i : Instr} (h : decodeTableWord nbits w = some i) :
    decode (BitVec.ofNat 32 (w % 2 ^ nbits)) = .ok i := by
  simp only [decodeTableWord] at h
  split at h
  · split at h
    · next hd =>
      cases h
      exact hd
    · cases h
  · cases h

/-- A legal word written to CMD of an idle block runs its instruction (R80). -/
theorem State.writeReg_cmd {s : State} {v : Word} {i : Instr} (hb : s.busy = false) (h : decode v = .ok i) :
    s.writeReg .cmd v = exec i s := by
  simp [State.writeReg, hb, State.cmdWrite, h]

/-- Settles O7: the placed write is the next event, and the block is idle. -/
theorem fetchedWordRuns : Obligations.FetchedWordRuns := by
  intro s nbits w i h
  rw [State.withFetchWord, step_wr (State.withCmdWord_bus s _), State.writeReg_cmd rfl (decode_of_decodeTableWord h)]
  rfl

/-! ### What the engine leaves alone (10_state.md R30) -/

/-- Two working states with the same latches: those of acceptance (30_encoding.md R80). -/
structure SameLatches (w v : Work) : Prop where
  src  : v.src = w.src
  len  : v.len = w.len
  dst  : v.dst = w.dst
  lim  : v.lim = w.lim
  char : v.char = w.char

theorem SameLatches.refl (w : Work) : SameLatches w w := ⟨rfl, rfl, rfl, rfl, rfl⟩

theorem SameLatches.trans {u v w : Work} (h : SameLatches u v) (h' : SameLatches v w) : SameLatches u w :=
  ⟨h'.src.trans h.src, h'.len.trans h.len, h'.dst.trans h.dst, h'.lim.trans h.lim, h'.char.trans h.char⟩

/-- DECODE's step keeps the latches. -/
theorem decodeProg_latches {w : Work} {e : StepEnd} (h : (decodeProg w).Ends e) : SameLatches w e.w := by
  unfold decodeProg at h
  split at h
  · cases h
    exact .refl w
  · obtain ⟨v, hv, -, rfl | ⟨p, rfl⟩ | ⟨n, u, rfl, rfl | rfl⟩⟩ := decodeSymbols_ends h
    all_goals rw [hv]; exact ⟨rfl, rfl, rfl, rfl, rfl⟩

/-- Every engine step keeps the latches. -/
theorem engineProg_latches {i : Instr} {w : Work} {e : StepEnd} (h : (engineProg i w).Ends e) : SameLatches w e.w := by
  cases i with
  | classify ch =>
    cases h
    exact .refl w
  | enclen =>
    simp only [engineProg, enclenProg] at h
    split at h <;> cases h <;> exact .refl w
  | maxdec =>
    cases h
    exact .refl w
  | encode =>
    rcases encodeProg_ends h with ⟨-, ⟨-, rfl⟩ | ⟨-, -, rfl⟩ | ⟨-, rfl⟩⟩ | ⟨-, -, acc, rfl⟩ | ⟨-, -, rfl⟩
    all_goals exact ⟨rfl, rfl, rfl, rfl, rfl⟩
  | decode => exact decodeProg_latches h

/-- The latches at an end are those of its working state. -/
theorem State.endStep_latches (s : State) (e : StepEnd) : SameLatches e.w (s.endStep e).w := by
  obtain ⟨w, _ | done⟩ := e <;> exact ⟨rfl, rfl, rfl, rfl, rfl⟩

/-- A step of a command taken whole keeps the latches. -/
theorem engineProg_run_latches {i : Instr} {s t : State} (h : (engineProg i s.w).run s = .next t) : SameLatches s.w t.w := by
  obtain ⟨e, he, ht⟩ := EngineProg.run_ends _ h
  rw [ht]
  exact (engineProg_latches he).trans (State.endStep_latches _ e)

/-- The machine with other values in its argument registers. -/
def State.withArgs (s : State) (a b c d : Word) : State :=
  { s with srcAddr := a, srcLen := b, dstAddr := c, dstLimit := d }

/-- An engine step does not read the argument registers. -/
theorem EngineProg.run_withArgs (p : EngineProg) {s t : State} (h : p.run s = .next t) (a b c d : Word) :
    p.run (s.withArgs a b c d) = .next (t.withArgs a b c d) := by
  induction p generalizing s with
  | read x next ih =>
    simp only [EngineProg.run] at h
    split at h
    · next hx =>
      rw [EngineProg.run_read (by exact hx)]
      exact ih _ h
    · cases h
  | write x v next ih =>
    simp only [EngineProg.run] at h
    split at h
    · next hx =>
      rw [EngineProg.run_write (by exact hx)]
      exact ih h
    · cases h
  | goOn w =>
    cases h
    rfl
  | complete w c r e =>
    cases h
    rfl

/-- Settles O35: an acceptance, an engine step by `StepFrame`, the latches at its ends and `run_withArgs`, or nothing. -/
theorem engineKeepsArguments : Obligations.EngineKeepsArguments := by
  intro i s t h
  rw [exec_eq_command] at h
  rcases State.command_cases i (engineProg i s.w) s with ⟨hb, hc⟩ | ⟨hb, hop, hc⟩ | ⟨hb, hop, hc⟩ <;> rw [hc] at h
  · cases h
    exact ⟨⟨rfl, rfl, rfl, rfl, rfl, rfl, rfl, rfl⟩, fun _ => ⟨rfl, rfl, rfl, rfl, rfl⟩,
      fun hb' => nomatch hb.symm.trans hb'⟩
  · obtain ⟨hsrc, hlen, hdst, hlim, hstuck, hplat, hbus, hseen, hflags⟩ := EngineProg.run_frame _ h
    obtain ⟨lsrc, llen, ldst, llim, lchar⟩ := engineProg_run_latches h
    rw [hb] at hflags
    exact ⟨⟨hsrc, hlen, hdst, hlim, hplat, hbus, hseen, hstuck⟩, fun hb' => (nomatch hb'.symm.trans hb),
      fun _ => ⟨⟨lsrc, llen, ldst, llim, lchar⟩, hflags,
        fun a b c d => (exec_running (s := s.withArgs a b c d) hb hop).trans (EngineProg.run_withArgs _ h a b c d)⟩⟩
  · cases h
    exact ⟨⟨rfl, rfl, rfl, rfl, rfl, rfl, rfl, rfl⟩, fun hb' => (nomatch hb'.symm.trans hb),
      fun _ => ⟨⟨rfl, rfl, rfl, rfl, rfl⟩, .inl ⟨hb, rfl, rfl, rfl⟩,
        fun a b c d => (exec_eq_command i _).trans (State.command_other (s := s.withArgs a b c d) i _ hb hop)⟩⟩

end Sys2Proof.Machine

/-! ### What a register access does (10_state.md R21, R57, 30_encoding.md R74) -/

namespace Sys2Proof

/-- The OP field is legal for the five commands only (R71). -/
theorem CmdFields.opLegal_iff (f : CmdFields) :
    f.opLegal = true ↔ f.op = 1 ∨ f.op = 2 ∨ f.op = 3 ∨ f.op = 4 ∨ f.op = 5 := by
  unfold CmdFields.opLegal
  generalize f.op = op
  revert op
  decide

/-- The fields of a legal word, written out (R74). -/
theorem CmdFields.wf_iff (f : CmdFields) :
    f.wf = true ↔ (f.op = 1 ∨ f.op = 2 ∨ f.op = 3 ∨ f.op = 4 ∨ f.op = 5) ∧ (f.rsv0 = 0 ∧ f.rsv1 = 0) ∧
      (f.op = 1 ∨ f.char = 0) := by
  simp [CmdFields.wf, CmdFields.opLegal_iff, CmdFields.reservedZero, CmdFields.charLegal, and_assoc]

/-- A command without CHAR is decoded exactly when CHAR is zero (R75). -/
theorem withoutChar_ok_iff (f : CmdFields) (i : Instr) : (∃ j, withoutChar f i = .ok j) ↔ f.char = 0 := by
  unfold withoutChar
  split <;> simp_all

/-- Fields are decoded to an instruction exactly when they are legal (R74, R75). -/
theorem decodeFields_ok_iff (f : CmdFields) : (∃ i, decodeFields f = .ok i) ↔ f.wf = true := by
  rw [CmdFields.wf_iff]
  unfold decodeFields
  split_ifs with hrsv h1 h2 h3 h4 h5
  · simp only [exists_false, false_iff]
    tauto
  all_goals simp_all [withoutChar_ok_iff]

/-- A word is decoded exactly when it is legal (R74). -/
theorem decode_ok_iff_legal (v : Word) : (∃ i, decode v = .ok i) ↔ legal v = true :=
  decodeFields_ok_iff (cmdFields v)

/-- An illegal word is decoded to the reason why it is (R75). -/
theorem decode_error_of_illegal {v : Word} (h : legal v = false) : ∃ e, decode v = .error e := by
  cases hd : decode v with
  | ok i => exact nomatch h.symm.trans ((decode_ok_iff_legal v).mp ⟨i, hd⟩)
  | error e => exact ⟨e, rfl⟩

end Sys2Proof

namespace Sys2Proof.Machine

/-- An illegal word written to CMD of an idle block completes as BAD_COMMAND (R76). -/
theorem State.writeReg_cmd_illegal {s : State} {v : Word} (hb : s.busy = false) (h : legal v = false) :
    s.writeReg .cmd v = .next s.badCommand := by
  obtain ⟨e, he⟩ := decode_error_of_illegal h
  simp [State.writeReg, hb, State.cmdWrite, he]

/-- An instruction given to an idle block is accepted (R80). -/
theorem exec_idle (i : Instr) {s : State} (hb : s.busy = false) : exec i s = .next (s.accept i) := by
  rw [exec_eq_command, State.command_idle i _ hb]

/-- Writes of the read-only registers are ignored (R57). -/
theorem State.writeReg_readOnly (s : State) {r : Reg} (h : r ∈ [Reg.status, .result, .errPos]) (v : Word) :
    s.writeReg r v = .next s := by
  simp only [List.mem_cons, List.not_mem_nil, or_false] at h
  rcases h with rfl | rfl | rfl <;> simp [State.writeReg]

/-- Settles O12: each access is the next event, and `State.writeReg` and `State.noteReg` say what it does; a word written to
CMD is accepted exactly when it is legal. -/
theorem registerAccessEffects : Obligations.RegisterAccessEffects := by
  intro s v rest
  refine ⟨fun hb hbus => ⟨fun hl => ?legal, fun hl => ?illegal⟩, fun hb hbus => ?srcAddr, fun hb hbus => ?srcLen,
    fun hb hbus => ?dstAddr, fun hb hbus => ?dstLimit, fun r _ hb hbus => ?busy, fun r hr hbus => ?readOnly,
    fun r hbus => ?read⟩
  case legal =>
    obtain ⟨i, hi⟩ := (decode_ok_iff_legal v).mpr hl
    refine ⟨State.accept i { s with bus := rest }, ?_, rfl⟩
    rw [step_wr hbus, State.writeReg_cmd (by exact hb) hi, exec_idle i (by exact hb)]
  case illegal =>
    refine ⟨State.badCommand { s with bus := rest }, ?_, hb, rfl⟩
    rw [step_wr hbus, State.writeReg_cmd_illegal (by exact hb) hl]
  case busy =>
    rw [step_wr hbus]
    exact State.writeReg_busy (s := { s with bus := rest }) hb r v
  case readOnly =>
    rw [step_wr hbus]
    exact State.writeReg_readOnly _ hr v
  case read =>
    rw [step_rd hbus]
    cases r <;> rfl
  all_goals
    rw [step_wr hbus]
    simp [State.writeReg, hb]

/-! ### Accesses that have no step (20_memory.md R53, log 11) -/

/-- Every register's offset is a multiple of 4 (R20). -/
theorem regAtOffset_of_odd {offset : Nat} (h : offset % 4 ≠ 0) : regAtOffset offset = none := by
  unfold regAtOffset
  split
  case h_9 => rfl
  all_goals omega

/-- An access to the window that is not an aligned word, or that reaches in from outside, reaches no register (R53). -/
theorem Platform.target_illFormed {p : Platform} {a : Addr} {bytes : Nat}
    (h : ((a - p.base).toNat < 0x20 ∧ (bytes ≠ 4 ∨ (a - p.base).toNat % 4 ≠ 0)) ∨
      (0x20 ≤ (a - p.base).toNat ∧ 2 ^ 32 < (a - p.base).toNat + bytes)) :
    p.target a bytes = .illFormed (a - p.base).toNat := by
  unfold Platform.target
  rcases h with ⟨hin, hodd⟩ | ⟨hout, hreach⟩
  · rw [if_pos hin]
    split
    · next r hr =>
      have hsome := regAtOffset_of_odd (hodd.resolve_left (by simp))
      exact nomatch hr.symm.trans hsome
    · rfl
  · rw [if_neg (by omega), if_pos hreach]

/-- Settles O15: the access reaches no register, and neither a write nor a read of it has a step. -/
theorem oddWindowAccessRefused : Obligations.OddWindowAccessRefused := by
  intro s a bytes rest offset h
  have htarget := Platform.target_illFormed h
  refine ⟨fun v hbus => ?_, fun hbus => ?_⟩
  · rw [step_cons hbus]
    simp only [State.takeEvent, State.host, State.busWrite, htarget, offset]
  · rw [step_cons hbus]
    simp only [State.takeEvent, State.host, State.busRead, htarget, offset]

/-! ### The host's accesses to data memory (20_memory.md R61) -/

/-- The host's store to an address that exists, as the next event. -/
theorem step_store {s : State} {a : Addr} {v : Byte} {rest : List Event} (hbus : s.bus = .host (.store a v) :: rest)
    (h : s.platform.admits a = true) : step s = .next { s with bus := rest, mem := s.mem.write a v } := by
  rw [step_cons hbus]
  simp only [State.takeEvent, State.host, State.hostStore, h, if_true]

/-- The host's load from an address that exists, as the next event. -/
theorem step_load {s : State} {a : Addr} {rest : List Event} (hbus : s.bus = .host (lb a) :: rest)
    (h : s.platform.admits a = true) :
    step s = .next { s with bus := rest, seen := s.seen ++ [.mem a (s.mem.read a)] } := by
  rw [step_cons hbus]
  simp only [State.takeEvent, State.host, lb, State.hostLoad, h, if_true]

/-- Settles O16: the load reads the memory that the store leaves. -/
theorem hostLoadReturnsLastStore : Obligations.HostLoadReturnsLastStore := by
  intro s a c v rest ha hc hbus
  refine ⟨_, (runSteps_cons (step_store hbus ha)).trans (runSteps_cons (step_load rfl (by exact hc))), rfl, ?_⟩
  rw [← Memory.read_write]

/-! ### What a step may store (20_memory.md R66) -/

/-- All a command that answers a next state can have done to memory: nothing, but for its engine step, which stores where
its writes go. -/
theorem exec_read_other {P : Addr → Prop} {i : Instr} {s t : State} (h : exec i s = .next t)
    (hp : Runs i s → (engineProg i s.w).Stores P) {a : Addr} (ha : ¬ P a) : t.mem.read a = s.mem.read a := by
  rw [exec_eq_command] at h
  rcases State.command_cases i (engineProg i s.w) s with ⟨-, hc⟩ | ⟨hb, hop, hc⟩ | ⟨-, -, hc⟩ <;> rw [hc] at h
  · cases h
    rfl
  · exact EngineProg.run_other (hp ⟨hb, hop⟩) h ha
  · cases h
    rfl

/-- DECODE's step writes at most five bytes, none at or above the limit (R174). -/
theorem decodeProg_stores (w : Work) :
    (decodeProg w).Stores fun x => ∃ j < min 5 (w.lim.toNat - w.outPos.toNat), x = w.dstAt j := by
  unfold decodeProg
  split
  · exact .complete ..
  · exact decodeSymbols_stores rfl rfl rfl (Nat.le_refl 8)

/-- Settles O37: `encodeProg_stores` on a running ENCODE; acceptance and a dropped word store nothing. -/
theorem encodeStoresOnlyItsSymbols : Obligations.EncodeStoresOnlyItsSymbols := by
  intro s t h stored a ha
  refine exec_read_other h (P := fun x => ∃ j < stored, x = s.w.dstAt j) (fun hruns => ?_)
    fun ⟨j, hj, hx⟩ => ha j hj hx
  simpa only [stored, engineProg, and_iff_right hruns] using encodeProg_stores s.w

/-- Settles O38: `decodeProg_stores` on a running DECODE; acceptance and a dropped word store nothing. -/
theorem decodeStoresOnlyBelowLimit : Obligations.DecodeStoresOnlyBelowLimit := by
  intro s t h stored a ha
  refine exec_read_other h (P := fun x => ∃ j < stored, x = s.w.dstAt j) (fun hruns => ?_)
    fun ⟨j, hj, hx⟩ => ha j hj hx
  simpa only [stored, engineProg, if_pos hruns] using decodeProg_stores s.w

/-- The engine step of CLASSIFY, ENCLEN and MAXDEC is a completion at once (20_memory.md R66). -/
theorem engineProg_sizeOrClassify {i : Instr} (h : i = .enclen ∨ i = .maxdec ∨ ∃ ch, i = .classify ch) (w : Work) :
    ∃ c r, engineProg i w = .complete w c r 0 := by
  rcases h with rfl | rfl | ⟨ch, rfl⟩
  · simp only [engineProg, enclenProg]
    split
    · exact ⟨_, _, rfl⟩
    · exact ⟨_, _, rfl⟩
  · exact ⟨_, _, rfl⟩
  · exact ⟨_, _, rfl⟩

/-- Settles O36: acceptance starts the positions at 0; a completion at once and a dropped word keep them, and memory. -/
theorem sizeAndClassifyKeepMemory : Obligations.SizeAndClassifyKeepMemory := by
  intro i s t hi h
  rw [exec_eq_command] at h
  rcases State.command_cases i (engineProg i s.w) s with ⟨hb, hc⟩ | ⟨hb, -, hc⟩ | ⟨hb, -, hc⟩ <;> rw [hc] at h
  · cases h
    simp [hb]
  · obtain ⟨c, r, hprog⟩ := engineProg_sizeOrClassify hi s.w
    rw [hprog] at h
    cases h
    simp [hb]
  · cases h
    simp [hb]

/-! ### An engine that gets stuck (20_memory.md R51, 30_encoding.md R81, log 7) -/

/-- A step that sticks does so whatever events are still to come. -/
theorem EngineProg.run_fault_withBus (p : EngineProg) {s : State} {r : Fault} (h : p.run s = .fault r)
    (bus : List Event) : p.run { s with bus := bus } = .fault r := by
  induction p generalizing s with
  | read a next ih =>
    by_cases ha : s.platform.admits a = true
    · rw [EngineProg.run_read ha] at h
      rw [EngineProg.run_read (by exact ha)]
      exact ih _ h
    · rw [EngineProg.run_read_absent (by simpa using ha)] at h
      rw [EngineProg.run_read_absent (by simpa using ha), h]
  | write a v next ih =>
    by_cases ha : s.platform.admits a = true
    · rw [EngineProg.run_write ha] at h
      rw [EngineProg.run_write (by exact ha)]
      exact ih h
    · rw [EngineProg.run_write_absent (by simpa using ha)] at h
      rw [EngineProg.run_write_absent (by simpa using ha), h]
  | goOn w => cases h
  | complete w c x y => cases h

/-- The turn of a running engine that is not stuck is its command's step. -/
theorem State.engineTurn_run {i : Instr} {s : State} (hb : s.busy = true) (hr : s.w.running = some i)
    (hn : s.stuckAt = none) : s.engineTurn = (engineProg i s.w).run s := by
  rw [State.engineTurn_running hr hn, exec_running hb (Work.op_of_running hr)]

/-- A running command whose engine step sticks at an address is stuck there, alone and among other events. -/
theorem getsStuck_of_run {i : Instr} {s : State} {a : Addr} (hb : s.busy = true) (hr : s.w.running = some i)
    (hn : s.stuckAt = none) (h : (engineProg i s.w).run s = .fault (.stuck a)) : GetsStuck i s a := by
  refine ⟨(exec_running hb (Work.op_of_running hr)).trans h, fun hbus => ?_, fun rest hbus => ?_⟩
  · rw [step_nil hbus, State.engineTurn_run hb hr hn, h]
  · rw [step_cons hbus]
    have hturn := State.engineTurn_run (s := { s with bus := rest }) hb hr hn
    exact State.engineSlot_stuck (hturn.trans (EngineProg.run_fault_withBus _ h rest))

/-! ### ENCODE stuck (42_encoder.md R145, R146) -/

/-- ENCODE's step before the end of input (R145). -/
theorem encodeProg_group {w : Work} (hp : w.phase = .groups) (hl : w.inPos < w.len) :
    encodeProg w = encodeGroupProg w := by simp [encodeProg, hp, hl]

/-- ENCODE's step at the end of input (R146). -/
theorem encodeProg_end {w : Work} (hp : w.phase = .groups) (hl : w.inPos = w.len) : encodeProg w = encodeEndProg w := by
  simp [encodeProg, hp, hl]

/-- The address of the next byte to write (20_memory.md R56). -/
theorem Work.dstAt_zero (w : Work) : w.dstAt 0 = w.dst + w.outPos := by simp [Work.dstAt]

@[simp] theorem groupSymbols_length (acc : Group) (n : Nat) : (groupSymbols acc n).length = 8 := by
  simp [groupSymbols, Config.groupSyms]

/-- A group sticks at the first of its source bytes that does not exist. -/
theorem encodeGroupProg_stuck_read {w : Work} {s : State} {j : Nat} (hj : j < quintetSize w)
    (hpre : ∀ i < j, s.platform.admits (w.srcAt i) = true) (ha : s.platform.admits (w.srcAt j) = false) :
    (encodeGroupProg w).run s = .fault (.stuck (w.srcAt j)) := by
  unfold encodeGroupProg
  rw [readGroup_stuck _ _ _ _ _ _ hj (by simpa using hpre) (by simpa using ha), Nat.zero_add]

/-- A group whose source bytes exist sticks at the first of its symbols' addresses that does not exist. -/
theorem encodeGroupProg_stuck_write {w : Work} {s : State} {j : Nat}
    (hsrc : ∀ i < quintetSize w, s.platform.admits (w.srcAt i) = true) (hj : j < 8)
    (hpre : ∀ i < j, s.platform.admits (w.dstAt i) = true) (ha : s.platform.admits (w.dstAt j) = false) :
    (encodeGroupProg w).run s = .fault (.stuck (w.dstAt j)) := by
  unfold encodeGroupProg
  rw [readGroup_run _ _ _ _ _ _ (by simpa using hsrc),
    writeBytes_stuck _ _ _ _ _ (by simpa using hj) (by simpa using hpre) (by simpa using ha), Nat.zero_add]

/-- Settles O39: each case names the first absent address of the step, and a step that sticks leaves the engine stuck. -/
theorem absentAddressLeavesEncodeStuck : Obligations.AbsentAddressLeavesEncodeStuck := by
  intro s ⟨hb, hop⟩ hp hn n src dst
  have hr : s.w.running = some .encode := by simp [Work.running, hop, opOf]
  refine ⟨fun hl j hj hpre ha => ?_, fun hl hsrc j hj hpre ha => ?_, fun hl ha => ?_⟩ <;>
    refine getsStuck_of_run hb hr hn ?_
  · rw [engineProg, encodeProg_group hp hl]
    exact encodeGroupProg_stuck_read hj hpre ha
  · rw [engineProg, encodeProg_group hp hl]
    exact encodeGroupProg_stuck_write hsrc hj hpre ha
  · rw [engineProg, encodeProg_end hp hl, encodeEndProg, Work.dstAt_zero, EngineProg.run_write_absent ha]

/-! ### DECODE stuck (43_decoder.md R172) -/

/-- The working state a DECODE step reads its group with: the group's scratch cleared (R172). -/
def Work.freshGroup (w : Work) : Work := { w with acc := 0, pad := false, k := 0 }

/-- DECODE's step below its limit. -/
theorem decodeProg_below {w : Work} (h : w.outPos ≠ w.lim) : decodeProg w = decodeSymbols 8 0 w.freshGroup := by
  rw [decodeProg, if_neg h]
  rfl

/-- Absorbing symbols moves no address of the engine's reads. -/
@[simp] theorem absorb_srcAt (i : Nat) (w : Work) (g : List Byte) (j : Nat) : (absorb i w g).srcAt j = w.srcAt j := by
  rw [absorb_frame]
  rfl

/-- Absorbing symbols moves no address of the engine's writes. -/
@[simp] theorem absorb_dstAt (i : Nat) (w : Work) (g : List Byte) (j : Nat) : (absorb i w g).dstAt j = w.dstAt j := by
  rw [absorb_frame]
  rfl

/-- A DECODE step below its limit reads symbols none of which fails or is the terminator, and goes on after them. -/
theorem decodeProg_run_good {s : State} {g : List Byte} (hlim : s.w.outPos ≠ s.w.lim) (hl : g.length ≤ 8)
    (ha : Admitted s.platform (s.w.src + s.w.inPos) g.length) (hg : Holds s.mem (s.w.src + s.w.inPos) g)
    (h0 : (0x00 : Byte) ∉ g) (hf : firstBad false g = none) :
    (decodeProg s.w).run s = (decodeSymbols (8 - g.length) g.length (absorb 0 s.w.freshGroup g)).run s := by
  have hgood := decodeSymbols_good g (8 - g.length) 0 s.w.freshGroup s
    (fun j hj => by rw [Nat.zero_add]; exact ha j hj) (fun j hj => by simp only [Nat.zero_add]; exact hg j hj) h0 hf
  rwa [Nat.sub_add_cancel hl, Nat.zero_add, ← decodeProg_below hlim] at hgood

/-- A DECODE step below its limit reads a whole group, or a shorter one with the terminator after it, and ends it. -/
theorem decodeProg_run_group {s : State} {g : List Byte} (hlim : s.w.outPos ≠ s.w.lim)
    (hg : Holds s.mem (s.w.src + s.w.inPos) g) (h0 : (0x00 : Byte) ∉ g) (hf : firstBad false g = none)
    (hend : g.length = 8 ∨
      (g.length < 8 ∧ s.mem.read (s.w.src + s.w.inPos + BitVec.ofNat 32 g.length) = 0x00))
    (ha : Admitted s.platform (s.w.src + s.w.inPos) (min 8 (g.length + 1))) :
    (decodeProg s.w).run s =
      (decodeGroupEnd (absorb 0 s.w.freshGroup g) g.length (decide (g.length < 8))).run s := by
  have hl : g.length ≤ 8 := by omega
  rw [decodeProg_run_good hlim hl (fun j hj => ha j (by omega)) hg h0 hf]
  rcases hend with h8 | ⟨hlt, hread⟩
  · rw [h8]
    rfl
  · have hsrc : (absorb 0 s.w.freshGroup g).srcAt g.length = s.w.src + s.w.inPos + BitVec.ofNat 32 g.length :=
      absorb_srcAt ..
    rw [show 8 - g.length = 7 - g.length + 1 by omega, decodeSymbols_end, decide_eq_true hlt]
    · rw [hsrc]
      exact ha _ (by omega)
    · rw [hsrc, hread]

/-- The bytes that a group's end keeps under the limit are those of `decode_fn` (R173, R174, R180). -/
theorem absorb_freshGroup_bytes (g : List Byte) (w : Work) (hl : g.length ≤ 8) (hf : firstBad false g = none) :
    (List.range (groupBytesKept (absorb 0 w.freshGroup g))).map (groupByte (absorb 0 w.freshGroup g).acc) =
      (decodeGroup g).take (w.lim.toNat - w.outPos.toNat) := by
  have hk : (absorb 0 w.freshGroup g).k = g.countP isValue := by rw [absorb_k]; simp [Work.freshGroup]
  have hacc : (absorb 0 w.freshGroup g).acc = groupOfValues (g.map valueOf) := by
    rw [absorb_acc g 0 _ (by omega) (fun b _ => by simp [Work.freshGroup]) (not_invalid_of_firstBad hf),
      ← foldl_setGroupSym _ (by simpa using hl), List.zipIdx_map, List.foldl_map]
    rfl
  have hroom : groupBytesKept (absorb 0 w.freshGroup g) =
      min (bytesOfValues (g.countP isValue)) (w.lim.toNat - w.outPos.toNat) := by
    rw [groupBytesKept, hk, absorb_frame]
    rfl
  rw [hacc, hroom, decodeGroup_eq g _ hl]

/-- A group of no symbols has no bytes. -/
@[simp] theorem decodeGroup_nil : decodeGroup [] = [] := rfl

/-- The end of a group sticks at the first of its bytes' addresses under the limit that does not exist. -/
theorem decodeGroupEnd_stuck {w : Work} {s : State} {count j : Nat} {ended : Bool} (hc : count ≠ 0)
    (hj : j < groupBytesKept w) (hpre : ∀ i < j, s.platform.admits (w.dstAt i) = true)
    (ha : s.platform.admits (w.dstAt j) = false) :
    (decodeGroupEnd w count ended).run s = .fault (.stuck (w.dstAt j)) := by
  rw [decodeGroupEnd, if_neg hc,
    writeBytes_stuck _ _ _ _ _ (by simpa using hj) (by simpa using hpre) (by simpa using ha), Nat.zero_add]

/-- Settles O40: after symbols none of which fails, the next read sticks, or the group's end does. -/
theorem absentAddressLeavesDecodeStuck : Obligations.AbsentAddressLeavesDecodeStuck := by
  intro s g ⟨hb, hop⟩ hn hlim src dst out hg h0 hf
  have hr : s.w.running = some .decode := by simp [Work.running, hop, opOf]
  refine ⟨fun hl hpre ha => ?_, fun hend hsrc j hj hpre ha => ?_⟩ <;> refine getsStuck_of_run hb hr hn ?_
  · have hread : (absorb 0 s.w.freshGroup g).srcAt g.length = src + BitVec.ofNat 32 g.length := absorb_srcAt ..
    rw [engineProg, decodeProg_run_good hlim (by omega) hpre hg h0 hf, show 8 - g.length = 7 - g.length + 1 by omega,
      decodeSymbols, hread, EngineProg.run_read_absent ha]
  · have hwrite : ∀ i, (absorb 0 s.w.freshGroup g).dstAt i = dst + BitVec.ofNat 32 i := fun i => absorb_dstAt ..
    have hkept : groupBytesKept (absorb 0 s.w.freshGroup g) = out.length := by
      simpa [out] using congrArg List.length (absorb_freshGroup_bytes g s.w (by omega) hf)
    have hne : g.length ≠ 0 := fun h => by
      rw [List.length_eq_zero_iff] at h
      simp [out, h] at hj
    rw [engineProg, decodeProg_run_group hlim hg h0 hf hend hsrc,
      decodeGroupEnd_stuck hne (by rwa [hkept]) (fun i hi => by rw [hwrite]; exact hpre i hi) (by rwa [hwrite]), hwrite]

/-! ### A stuck engine (20_memory.md R51) -/

/-- While BUSY = 1 an access of the host that is no store keeps memory. -/
theorem State.host_busy_mem {s t : State} {h : HostAccess} (hb : s.busy = true) (ht : s.host h = .next t)
    (hs : ∀ a v, h ≠ .store a v) : t.mem = s.mem := by
  cases h with
  | write a bytes v =>
    simp only [State.host, State.busWrite] at ht
    split at ht
    · cases ht
      rfl
    · cases ht
    · rw [State.writeReg_busy hb] at ht
      cases ht
      rfl
  | read a bytes =>
    simp only [State.host, State.busRead] at ht
    split at ht <;> cases ht <;> rfl
  | store a v => exact absurd rfl (hs a v)
  | load a =>
    simp only [State.host, State.hostLoad] at ht
    split at ht <;> cases ht
    rfl

/-- While BUSY = 1 accesses of the host none of which is a store keep memory. -/
theorem State.hosts_busy_mem {s t : State} {hs : List HostAccess} (hb : s.busy = true) (ht : s.hosts hs = .next t)
    (hn : ∀ a v, .store a v ∉ hs) : t.mem = s.mem := by
  refine (State.hosts_keeps (P := fun u => u.busy = true ∧ u.mem = s.mem) (fun h hmem u v ⟨hu, hum⟩ hv => ?_)
    ⟨hb, rfl⟩ ht).2
  refine ⟨?_, (State.host_busy_mem hu hv fun a x e => hn a x (e ▸ hmem)).trans hum⟩
  rw [(State.host_busy hu hv).1]
  exact hu

/-- The turn of a stuck engine (R51). -/
theorem State.engineTurn_stuck {s : State} {a : Addr} (h : s.stuckAt = some a) : s.engineTurn = .fault (.stuck a) := by
  simp [State.engineTurn, h]

/-- The slot of a stuck engine passes without a step (log 7). -/
theorem State.engineSlot_of_stuck {s : State} {a : Addr} (h : s.stuckAt = some a) : s.engineSlot = .next s := by
  rw [State.engineSlot_stuck (State.engineTurn_stuck h), ← h]

/-- The slot of a stuck engine with accesses and no reset inside: the accesses alone. -/
theorem State.splitSlot_of_stuck {s t : State} {a : Addr} (h : s.stuckAt = some a) {between : List (List HostAccess)}
    (ht : s.splitSlot between none = .next t) : s.hosts between.flatten = .next t := by
  simp only [State.splitSlot, h] at ht
  obtain ⟨u, hu, ⟨-, rfl⟩ | ⟨hne, -⟩⟩ := State.endSlot_next ht
  · exact hu
  · exact absurd rfl hne

/-- The host may store to memory in the next event, alone or inside a slot of the engine without reset. -/
def State.NextEventMayStore (s : State) : Prop :=
  (∃ a v rest, s.bus = .host (.store a v) :: rest) ∨
    ∃ between rest a v, s.bus = .split between none :: rest ∧ .store a v ∈ between.flatten

/-- All a step without reset can do while the engine is stuck: take an event off, note readings, and store for the host. -/
theorem step_of_stuck {s t : State} {a : Addr} (hb : s.busy = true) (hs : s.stuckAt = some a) (ht : step s = .next t) :
    (∃ rest, s.bus = .reset :: rest) ∨ (∃ between n rest, s.bus = .split between (some n) :: rest) ∨
      (t = { s with mem := t.mem, seen := t.seen, bus := t.bus } ∧ (¬ s.NextEventMayStore → t.mem = s.mem)) := by
  cases hbus : s.bus with
  | nil =>
    rw [step_nil hbus, State.engineTurn_stuck hs] at ht
    cases ht
  | cons e rest =>
    rw [step_cons hbus] at ht
    cases e with
    | reset => exact .inl ⟨rest, rfl⟩
    | host h =>
      refine .inr (.inr ⟨?_, fun hno => State.host_busy_mem (s := { s with bus := rest }) hb ht fun b v heq => ?_⟩)
      · rw [(State.host_busy (s := { s with bus := rest }) hb ht).1]
      · exact hno (.inl ⟨b, v, rest, heq ▸ hbus⟩)
    | wait =>
      simp only [State.takeEvent, State.waitRound, hb, if_true, State.engineSlot_of_stuck hs] at ht
      cases ht
      exact .inr (.inr ⟨rfl, fun _ => rfl⟩)
    | engine =>
      rw [State.takeEvent, State.engineSlot_of_stuck (by exact hs)] at ht
      cases ht
      exact .inr (.inr ⟨rfl, fun _ => rfl⟩)
    | split between r =>
      cases r with
      | some n => exact .inr (.inl ⟨between, n, rest, rfl⟩)
      | none =>
        have hh := State.splitSlot_of_stuck (s := { s with bus := rest }) hs ht
        refine .inr (.inr ⟨?_, fun hno => State.hosts_busy_mem (s := { s with bus := rest }) hb hh fun b v hm => ?_⟩)
        · obtain ⟨m, l, rfl, -⟩ := State.hosts_busy (s := { s with bus := rest }) hb hh
          rfl
        · exact hno (.inr ⟨between, rest, b, v, hbus, hm⟩)

/-- Settles O41: the invariant has BUSY = 1 while the engine is stuck, and `step_of_stuck` says what is left to happen. -/
theorem onlyResetLeavesStuck : Obligations.OnlyResetLeavesStuck := by
  intro s h hs
  have hb := h.stuckBusy hs
  obtain ⟨a, ha⟩ := Option.ne_none_iff_exists'.mp hs
  refine ⟨fun hbus => ⟨a, ha, (step_nil hbus).trans (State.engineTurn_stuck ha)⟩, fun t ht => ?_⟩
  rcases step_of_stuck hb ha ht with hreset | hsplit | ⟨hkeeps, hmem⟩
  · exact .inl hreset
  · exact .inr (.inl hsplit)
  · refine .inr (.inr ?_)
    rw [hkeeps]
    refine ⟨rfl, hb, rfl, rfl, rfl, rfl, rfl, rfl, rfl, rfl, fun hstore hinside => hmem ?_⟩
    rintro (⟨b, v, rest, hbus⟩ | ⟨between, rest, b, v, hbus, hin⟩)
    · exact hstore b v rest hbus
    · exact hinside between rest hbus b v hin

/-! ### A step taken event by event (20_memory.md R55, R61) -/

/-- A slot of the engine that leaves it not stuck is its turn. -/
theorem State.engineTurn_of_engineSlot {s t : State} (h : s.engineSlot = .next t) (hn : t.stuckAt = none) :
    s.engineTurn = .next t := by
  unfold State.engineSlot at h
  split at h
  · cases h
    cases hn
  · exact h

/-- The engine's turn, taken event by event with nothing between (R55). -/
theorem Inv.splitSlot_nil {s t : State} (h : Inv s) (hn : s.stuckAt = none) (ht : s.engineTurn = .next t) :
    s.splitSlot [] none = .next t := by
  cases hr : s.w.running with
  | none =>
    simp only [State.engineTurn, hn, hr] at ht
    simpa [State.splitSlot, hn, hr] using ht
  | some i =>
    rw [State.engineTurn_run (h.busy_of_running hr) hr hn] at ht
    rw [State.splitSlot_running _ _ hr hn]
    exact EngineProg.runSplit_nil _ ht

/-- Settles O47: the slot of an engine that is not stuck is its turn, and `Inv.splitSlot_nil` takes it event by event. -/
theorem splitWithoutInterferenceIsWhole : Obligations.SplitWithoutInterferenceIsWhole := by
  intro s t rest h hn ht hnt
  rw [step_cons rfl] at ht ⊢
  have hrest : Inv { s with bus := rest } := h.congr h.memory rfl rfl rfl rfl rfl rfl
  exact hrest.splitSlot_nil hn (State.engineTurn_of_engineSlot ht hnt)

/-- A load from an address that exists, then the accesses after it. -/
theorem State.hosts_lb {s : State} {a : Addr} (ha : s.platform.admits a = true) (hs : List HostAccess) :
    s.hosts (lb a :: hs) = State.hosts { s with seen := s.seen ++ [.mem a (s.mem.read a)] } hs := by
  simp only [State.hosts, lb, State.host, State.hostLoad, ha, if_true]

/-- A read of a register, then the accesses after it. -/
theorem State.hosts_rd {s : State} {p : Platform} (hp : s.platform = p) (r : Reg) (hs : List HostAccess) :
    s.hosts (rd p r :: hs) = (s.noteReg r).hosts hs := by
  subst hp
  simp only [State.hosts, State.host_rd]

/-- While BUSY = 1 a write of a register is passed over (R29). -/
theorem State.hosts_wr_busy {s : State} {p : Platform} (hp : s.platform = p) (hb : s.busy = true) (r : Reg) (v : Word)
    (hs : List HostAccess) : s.hosts (wr p r v :: hs) = s.hosts hs := by
  subst hp
  simp only [State.hosts, State.host_wr, State.writeReg_busy hb]

/-- ENCODE's last step with accesses of the host between the terminator's write and the completion (R146). -/
theorem State.splitSlot_encodeEnd {s t : State} {hs : List HostAccess} (hop : s.w.op = .encode)
    (hp : s.w.phase = .groups) (hl : s.w.inPos = s.w.len) (hn : s.stuckAt = none)
    (ha : s.platform.admits (s.w.dst + s.w.outPos) = true)
    (ht : State.hosts { s with mem := s.mem.write (s.w.dst + s.w.outPos) Config.terminator } hs = .next t) :
    s.splitSlot [[], hs] none = .next (State.complete { t with w := s.w } .ok s.w.outPos 0) := by
  have hr : s.w.running = some .encode := by simp [Work.running, hop]
  rw [State.splitSlot_running _ _ hr hn, engineProg, encodeProg_end hp hl, encodeEndProg, Work.dstAt_zero]
  simp [EngineProg.runSplit, State.endSlot, accessesLeft, ha, ht]

/-- The host loads a byte, reads STATUS and writes a register while BUSY = 1: two readings, and nothing else. -/
theorem State.hosts_load_status_write {s : State} (hb : s.busy = true) (hc : s.code = .ok) {a : Addr}
    (ha : s.platform.admits a = true) (r : Reg) (v : Word) :
    s.hosts [lb a, rd s.platform .status, wr s.platform r v] =
      .next { s with seen := s.seen ++ [.mem a (s.mem.read a), .reg .status 1] } := by
  rw [State.hosts_lb ha, State.hosts_rd (by rfl), State.hosts_wr_busy (by rfl) (by exact hb), State.hosts_nil]
  simp [State.noteReg, State.readReg, State.statusWord_busy, hb, hc]

/-- Settles O49: the accesses fall between the terminator's write and the completion, while BUSY = 1. -/
theorem statusStillBusyAfterTerminatorIsSeen : Obligations.StatusStillBusyAfterTerminatorIsSeen := by
  intro s r v rest h ⟨hb, hop⟩ hp hl hn dst ha hbus
  have hhosts := State.hosts_load_status_write (s := { s with bus := rest, mem := s.mem.write dst Config.terminator })
    hb (h.busyClear hb).1 (a := dst) ha r v
  have hslot := State.splitSlot_encodeEnd (s := { s with bus := rest }) hop hp hl hn ha hhosts
  refine ⟨_, (step_cons hbus).trans hslot, ⟨rfl, rfl, rfl, rfl, rfl⟩, rfl, ?_, rfl, rfl, rfl, rfl⟩
  simp [Config.terminator]

end Sys2Proof.Machine

/-! ### Decoding and encoding (30_encoding.md R70 to R74)

A word and its fields say the same (`cmdFields_encode`, `fieldsWord_cmdFields`), so that the two directions are shown on
fields (`decodeFields_eq_ok_iff`) and carried over to words (`decode_eq_ok_iff`). -/

namespace Sys2Proof

/-- A command without CHAR is decoded to itself, when CHAR is zero (R75). -/
theorem withoutChar_eq_ok_iff (f : CmdFields) (i j : Instr) : withoutChar f i = .ok j ↔ f.char = 0 ∧ i = j := by
  unfold withoutChar
  split <;> simp_all

/-- The fields of an instruction are decoded to it (R71, R72). -/
@[simp] theorem decodeFields_fields (i : Instr) : decodeFields i.fields = .ok i := by
  cases i <;> rfl

/-- Fields that are decoded are those of the instruction: no field is dropped (R71, R75). -/
theorem fields_of_decodeFields {f : CmdFields} {i : Instr} (h : decodeFields f = .ok i) : i.fields = f := by
  obtain ⟨rsv1, char, rsv0, op⟩ := f
  unfold decodeFields at h
  split_ifs at h with hrsv h1 h2 h3 h4 h5
  case pos =>
    cases h
    simp_all [Instr.fields]
  all_goals
    obtain ⟨hchar, rfl⟩ := (withoutChar_eq_ok_iff _ _ _).mp h
    simp_all [Instr.fields]

theorem decodeFields_eq_ok_iff (f : CmdFields) (i : Instr) : decodeFields f = .ok i ↔ i.fields = f :=
  ⟨fields_of_decodeFields, fun h => h ▸ decodeFields_fields i⟩

/-- An instruction's word is the only one with its fields (R70). -/
theorem encode_eq_iff (i : Instr) (v : Word) : encode i = v ↔ i.fields = cmdFields v where
  mp h := by rw [← h, cmdFields_encode]
  mpr h := by rw [encode, h, fieldsWord_cmdFields]

theorem decode_eq_ok_iff (v : Word) (i : Instr) : decode v = .ok i ↔ encode i = v := by
  rw [decode, decodeFields_eq_ok_iff, encode_eq_iff]

/-- Two instructions with one word are one (R70). -/
theorem encode_inj {i j : Instr} (h : encode i = encode j) : i = j := by
  have hj := (decode_eq_ok_iff _ j).mpr rfl
  rw [(decode_eq_ok_iff _ i).mpr h] at hj
  exact Except.ok.inj hj

/-- The CHAR of a decoded word is the instruction's (R72). -/
theorem fields_char_of_decode {v : Word} {i : Instr} (h : decode v = .ok i) : i.fields.char = v.extractLsb' 8 8 := by
  rw [fields_of_decodeFields h, cmdFields]

end Sys2Proof

namespace Sys2Proof.Machine

/-- Settles O1, by the round trip on fields. -/
theorem decodeIsInverseOfEncode : Obligations.DecodeIsInverseOfEncode :=
  decode_eq_ok_iff

end Sys2Proof.Machine

/-! ### The match and mask table (30_encoding.md R73, R74)

A row selects the words of its mnemonic's instructions and no others (`OpcodeRow.selects_iff`). -/

namespace Sys2Proof

/-- A word is legal exactly when it is some instruction's (R74). -/
theorem legal_iff_encode (v : Word) : legal v = true ↔ ∃ i, encode i = v := by
  simp only [← decode_ok_iff_legal, decode_eq_ok_iff]

/-- The law of Laws/PerInstr.lean for every instruction. -/
theorem rowSelects (i : Instr) : Laws.RowSelects.Statement i := by
  cases i with
  | classify ch => exact Laws.RowSelects.classify ch
  | enclen => exact Laws.RowSelects.enclen
  | maxdec => exact Laws.RowSelects.maxdec
  | encode => exact Laws.RowSelects.encode
  | decode => exact Laws.RowSelects.decode

/-- CLASSIFY's row fixes every field but CHAR (R73). -/
theorem encode_of_classifyMask {v : Word} (h : v &&& 0xFFFF00FF = 0x00000001) :
    encode (.classify (v.extractLsb' 8 8)) = v := by
  have hfield (start len : Nat) (hmask : (0xFFFF00FF : Word).extractLsb' start len = BitVec.allOnes len) :
      (0x00000001 : Word).extractLsb' start len = v.extractLsb' start len := by
    rw [← h, BitVec.extractLsb'_and, hmask, BitVec.and_allOnes]
  rw [encode_eq_iff, cmdFields, Instr.fields, CmdFields.mk.injEq]
  exact ⟨hfield 16 16 (by decide), rfl, hfield 4 4 (by decide), hfield 0 4 (by decide)⟩

/-- A word that a row selects is an instruction's (R73). -/
theorem OpcodeRow.encode_of_selects {r : OpcodeRow} (hr : r ∈ opcodeRows) {v : Word} (h : r.selects v = true) :
    ∃ i, encode i = v := by
  simp only [OpcodeRow.selects, beq_iff_eq] at h
  simp only [opcodeRows, List.mem_cons, List.not_mem_nil, or_false] at hr
  have hfull : v &&& 0xFFFFFFFF = v := BitVec.and_allOnes
  rcases hr with rfl | rfl | rfl | rfl | rfl
  · exact ⟨_, encode_of_classifyMask h⟩
  · exact ⟨.enclen, (hfull.symm.trans h).symm⟩
  · exact ⟨.maxdec, (hfull.symm.trans h).symm⟩
  · exact ⟨.encode, (hfull.symm.trans h).symm⟩
  · exact ⟨.decode, (hfull.symm.trans h).symm⟩

/-- A row selects exactly the words of the instructions with its mnemonic (R73). -/
theorem OpcodeRow.selects_iff {r : OpcodeRow} (hr : r ∈ opcodeRows) (v : Word) :
    r.selects v = true ↔ ∃ i, encode i = v ∧ r.mnemonic = i.mnemonic where
  mp h := by
    obtain ⟨i, rfl⟩ := OpcodeRow.encode_of_selects hr h
    exact ⟨i, rfl, ((rowSelects i).2 r hr).mp h⟩
  mpr := by
    rintro ⟨i, rfl, hm⟩
    exact ((rowSelects i).2 r hr).mpr hm

/-- Every instruction's mnemonic has a row (R71, R73). -/
theorem exists_row_mnemonic (i : Instr) : ∃ r ∈ opcodeRows, r.mnemonic = i.mnemonic := by
  cases i <;> simp [opcodeRows, Instr.mnemonic]

/-- No two rows have one mnemonic (R73). -/
theorem OpcodeRow.eq_of_mnemonic {r₁ r₂ : OpcodeRow} (h₁ : r₁ ∈ opcodeRows) (h₂ : r₂ ∈ opcodeRows)
    (h : r₁.mnemonic = r₂.mnemonic) : r₁ = r₂ := by
  have hrows : ∀ r₁ ∈ opcodeRows, ∀ r₂ ∈ opcodeRows, r₁.mnemonic = r₂.mnemonic → r₁ = r₂ := by decide
  exact hrows r₁ h₁ r₂ h₂ h

/-- `legal(v)` as R74 writes it out. -/
theorem legal_iff (v : Word) :
    legal v = true ↔
      v.extractLsb' 16 16 = 0 ∧ v.extractLsb' 4 4 = 0 ∧
      (v.extractLsb' 0 4 = 1 ∨ v.extractLsb' 0 4 = 2 ∨ v.extractLsb' 0 4 = 3 ∨ v.extractLsb' 0 4 = 4 ∨
        v.extractLsb' 0 4 = 5) ∧
      (v.extractLsb' 0 4 = 1 ∨ v.extractLsb' 8 8 = 0) := by
  simp only [legal, CmdFields.wf_iff, cmdFields]
  tauto

end Sys2Proof

namespace Sys2Proof.Machine

/-- Settles O2: a legal word is an instruction's, and a row selects it exactly when it carries that instruction's
mnemonic. -/
theorem legalWordsHaveOneMnemonic : Obligations.LegalWordsHaveOneMnemonic := by
  intro v
  refine ⟨legal_iff v, ⟨fun hl => ?selected, ?legal⟩, ?unique, fun hl => ?mnemonic, decode_error_of_illegal⟩
  case selected =>
    obtain ⟨i, hi⟩ := (legal_iff_encode v).mp hl
    obtain ⟨r, hr, hm⟩ := exists_row_mnemonic i
    exact ⟨r, hr, (OpcodeRow.selects_iff hr v).mpr ⟨i, hi, hm⟩⟩
  case legal =>
    rintro ⟨r, hr, hs⟩
    exact (legal_iff_encode v).mpr (OpcodeRow.encode_of_selects hr hs)
  case unique =>
    intro r₁ h₁ r₂ h₂ hs₁ hs₂
    obtain ⟨i, hi, hm₁⟩ := (OpcodeRow.selects_iff h₁ v).mp hs₁
    obtain ⟨j, hj, hm₂⟩ := (OpcodeRow.selects_iff h₂ v).mp hs₂
    have hij : i = j := encode_inj (hi.trans hj.symm)
    exact OpcodeRow.eq_of_mnemonic h₁ h₂ (by rw [hm₁, hm₂, hij])
  case mnemonic =>
    obtain ⟨i, hi⟩ := (legal_iff_encode v).mp hl
    obtain ⟨r, hr, hm⟩ := exists_row_mnemonic i
    exact ⟨i, (decode_eq_ok_iff v i).mpr hi, r, hr, (OpcodeRow.selects_iff hr v).mpr ⟨i, hi, hm⟩, hm⟩

end Sys2Proof.Machine

/-! ### Illegal and written-out words (30_encoding.md R75) -/

namespace Sys2Proof

/-- The first line of R75. -/
theorem decodeFields_reservedBits {f : CmdFields} (h : f.rsv1 ≠ 0 ∨ f.rsv0 ≠ 0) :
    decodeFields f = .error (.reservedBits f.rsv1 f.rsv0) := by
  rw [decodeFields, if_pos h]

/-- The second line of R75. -/
theorem decodeFields_reservedOp {f : CmdFields} (h1 : f.rsv1 = 0) (h0 : f.rsv0 = 0) (hop : f.op = 0 ∨ 6 ≤ f.op) :
    decodeFields f = .error (.reservedOp f.op) := by
  have hne : ¬ (f.op = 1 ∨ f.op = 2 ∨ f.op = 3 ∨ f.op = 4 ∨ f.op = 5) := by bv_omega
  simp only [not_or] at hne
  simp only [decodeFields, h1, h0, hne, ne_eq, not_true, or_self, if_false]

/-- The third line of R75. -/
theorem decodeFields_strayChar {f : CmdFields} (h1 : f.rsv1 = 0) (h0 : f.rsv0 = 0) (hlo : 2 ≤ f.op) (hhi : f.op ≤ 5)
    (hchar : f.char ≠ 0) : decodeFields f = .error (.strayChar f.op f.char) := by
  have hop : f.op = 2 ∨ f.op = 3 ∨ f.op = 4 ∨ f.op = 5 := by bv_omega
  have hstray (i : Instr) : withoutChar f i = .error (.strayChar f.op f.char) := if_neg hchar
  rcases hop with hop | hop | hop | hop <;> simp [decodeFields, h1, h0, hop, hstray]

end Sys2Proof

namespace Sys2Proof.Machine

/-- Settles O3: each line of R75 on the word's fields. -/
theorem illegalWordsHaveTheirReason : Obligations.IllegalWordsHaveTheirReason :=
  fun v => ⟨decodeFields_reservedBits (f := cmdFields v), decodeFields_reservedOp (f := cmdFields v),
    decodeFields_strayChar (f := cmdFields v)⟩

/-- Settles O4: closed words, evaluated. -/
theorem writtenWordsDecode : Obligations.WrittenWordsDecode := by
  unfold Obligations.WrittenWordsDecode
  decide

/-! ### A command word written to CMD (30_encoding.md R76, R80) -/

/-- Settles O5: the write is the next event, and the idle block runs the decoded instruction. -/
theorem cmdWriteRunsDecodedInstruction : Obligations.CmdWriteRunsDecodedInstruction := by
  intro s v i rest hbus hb hd
  rw [step_wr hbus, State.writeReg_cmd (by exact hb) hd]

/-- Settles O9: `exec` on an idle block is acceptance. -/
theorem idleBlockAcceptsEveryInstruction : Obligations.IdleBlockAcceptsEveryInstruction :=
  fun i s hb => ⟨s.accept i, exec_idle i hb, ⟨rfl, rfl⟩, rfl, rfl, rfl⟩

/-- Only ENCODE starts in its CHECK phase (R80). -/
theorem startPhase_eq (i : Instr) : startPhase i = if i = .encode then .check else .groups := by
  cases i <;> rfl

/-- The latches of an instruction run it, its CHAR as written (R72, R80). -/
theorem Work.running_latch (i : Instr) (s : State) : (Work.latch i s).running = some i := by
  cases i <;> rfl

/-- Settles O8: the decoded instruction is accepted, and CHAR of the written word is the instruction's. -/
theorem acceptanceLatchesOperands : Obligations.AcceptanceLatchesOperands := by
  intro s v i rest hbus hb hd
  refine ⟨State.accept i { s with bus := rest }, ?_, Work.running_latch i _, ?_⟩
  · rw [cmdWriteRunsDecodedInstruction s v i rest hbus hb hd, exec_idle i (by exact hb)]
  · rw [← fields_char_of_decode hd, ← startPhase_eq]
    rfl

/-- STATUS after BAD_COMMAND on an idle block (R76). -/
theorem State.statusWord_badCommand {s : State} (hb : s.busy = false) : s.badCommand.statusWord = 0x00000300 := by
  simp [State.statusWord, hb, codeNumber]

/-- Settles O10: the illegal word is written to an idle block, or dropped. -/
theorem badCommandCompletesInTheWrite : Obligations.BadCommandCompletesInTheWrite := by
  intro s v rest hbus hl
  rw [step_wr hbus]
  exact ⟨fun hb => ⟨_, State.writeReg_cmd_illegal (by exact hb) hl, State.statusWord_badCommand (by exact hb), rfl⟩,
    fun hb => State.writeReg_busy (by exact hb) .cmd v⟩

/-! ### The engine's turn and the polling loop (30_encoding.md R81, R85) -/

/-- Settles O6: the engine's turn, with no event to come and as an event of its own. -/
theorem engineTurnRunsLatchedInstruction : Obligations.EngineTurnRunsLatchedInstruction := by
  intro s i hr hn
  refine ⟨fun hbus => ?alone, fun rest t hbus ht => ?event⟩
  case alone => rw [step_nil hbus, State.engineTurn_running hr hn]
  case event =>
    rw [step_cons hbus]
    exact State.engineSlot_next ((State.engineTurn_running (by exact hr) (by exact hn)).trans ht)

/-- Settles O50: the last read is noted; before it each round is the engine's turn, whose step leaves the events to
come. -/
theorem waitEndsWithBusyClear : Obligations.WaitEndsWithBusyClear := by
  intro s rest hbus
  rw [step_cons hbus, State.takeEvent, State.waitRound]
  refine ⟨fun hb => ?ends, fun hb hn i t hr ht => ⟨?turn, ?stays⟩⟩
  case ends =>
    rw [if_neg (by simp [hb])]
    rfl
  case turn =>
    rw [if_pos hb]
    exact State.engineSlot_next ((State.engineTurn_running hr hn).trans ht)
  case stays =>
    rw [exec_running hb (Work.op_of_running hr)] at ht
    rw [(EngineProg.run_frame _ ht).bus, hbus]

end Sys2Proof.Machine

/-! ### The classifier and CLASSIFY (40_classifier.md R102 to R105)

What `classify` answers is said once for each of its four ranges, with the values as numbers; the partition, the inverse
of the alphabet and the class word follow from these. -/

namespace Sys2Proof.Machine

theorem classify_letter {c : Byte} (hlo : 0x41 ≤ c) (hhi : c ≤ 0x5A) :
    classify c = .value ((c - 0x41).setWidth 5) := if_pos ⟨hlo, hhi⟩

theorem classify_digit {c : Byte} (hlo : 0x32 ≤ c) (hhi : c ≤ 0x37) :
    classify c = .value ((c - 0x32 + 26).setWidth 5) := by
  have hletter : ¬ (0x41 ≤ c ∧ c ≤ 0x5A) := by bv_omega
  rw [classify, if_neg hletter, if_pos ⟨hlo, hhi⟩]

theorem classify_pad : classify Config.pad = .padding := rfl

theorem classify_invalid {c : Byte} (hletter : ¬ (0x41 ≤ c ∧ c ≤ 0x5A)) (hdigit : ¬ (0x32 ≤ c ∧ c ≤ 0x37))
    (hpad : c ≠ 0x3D) : classify c = .invalid := by
  rw [classify, if_neg hletter, if_neg hdigit, if_neg (show c ≠ Config.pad from hpad)]

/-- A letter's value is its place after 'A'. -/
theorem toNat_letterValue {c : Byte} (hlo : 0x41 ≤ c) (hhi : c ≤ 0x5A) :
    ((c - 0x41).setWidth 5).toNat = c.toNat - 0x41 := by
  rw [BitVec.toNat_setWidth]
  bv_omega

/-- A digit's value is its place after '2', counted on from 26. -/
theorem toNat_digitValue {c : Byte} (hlo : 0x32 ≤ c) (hhi : c ≤ 0x37) :
    ((c - 0x32 + 26).setWidth 5).toNat = c.toNat - 0x32 + 26 := by
  rw [BitVec.toNat_setWidth]
  bv_omega

/-- The class word as R105 writes it out, by the ranges of R102: the five bits of a value hold it whole. -/
theorem classWord_classify (c : Byte) :
    classWord (classify c) =
      if 0x41 ≤ c ∧ c ≤ 0x5A then (c - 0x41).setWidth 32
      else if 0x32 ≤ c ∧ c ≤ 0x37 then (c - 0x32).setWidth 32 + 26
      else if c = 0x3D then 0x100
      else 0x200 := by
  split_ifs with hletter hdigit hpad
  · obtain ⟨hlo, hhi⟩ := hletter
    have hv := toNat_letterValue hlo hhi
    rw [classify_letter hlo hhi, classWord]
    bv_omega
  · obtain ⟨hlo, hhi⟩ := hdigit
    have hv := toNat_digitValue hlo hhi
    rw [classify_digit hlo hhi, classWord]
    bv_omega
  · rw [hpad]
    rfl
  · rw [classify_invalid hletter hdigit hpad]
    rfl

/-! ### Completion at once -/

/-- A running command whose engine step is a completion completes. -/
theorem exec_of_engineProg_complete {i : Instr} {s : State} {c : Code} {r p : Word} (h : Runs i s)
    (hprog : engineProg i s.w = .complete s.w c r p) : exec i s = .next (s.complete c r p) := by
  obtain ⟨hb, hop⟩ := h
  rw [exec_running hb hop, hprog, EngineProg.run_complete]

/-- Settles O19: the engine step is a completion with the class word of the latched character. -/
theorem classifyCompletesWithClassWord : Obligations.ClassifyCompletesWithClassWord := by
  intro s ch h
  rw [← classWord_classify]
  exact exec_of_engineProg_complete h rfl

/-! ### The partition and the alphabet (R103, R104) -/

/-- Settles O17: each row of R103 lies in one range of R102. -/
theorem classifierPartition : Obligations.ClassifierPartition := by
  intro c
  refine ⟨fun hhi => ?_, fun hlo hhi => ?digits, fun hlo hhi => ?_, fun hc => ?pad, fun hlo hhi => ?_,
    fun hlo hhi => ?letters, fun hlo => ?_⟩
  case digits => exact ⟨_, classify_digit hlo hhi, toNat_digitValue hlo hhi⟩
  case pad => exact hc ▸ classify_pad
  case letters => exact ⟨_, classify_letter hlo hhi, toNat_letterValue hlo hhi⟩
  all_goals exact classify_invalid (by bv_omega) (by bv_omega) (by bv_omega)

/-- The alphabet's first 26 entries are the letters in order (R100). -/
theorem toNat_alphabet_of_lt {v : SymVal} (h : v.toNat < 26) : (alphabet v).toNat = v.toNat + 0x41 := by
  revert v
  decide

/-- The alphabet's last six entries are the digits from '2' on in order (R100). -/
theorem toNat_alphabet_of_ge {v : SymVal} (h : 26 ≤ v.toNat) : (alphabet v).toNat = v.toNat - 26 + 0x32 := by
  revert v
  decide

/-- A character with a value is a letter or a digit, and the value is its place there (R102). -/
theorem classify_eq_value {c : Byte} {v : SymVal} (h : classify c = .value v) :
    (0x41 ≤ c ∧ c ≤ 0x5A ∧ v.toNat = c.toNat - 0x41) ∨
      (0x32 ≤ c ∧ c ≤ 0x37 ∧ v.toNat = c.toNat - 0x32 + 26) := by
  unfold classify at h
  split_ifs at h with hletter hdigit <;> cases h
  · exact .inl ⟨hletter.1, hletter.2, toNat_letterValue hletter.1 hletter.2⟩
  · exact .inr ⟨hdigit.1, hdigit.2, toNat_digitValue hdigit.1 hdigit.2⟩

/-- The alphabet gives back the character that has a value (R104). -/
theorem alphabet_of_classify {c : Byte} {v : SymVal} (h : classify c = .value v) : c = alphabet v := by
  rw [← BitVec.toNat_inj]
  rcases classify_eq_value h with ⟨hlo, hhi, hv⟩ | ⟨hlo, hhi, hv⟩
  · rw [toNat_alphabet_of_lt (by bv_omega)]
    bv_omega
  · rw [toNat_alphabet_of_ge (by bv_omega)]
    bv_omega

/-- The classifier gives back the value that has a character (R104). -/
@[simp] theorem classify_alphabet (v : SymVal) : classify (alphabet v) = .value v := by
  revert v
  decide

/-- Settles O18: one direction for each of the two functions. -/
theorem classifierInvertsAlphabet : Obligations.ClassifierInvertsAlphabet :=
  ⟨classify_alphabet, fun _ _ => alphabet_of_classify⟩

end Sys2Proof.Machine

/-! ### The Size Calculators (41_size_calculators.md R120 to R126) -/

namespace Sys2Proof.Machine

/-- The encoded length fits in a word exactly up to `MAX_ENC_INPUT` (R122). -/
theorem encodedLength_le_iff (n : Nat) : encodedLength n ≤ 2 ^ 32 - 1 ↔ n ≤ Config.maxEncInput := by
  simp only [encodedLength, quintetGroups, Config.maxEncInput]
  omega

/-- Settles O20: the bound is `encodedLength_le_iff`, the two values are computed. -/
theorem encodedLengthFitsToTheBound : Obligations.EncodedLengthFitsToTheBound :=
  ⟨encodedLength_le_iff, rfl, rfl⟩

/-- Up to the bound ENCLEN's step completes with the encoded length (R123). -/
theorem enclenProg_fits {w : Work} (h : w.len.toNat ≤ Config.maxEncInput) :
    enclenProg w = .complete w .ok (BitVec.ofNat 32 (encodedLength w.len.toNat)) 0 :=
  if_neg (Nat.not_lt.mpr ((encodedLength_le_iff _).mpr h))

/-- Above the bound ENCLEN's step completes with LENGTH_RANGE (R123). -/
theorem enclenProg_exceeds {w : Work} (h : Config.maxEncInput < w.len.toNat) :
    enclenProg w = .complete w .lengthRange 0 0 :=
  if_pos (Nat.lt_of_not_le fun hle => Nat.not_le.mpr h ((encodedLength_le_iff _).mp hle))

/-- Settles O21: in each range the engine step is a completion, and in the lower one the encoded length is below `2 ^ 32`,
so RESULT holds it whole. -/
theorem enclenCompletes : Obligations.EnclenCompletes := by
  intro s hs
  refine ⟨fun hle => ⟨_, exec_of_engineProg_complete hs (enclenProg_fits hle), rfl, ?_⟩,
    fun hlt => exec_of_engineProg_complete hs (enclenProg_exceeds hlt)⟩
  have hfit : encodedLength s.w.len.toNat < 2 ^ 32 := Nat.lt_of_le_pred (by decide) ((encodedLength_le_iff _).mpr hle)
  exact Nat.mod_eq_of_lt hfit

/-- `max_decoded_size(L)` is no longer than `L` (R124). -/
theorem maxDecodedSize_le (l : Nat) : maxDecodedSize l ≤ l := by
  unfold maxDecodedSize
  omega

/-- Settles O22: the engine step is a completion, and `maxDecodedSize_le` has its result fit in a word. -/
theorem maxdecCompletes : Obligations.MaxdecCompletes := by
  intro s hs
  exact ⟨_, exec_of_engineProg_complete hs rfl, rfl,
    Nat.mod_eq_of_lt ((maxDecodedSize_le _).trans_lt s.w.len.isLt)⟩

/-! ### The bound on decoded bytes (R125) -/

/-- A group of symbols gives no more bytes than if every symbol had a value (R173). -/
theorem decodeGroup_length_le (g : List Byte) : (decodeGroup g).length ≤ bytesOfValues g.length := by
  have hvalues : g.countP isValue ≤ g.length := List.countP_le_length
  calc (decodeGroup g).length
    _ ≤ bytesOfValues (g.countP isValue) := List.length_take_le _ _
    _ ≤ bytesOfValues g.length := Nat.div_le_div_right (Nat.mul_le_mul_left 5 hvalues)

/-- A round of `decode_fn`, cut to the limit, adds at most what its group of symbols can give (R174, R180). -/
theorem length_append_decodeGroup_le (out g : List Byte) (room : Nat) :
    (out ++ (decodeGroup g).take room).length ≤ out.length + bytesOfValues g.length := by
  rw [List.length_append]
  exact Nat.add_le_add_left ((List.length_take_le' _ _).trans (decodeGroup_length_le g)) _

/-- From any round on, the loop of `decode_fn` adds at most five bytes for each whole group of the text to come and what
the symbols after those can give: each round that goes on takes one whole group off the text (R180). -/
theorem decodeLoop_out_length_le {limit fuel pos : Nat} {out text : List Byte} {d : Decoded}
    (h : decodeLoop limit fuel out pos text = some d) :
    d.out.length ≤ out.length + (text.length / 8 * 5 + bytesOfValues (text.length % 8)) := by
  fun_induction decodeLoop limit fuel out pos text with
  | case1 => cases h
  | case2 | case3 | case4 =>
    cases h
    exact Nat.le_add_right _ _
  | case5 fuel out pos text hlim g hg hf out' hshort =>
    cases h
    have hlen : g.length = min 8 text.length := List.length_take
    have hround : out'.length ≤ out.length + bytesOfValues g.length := length_append_decodeGroup_le _ _ _
    simp only [bytesOfValues] at hround ⊢
    omega
  | case6 fuel out pos text hlim g hg hf out' hwhole ih =>
    have hlen : g.length = min 8 text.length := List.length_take
    have hround : out'.length ≤ out.length + bytesOfValues g.length := length_append_decodeGroup_le _ _ _
    have hrest := ih h
    simp only [bytesOfValues, List.length_drop] at hround hrest ⊢
    omega

/-- Settles O60: the loop's bound from the start of the text; a last group of at most one symbol gives no byte. -/
theorem decodedSizeBound : Obligations.DecodedSizeBound := by
  intro text limit d h _
  have hbound : d.out.length ≤ text.length / 8 * 5 + 5 * (text.length % 8) / 8 :=
    (decodeLoop_out_length_le h).trans_eq (Nat.zero_add _)
  refine ⟨hbound, fun hmod => ?_⟩
  unfold maxDecodedSize
  omega

end Sys2Proof.Machine

/-! ### The Encoder's tables (42_encoder.md R141, R142) -/

namespace Sys2Proof.Machine

/-- Settles O23: each size of a group, evaluated. -/
theorem sizeCategoryTable : Obligations.SizeCategoryTable := by
  refine ⟨rfl, rfl, rfl, fun n h1 h5 => ?_⟩
  interval_cases n <;> decide

/-- Settles O24: `groupValues_bytes` with absent bytes zero; the bits of a zero byte are zero. -/
theorem groupSymbolsFollowFieldTable : Obligations.GroupSymbolsFollowFieldTable := by
  intro b0 b1 b2 b3 b4
  simp [encodeGroup, groupOfBytes, groupValues_bytes, dataSyms, Config.pad, List.replicate]

/-! ### ENCODE's guard (42_encoder.md R144) -/

/-- The encoded length, written out (R120). -/
theorem encodedLength_eq (n : Nat) : encodedLength n = (n + 4) / 5 * 8 + 1 := rfl

/-- A running ENCODE's step in phase CHECK is its guard. -/
theorem exec_encode_check {s : State} (h : Runs .encode s) (hp : s.w.phase = .check) :
    exec .encode s = (encodeCheckProg s.w).run s := by
  rw [exec_running h.1 h.2, engineProg, encodeProg, hp]

/-- Settles O25: each outcome of the guard, in the order of its tests. -/
theorem encodeGuard : Obligations.EncodeGuard := by
  intro s h hp e
  have hlim : s.w.lim.toNat < 2 ^ 32 := s.w.lim.isLt
  have he : encodedLength s.w.len.toNat = e := rfl
  rw [exec_encode_check h hp]
  simp only [encodeCheckProg, he]
  refine ⟨fun hrange => ?_, fun hfits hover => ?_, fun hle => ?_⟩
  · rw [if_pos hrange]
    rfl
  · rw [if_neg (by omega), if_pos hover]
    rfl
  · rw [if_neg (by omega), if_neg (by omega)]
    rfl

/-! ### ENCODE's steps in phase GROUPS (42_encoder.md R145, R146) -/

theorem Memory.bytesAt_length (m : Memory) (a : Addr) (n : Nat) : (m.bytesAt a n).length = n := by
  simp [Memory.bytesAt]

/-- Memory with bytes written at the engine's output position, in ascending order. -/
def Work.store (w : Work) (m : Memory) (bytes : List Byte) : Memory :=
  (bytes.zipIdx 0).foldl (fun m b => m.write (w.dstAt b.2) b.1) m

/-- Bytes written at the output position are held there. -/
theorem Work.holds_store (w : Work) (m : Memory) {bytes : List Byte} (hl : bytes.length ≤ 2 ^ 32) :
    Holds (w.store m bytes) (w.dst + w.outPos) bytes := by
  intro j hj
  have hsame := foldl_write_same w 0 bytes m (by omega) j hj
  rwa [Nat.zero_add] at hsame

/-- Bytes written at the output position leave every other byte alone. -/
theorem Work.sameOutside_store (w : Work) (m : Memory) (bytes : List Byte) :
    SameOutside m (w.store m bytes) (w.dst + w.outPos) bytes.length := by
  intro x hx
  refine foldl_write_other w 0 bytes m x fun i hi => ?_
  rw [Nat.zero_add]
  exact hx i hi

theorem Work.store_singleton (w : Work) (m : Memory) (b : Byte) : w.store m [b] = m.write (w.dst + w.outPos) b := by
  rw [← Work.dstAt_zero]
  rfl

/-- One Quintet Group whose addresses exist: the symbols of the bytes read are written, and the positions move on. -/
theorem encodeGroupProg_run {w : Work} {s : State} {bytes : List Byte}
    (hbytes : s.mem.bytesAt (w.src + w.inPos) (quintetSize w) = bytes)
    (hsrc : Admitted s.platform (w.src + w.inPos) (quintetSize w)) (hdst : Admitted s.platform (w.dst + w.outPos) 8) :
    (encodeGroupProg w).run s = .next { s with
      mem := w.store s.mem (encodeGroup bytes),
      w := { w with
        acc := groupOfBytes bytes, inPos := w.inPos + BitVec.ofNat 32 (quintetSize w), outPos := w.outPos + 8 } } := by
  have hacc := readGroup_acc (fun i => s.mem.read (w.srcAt i)) (quintetSize w) (Nat.min_le_left _ _)
  have hmap : (List.range (quintetSize w)).map (fun i => s.mem.read (w.srcAt i)) = bytes := hbytes
  have hsyms : groupSymbols (groupOfBytes bytes) (quintetSize w) = encodeGroup bytes := by
    rw [← groupSymbols_groupOfBytes, ← hbytes, Memory.bytesAt_length]
  rw [encodeGroupProg, readGroup_run _ _ _ _ _ _ (fun i hi => by rw [Nat.zero_add]; exact hsrc i hi), hacc, hmap, hsyms,
    writeBytes_run _ _ _ _ _ fun i hi => by rw [Nat.zero_add]; exact hdst i (encodeGroup_length bytes ▸ hi)]
  rfl

/-- A running ENCODE's step over a Quintet Group whose addresses exist. -/
theorem exec_encode_group {s : State} {bytes : List Byte} (h : Runs .encode s) (hp : s.w.phase = .groups)
    (hlt : s.w.inPos < s.w.len) (hbytes : s.mem.bytesAt (s.w.src + s.w.inPos) (quintetSize s.w) = bytes)
    (hsrc : Admitted s.platform (s.w.src + s.w.inPos) (quintetSize s.w))
    (hdst : Admitted s.platform (s.w.dst + s.w.outPos) 8) :
    exec .encode s = .next { s with
      mem := s.w.store s.mem (encodeGroup bytes),
      w := { s.w with
        acc := groupOfBytes bytes, inPos := s.w.inPos + BitVec.ofNat 32 (quintetSize s.w),
        outPos := s.w.outPos + 8 } } := by
  rw [exec_running h.1 h.2, engineProg, encodeProg_group hp hlt, encodeGroupProg_run hbytes hsrc hdst]

/-- Settles O26: `exec_encode_group`, and what its writes leave. -/
theorem encodeGroupStep : Obligations.EncodeGroupStep := by
  intro s h hp hlt n bytes hsrc hdst
  have hlen : (encodeGroup bytes).length = 8 := encodeGroup_length bytes
  refine ⟨_, exec_encode_group h hp hlt rfl hsrc hdst, s.w.holds_store s.mem ?_, hlen, ?_, rfl⟩
  · exact hlen.trans_le (by norm_num)
  · rw [← hlen]
    exact s.w.sameOutside_store s.mem (encodeGroup bytes)

/-- A running ENCODE's step at the end of input, the terminator's address existing. -/
theorem exec_encode_end {s : State} (h : Runs .encode s) (hp : s.w.phase = .groups) (hl : s.w.inPos = s.w.len)
    (ha : s.platform.admits (s.w.dst + s.w.outPos) = true) :
    exec .encode s = .next (State.complete { s with mem := s.mem.write (s.w.dst + s.w.outPos) Config.terminator }
      .ok s.w.outPos 0) := by
  rw [exec_running h.1 h.2, engineProg, encodeProg_end hp hl, encodeEndProg, Work.dstAt_zero, EngineProg.run_write ha,
    EngineProg.run_complete]

/-- Settles O27: `exec_encode_end`, and what its write leaves. -/
theorem encodeEndStep : Obligations.EncodeEndStep := by
  intro s h hp hl ha
  refine ⟨_, exec_encode_end h hp hl ha, ?_, fun x hx => ?_, rfl⟩
  · rw [State.complete_mem, Memory.read_write_same, Config.terminator]
  · rw [State.complete_mem, Memory.read_write_other _ _ hx]

end Sys2Proof.Machine

namespace Sys2Proof.Machine

/-! ### Texts (42_encoder.md R148, R149) -/

/-- The text of a last group is its symbols (R148). -/
theorem encodeText_of_short {bytes : List Byte} (h1 : 1 ≤ bytes.length) (h5 : bytes.length ≤ 5) :
    encodeText bytes = encodeGroup bytes := by
  fun_cases encodeText bytes
  case case1 => simp at h1
  case case6 b0 b1 b2 b3 b4 rest =>
    obtain rfl : rest = [] := List.length_eq_zero_iff.mp (by simp only [List.length_cons] at h5; omega)
    simp [encodeText]
  all_goals rfl

/-- The text after whole groups goes on with that of the bytes to come (R148). -/
theorem encodeText_append {front rest : List Byte} (h : front.length % 5 = 0) :
    encodeText (front ++ rest) = encodeText front ++ encodeText rest := by
  fun_induction encodeText front
  case case1 => rfl
  case case6 b0 b1 b2 b3 b4 front ih =>
    simp only [List.length_cons] at h
    simp [encodeText, ih (by omega)]
  all_goals simp at h

/-- Eight symbols for each group (R149, law 1). -/
theorem encodeText_length (bytes : List Byte) : (encodeText bytes).length = (bytes.length + 4) / 5 * 8 := by
  fun_induction encodeText bytes
  case case1 => rfl
  case case6 b0 b1 b2 b3 b4 rest ih =>
    rw [List.length_append, encodeGroup_length, ih]
    simp only [List.length_cons]
    omega
  all_goals simp [encodeGroup_length]

/-- The padding symbols of a text of `n` bytes: those of its last group (R141, R149). -/
def textPads (n : Nat) : Nat := if n % 5 = 0 then 0 else padSyms (n % 5)

/-- A whole group has no padding, and every shorter one has that of its size (R141). -/
theorem textPads_of_group {n : Nat} (h1 : 1 ≤ n) (h5 : n ≤ 5) : textPads n = 8 - dataSyms n := by
  interval_cases n <;> rfl

/-- A group is its data symbols and the padding of its size (R142). -/
theorem encodeGroup_eq_data_pads {bytes : List Byte} (h1 : 1 ≤ bytes.length) (h5 : bytes.length ≤ 5) :
    encodeGroup bytes = ((groupValues (groupOfBytes bytes)).take (dataSyms bytes.length)).map alphabet ++
      List.replicate (textPads bytes.length) Config.pad := by
  rw [textPads_of_group h1 h5, encodeGroup]

/-- A text is data symbols and then the padding of its last group (R149, laws 2 and 4). -/
theorem encodeText_eq_data_pads (bytes : List Byte) :
    ∃ vals : List SymVal,
      encodeText bytes = vals.map alphabet ++ List.replicate (textPads bytes.length) Config.pad := by
  fun_induction encodeText bytes
  case case1 => exact ⟨[], rfl⟩
  case case6 b0 b1 b2 b3 b4 rest ih =>
    obtain ⟨vals, hrest⟩ := ih
    have hgroup : encodeGroup [b0, b1, b2, b3, b4] = (groupValues (groupOfBytes [b0, b1, b2, b3, b4])).map alphabet :=
      List.append_nil _
    have hpads : textPads (rest.length + 5) = textPads rest.length := by
      rw [textPads, Nat.add_mod_right, textPads]
    exact ⟨_ ++ vals, by rw [hrest, hgroup, List.map_append, List.append_assoc, ← hpads]; rfl⟩
  all_goals exact ⟨_, encodeGroup_eq_data_pads (by simp) (by simp)⟩

/-- No symbol value has the padding symbol (R100, R101). -/
theorem alphabet_ne_pad (v : SymVal) : alphabet v ≠ Config.pad := by
  revert v
  decide

/-- Among data symbols followed by padding the padding symbols are those from the end of the data on. -/
theorem getElem_data_pads_eq_pad_iff {vals : List SymVal} {n i : Nat}
    (h : i < (vals.map alphabet ++ List.replicate n Config.pad).length) :
    (vals.map alphabet ++ List.replicate n Config.pad)[i] = Config.pad ↔ vals.length ≤ i := by
  by_cases hi : i < vals.length
  · rw [List.getElem_append_left (by simpa using hi), List.getElem_map]
    exact iff_of_false (alphabet_ne_pad _) (by omega)
  · rw [List.getElem_append_right (by simpa using hi), List.getElem_replicate]
    exact iff_of_true rfl (by omega)

/-- The bits of the bytes a group does not have are zero (R142). -/
theorem groupOfBytes_bit_absent {bytes : List Byte} {b : Nat} (h : b < 40 - 8 * bytes.length) :
    (groupOfBytes bytes).getLsbD b = false := by
  rw [groupOfBytes_bit bytes (by omega), List.getD_eq_default _ _ (by omega)]
  exact BitVec.getLsbD_zero

theorem groupValues_getD (acc : Group) {i : Nat} (h : i < 8) : (groupValues acc).getD i 0 = groupSym acc i := by
  interval_cases i <;> rfl

/-- A group has at most eight data symbols (R141). -/
theorem dataSyms_le (n : Nat) : dataSyms n ≤ 8 := by
  have hcases := dataSyms_cases n
  omega

/-- The bits of the last data symbol below the bytes of its group are zero (R149, law 3). -/
theorem groupSym_zeroFill (bytes : List Byte) :
    (groupSym (groupOfBytes bytes) (dataSyms bytes.length - 1)).toNat %
      2 ^ (5 * dataSyms bytes.length - 8 * bytes.length) = 0 := by
  have hle := dataSyms_le bytes.length
  refine Nat.eq_of_testBit_eq fun j => ?_
  rw [Nat.testBit_mod_two_pow, Nat.zero_testBit, ← BitVec.getLsbD, groupSym, BitVec.getLsbD_extractLsb']
  by_cases hj : j < 5 * dataSyms bytes.length - 8 * bytes.length
  · rw [groupOfBytes_bit_absent (by omega), Bool.and_false, Bool.and_false]
  · rw [decide_eq_false hj, Bool.false_and]

/-- Settles O59: law 1 is `encodeText_length`, laws 2 and 4 are read off the shape of a text, law 3 is
`groupSym_zeroFill`. -/
theorem encodedTextObeysLaws : Obligations.EncodedTextObeysLaws := by
  intro bytes
  obtain ⟨vals, htext⟩ := encodeText_eq_data_pads bytes
  refine ⟨encodeText_length bytes, ?count, ?alphabet, ?order, ?zeroFill⟩
  case count =>
    have hdata : (vals.map alphabet).count Config.pad = 0 := by simp [List.count_eq_zero, alphabet_ne_pad]
    change (encodeText bytes).count Config.pad = textPads bytes.length
    rw [htext, List.count_append, hdata, List.count_replicate_self, Nat.zero_add]
  case alphabet =>
    intro c hc
    rw [htext, List.mem_append, List.mem_map, List.mem_replicate] at hc
    rcases hc with ⟨v, -, rfl⟩ | ⟨-, rfl⟩
    · exact .inr ⟨v, rfl⟩
    · exact .inl rfl
  case order =>
    simp only [htext]
    intro i j hij hj hi
    have hdata := (getElem_data_pads_eq_pad_iff (by omega)).mp hi
    exact (getElem_data_pads_eq_pad_iff hj).mpr (by omega)
  case zeroFill =>
    intro h1 h5
    have hle := dataSyms_le bytes.length
    rw [groupValues_getD _ (by omega)]
    exact groupSym_zeroFill bytes

end Sys2Proof.Machine

namespace Sys2Proof.Machine

/-! ### Bytes in memory at ascending addresses (20_memory.md R56) -/

/-- Offsets from an address add up. -/
theorem add_ofNat_add (a : Addr) (i j : Nat) :
    a + BitVec.ofNat 32 i + BitVec.ofNat 32 j = a + BitVec.ofNat 32 (i + j) := by
  rw [BitVec.add_assoc, ← BitVec.ofNat_add]

/-- Neighbouring ranges of at most 2^32 addresses in all have none in common. -/
theorem apart_next (a : Addr) {n k : Nat} (h : n + k ≤ 2 ^ 32) : Apart a n (a + BitVec.ofNat 32 n) k := by
  intro i hi j hj heq
  rw [add_ofNat_add, BitVec.add_right_inj, ← BitVec.toNat_inj, BitVec.toNat_ofNat, BitVec.toNat_ofNat,
    Nat.mod_eq_of_lt (by omega), Nat.mod_eq_of_lt (by omega)] at heq
  omega

/-- Addresses that exist from an offset on. -/
theorem admitted_add {p : Platform} {a : Addr} {i k n : Nat} (h : Admitted p a n) (hl : i + k ≤ n) :
    Admitted p (a + BitVec.ofNat 32 i) k := by
  intro j hj
  rw [add_ofNat_add]
  exact h (i + j) (by omega)

/-- Changes to neighbouring ranges are changes to the whole range. -/
theorem SameOutside.append {m m' m'' : Memory} {a : Addr} {n k : Nat} (h : SameOutside m m' a n)
    (h' : SameOutside m' m'' (a + BitVec.ofNat 32 n) k) : SameOutside m m'' a (n + k) := by
  intro x hx
  have hsecond : m''.read x = m'.read x := h' x fun j hj => by
    rw [add_ofNat_add]
    exact hx (n + j) (by omega)
  exact hsecond.trans (h x fun j hj => hx j (by omega))

/-- Bytes held in one range are held after a change to another. -/
theorem Holds.of_sameOutside {m m' : Memory} {a b : Addr} {bytes : List Byte} {k : Nat} (h : Holds m a bytes)
    (hs : SameOutside m m' b k) (ha : Apart a bytes.length b k) : Holds m' a bytes :=
  fun j hj => (hs _ fun i hi => ha j hj i hi).trans (h j hj)

/-- Bytes held in neighbouring ranges are held side by side. -/
theorem Holds.append {m : Memory} {a : Addr} {xs ys : List Byte} (hx : Holds m a xs)
    (hy : Holds m (a + BitVec.ofNat 32 xs.length) ys) : Holds m a (xs ++ ys) := by
  intro j hj
  rw [List.getElem_append]
  split
  · next h => exact hx j h
  · next h =>
    rw [List.length_append] at hj
    rw [← hy (j - xs.length) (by omega), add_ofNat_add, Nat.add_sub_cancel' (by omega)]

/-- Bytes written after those held, the range not wrapping onto itself, are held with them. -/
theorem Holds.extend {m m' : Memory} {a : Addr} {xs ys : List Byte} {n : Nat} (h : Holds m a xs) (hn : xs.length = n)
    (h' : Holds m' (a + BitVec.ofNat 32 n) ys) (hs : SameOutside m m' (a + BitVec.ofNat 32 n) ys.length)
    (hl : n + ys.length ≤ 2 ^ 32) : Holds m' a (xs ++ ys) := by
  subst hn
  exact (h.of_sameOutside hs (apart_next a hl)).append h'

/-- Bytes of one range read alike after a change to another. -/
theorem SameOutside.bytesAt_eq {m m' : Memory} {a b : Addr} {n k : Nat} (hs : SameOutside m m' b k)
    (ha : Apart a n b k) : m'.bytesAt a n = m.bytesAt a n :=
  List.map_congr_left fun j hj => hs _ fun i hi => ha j (List.mem_range.mp hj) i hi

/-- The bytes at an offset are part of those from the start. -/
theorem Memory.bytesAt_add (m : Memory) (a : Addr) (i k n : Nat) :
    m.bytesAt (a + BitVec.ofNat 32 i) (min k (n - i)) = ((m.bytesAt a n).drop i).take k := by
  refine List.ext_getElem (by simp [Memory.bytesAt]) fun j h1 h2 => ?_
  simp [Memory.bytesAt, add_ofNat_add]

/-! ### The run of an accepted ENCODE (42_encoder.md R143 to R148) -/

/-- What R148 asks of a state that ENCODE has been accepted in: room for the whole text and its terminator, and
addresses that exist and do not overlap. -/
structure EncodeReady (s : State) : Prop where
  accepted : Accepted .encode s
  fits     : encodedLength s.w.len.toNat ≤ s.w.lim.toNat
  source   : Admitted s.platform s.w.src s.w.len.toNat
  dest     : Admitted s.platform s.w.dst (encodedLength s.w.len.toNat)
  apart    : Apart s.w.src s.w.len.toNat s.w.dst (encodedLength s.w.len.toNat)

theorem EncodeReady.encodedLength_lt {s : State} (h : EncodeReady s) : (s.w.len.toNat + 4) / 5 * 8 + 1 < 2 ^ 32 :=
  h.fits.trans_lt s.w.lim.isLt

/-- The source bytes of an accepted ENCODE. -/
def State.source (s : State) : List Byte := s.mem.bytesAt s.w.src s.w.len.toNat

theorem State.source_length (s : State) : s.source.length = s.w.len.toNat := Memory.bytesAt_length ..

/-- The state of an ENCODE accepted in `s` after its guard and `k` groups, with memory and accumulator as they are
then. -/
def State.afterGroups (s : State) (k : Nat) (m : Memory) (acc : Group) : State :=
  { s with
    mem := m,
    w := { s.w with
      phase := .groups, acc := acc, inPos := BitVec.ofNat 32 (min (5 * k) s.w.len.toNat),
      outPos := BitVec.ofNat 32 (8 * k) } }

/-- Memory holds the text of the first `k` groups, and nothing else has changed. -/
structure GroupsWritten (s : State) (k : Nat) (m : Memory) : Prop where
  text : Holds m s.w.dst (encodeText (s.source.take (5 * k)))
  kept : SameOutside s.mem m s.w.dst (8 * k)

/-- With no event to come a running ENCODE that is not stuck takes its engine step. -/
theorem step_encode {s : State} (h : Runs .encode s) (hn : s.stuckAt = none) (hbus : s.bus = []) :
    step s = exec .encode s := by
  have hr : s.w.running = some .encode := by simp [Work.running, h.2, opOf]
  rw [step_nil hbus, State.engineTurn_running hr hn]

/-- Each group but the last gives eight symbols of five bytes. -/
theorem encodeText_take_length {bytes : List Byte} {k : Nat} (h : 5 * k ≤ bytes.length) :
    (encodeText (bytes.take (5 * k))).length = 8 * k := by
  rw [encodeText_length, List.length_take]
  omega

/-- The text of one group more (R148). -/
theorem encodeText_take_succ {bytes : List Byte} {k : Nat} (h : 5 * k < bytes.length) :
    encodeText (bytes.take (5 * (k + 1))) =
      encodeText (bytes.take (5 * k)) ++ encodeGroup ((bytes.drop (5 * k)).take 5) := by
  have hgroup : ((bytes.drop (5 * k)).take 5).length = min 5 (bytes.length - 5 * k) := by simp
  rw [Nat.mul_succ, List.take_add, encodeText_append (by rw [List.length_take]; omega),
    encodeText_of_short (bytes := (bytes.drop (5 * k)).take 5) (by omega) (by omega)]

/-- No group has been taken right after the guard. -/
theorem State.afterGroups_zero {s : State} (hin : s.w.inPos = 0) (hout : s.w.outPos = 0) (m : Memory) (acc : Group) :
    s.afterGroups 0 m acc = { s with mem := m, w := { s.w with phase := .groups, acc := acc } } := by
  simp [State.afterGroups, hin, hout]

/-- While input is left only whole groups have been taken. -/
theorem State.afterGroups_inPos {s : State} {k : Nat} (hk : 5 * k < s.w.len.toNat) (m : Memory) (acc : Group) :
    (s.afterGroups k m acc).w.inPos = BitVec.ofNat 32 (5 * k) := by
  rw [State.afterGroups, Nat.min_eq_left hk.le]

theorem State.afterGroups_inPos_toNat {s : State} {k : Nat} (hk : 5 * k < s.w.len.toNat) (m : Memory) (acc : Group) :
    (s.afterGroups k m acc).w.inPos.toNat = 5 * k := by
  rw [State.afterGroups_inPos hk]
  exact Nat.mod_eq_of_lt (hk.trans s.w.len.isLt)

/-- The bytes of the next group (R145). -/
theorem State.quintetSize_afterGroups {s : State} {k : Nat} (hk : 5 * k < s.w.len.toNat) (m : Memory) (acc : Group) :
    quintetSize (s.afterGroups k m acc).w = min 5 (s.w.len.toNat - 5 * k) := by
  rw [quintetSize, State.afterGroups_inPos_toNat hk]
  rfl

/-- The positions move on by the bytes of the next group and by its eight symbols (R145). -/
theorem State.afterGroups_succ {s : State} {k : Nat} (hk : 5 * k < s.w.len.toNat) (m m' : Memory) (acc acc' : Group) :
    s.afterGroups (k + 1) m' acc' = { s.afterGroups k m acc with
      mem := m',
      w := { (s.afterGroups k m acc).w with
        acc := acc',
        inPos := (s.afterGroups k m acc).w.inPos + BitVec.ofNat 32 (quintetSize (s.afterGroups k m acc).w),
        outPos := (s.afterGroups k m acc).w.outPos + 8 } } := by
  have hin : min (5 * (k + 1)) s.w.len.toNat = 5 * k + min 5 (s.w.len.toNat - 5 * k) := by omega
  rw [State.quintetSize_afterGroups hk, State.afterGroups_inPos hk, ← BitVec.ofNat_add, ← hin]
  simp only [State.afterGroups, Nat.mul_succ, BitVec.ofNat_add]
  rfl

/-- Nothing is written before the first group. -/
theorem GroupsWritten.zero (s : State) : GroupsWritten s 0 s.mem where
  text := fun _ hj => absurd hj (Nat.not_lt_zero _)
  kept := fun _ _ => rfl

/-- The symbols of one group more, stored at the output position (R148). -/
theorem GroupsWritten.succ {s : State} {k : Nat} {m : Memory} (h : GroupsWritten s k m) (hk : 5 * k < s.w.len.toNat)
    (hl : 8 * (k + 1) ≤ 2 ^ 32) (acc : Group) :
    GroupsWritten s (k + 1)
      ((s.afterGroups k m acc).w.store m (encodeGroup ((s.source.drop (5 * k)).take 5))) := by
  rw [← State.source_length] at hk
  have hlen : (encodeGroup ((s.source.drop (5 * k)).take 5)).length = 8 := encodeGroup_length _
  have hheld := (s.afterGroups k m acc).w.holds_store m (hlen.trans_le (by norm_num))
  have hsame := (s.afterGroups k m acc).w.sameOutside_store m (encodeGroup ((s.source.drop (5 * k)).take 5))
  constructor
  · rw [encodeText_take_succ hk]
    exact h.text.extend (encodeText_take_length hk.le) hheld hsame (by omega)
  · rw [hlen] at hsame
    exact h.kept.append hsame

/-- The terminator stored after the symbols of all groups (R148). -/
theorem GroupsWritten.terminate {s : State} {m : Memory} (h : GroupsWritten s (quintetGroups s.w.len.toNat) m)
    (hl : encodedLength s.w.len.toNat < 2 ^ 32) (acc : Group) :
    let m' := (s.afterGroups (quintetGroups s.w.len.toNat) m acc).w.store m [Config.terminator]
    Holds m' s.w.dst (encodeText s.source ++ [0x00]) ∧ SameOutside s.mem m' s.w.dst (encodedLength s.w.len.toNat) := by
  intro m'
  have hheld := (s.afterGroups (quintetGroups s.w.len.toNat) m acc).w.holds_store m
    (show [Config.terminator].length ≤ 2 ^ 32 by decide)
  have hsame := (s.afterGroups (quintetGroups s.w.len.toNat) m acc).w.sameOutside_store m [Config.terminator]
  have hall : s.source.take (5 * quintetGroups s.w.len.toNat) = s.source :=
    List.take_of_length_le (by rw [State.source_length, quintetGroups]; omega)
  have hlen : (encodeText s.source).length = 8 * quintetGroups s.w.len.toNat := by
    rw [encodeText_length, State.source_length, quintetGroups, Nat.mul_comm]
  have htext := h.text
  rw [encodedLength, Nat.mul_comm] at hl ⊢
  rw [hall] at htext
  exact ⟨htext.extend hlen hheld hsame hl.le, h.kept.append hsame⟩

/-- The source bytes of the next group, untouched by the groups written. -/
theorem EncodeReady.bytesAt_group {s : State} (h : EncodeReady s) {k : Nat} (hk : 5 * k < s.w.len.toNat) {m : Memory}
    (hm : GroupsWritten s k m) :
    m.bytesAt (s.w.src + BitVec.ofNat 32 (5 * k)) (min 5 (s.w.len.toNat - 5 * k)) = (s.source.drop (5 * k)).take 5 := by
  have hapart : Apart s.w.src s.w.len.toNat s.w.dst (8 * k) :=
    fun i hi j hj => h.apart i hi j (by rw [encodedLength_eq]; omega)
  rw [Memory.bytesAt_add, hm.kept.bytesAt_eq hapart, State.source]

/-- The first step is the guard, which passes (R144). -/
theorem EncodeReady.step_check {s : State} (h : EncodeReady s) : step s = .next (s.afterGroups 0 s.mem s.w.acc) := by
  obtain ⟨hrun, hphase, hin, hout, hstuck, hbus⟩ := h.accepted
  obtain ⟨-, -, hpass⟩ := encodeGuard s hrun hphase
  rw [step_encode hrun hstuck hbus, hpass h.fits, State.afterGroups_zero hin hout]

/-- Between groups the step is ENCODE's. -/
theorem EncodeReady.step_afterGroups {s : State} (h : EncodeReady s) (k : Nat) (m : Memory) (acc : Group) :
    step (s.afterGroups k m acc) = exec .encode (s.afterGroups k m acc) := by
  obtain ⟨hrun, -, -, -, hstuck, hbus⟩ := h.accepted
  exact step_encode hrun hstuck hbus

/-- One group: the text grows by its symbols, read from source bytes that no group before has touched (R145). -/
theorem EncodeReady.step_group {s : State} (h : EncodeReady s) {k : Nat} (hk : 5 * k < s.w.len.toNat) {m : Memory}
    (hm : GroupsWritten s k m) (acc : Group) :
    ∃ m' acc', step (s.afterGroups k m acc) = .next (s.afterGroups (k + 1) m' acc') ∧ GroupsWritten s (k + 1) m' := by
  have hfits := h.encodedLength_lt
  have hin := State.afterGroups_inPos hk m acc
  have hsize := State.quintetSize_afterGroups hk m acc
  have hlt : (s.afterGroups k m acc).w.inPos < s.w.len := by
    rwa [BitVec.lt_def, State.afterGroups_inPos_toNat hk]
  have hbytes : m.bytesAt (s.w.src + (s.afterGroups k m acc).w.inPos) (quintetSize (s.afterGroups k m acc).w) =
      (s.source.drop (5 * k)).take 5 := by
    rw [hin, hsize, h.bytesAt_group hk hm]
  have hsrc : Admitted s.platform (s.w.src + (s.afterGroups k m acc).w.inPos)
      (quintetSize (s.afterGroups k m acc).w) := by
    rw [hin, hsize]
    exact admitted_add h.source (by omega)
  have hdst : Admitted s.platform (s.w.dst + BitVec.ofNat 32 (8 * k)) 8 :=
    admitted_add h.dest (by rw [encodedLength_eq]; omega)
  refine ⟨_, groupOfBytes ((s.source.drop (5 * k)).take 5), ?_, hm.succ hk (by omega) acc⟩
  rw [h.step_afterGroups, exec_encode_group (by exact h.accepted.1) rfl hlt hbytes hsrc hdst,
    State.afterGroups_succ hk m _ acc]
  rfl

/-- The guard and any number of groups up to the last: BUSY stays 1 (R147). -/
theorem EncodeReady.runSteps_groups {s : State} (h : EncodeReady s) {k : Nat} (hk : k ≤ quintetGroups s.w.len.toNat) :
    ∃ m acc, runSteps (k + 1) s = .next (s.afterGroups k m acc) ∧ GroupsWritten s k m := by
  induction k with
  | zero => exact ⟨s.mem, s.w.acc, runSteps_cons h.step_check, .zero s⟩
  | succ k ih =>
    obtain ⟨m, acc, hrun, hm⟩ := ih (by omega)
    obtain ⟨m', acc', hstep, hm'⟩ := h.step_group (by unfold quintetGroups at hk; omega) hm acc
    exact ⟨m', acc', runSteps_snoc hrun hstep, hm'⟩

/-- The last step: the terminator after the whole text, and the completion (R146). -/
theorem EncodeReady.step_end {s : State} (h : EncodeReady s) {m : Memory}
    (hm : GroupsWritten s (quintetGroups s.w.len.toNat) m) (acc : Group) :
    ∃ t, step (s.afterGroups (quintetGroups s.w.len.toNat) m acc) = .next t ∧
      Completed t .ok (BitVec.ofNat 32 (symbolCount s.w.len.toNat)) 0 ∧
      Holds t.mem s.w.dst (encodeText s.source ++ [0x00]) ∧
      SameOutside s.mem t.mem s.w.dst (encodedLength s.w.len.toNat) := by
  have hin : (s.afterGroups (quintetGroups s.w.len.toNat) m acc).w.inPos = s.w.len := by
    rw [State.afterGroups, Nat.min_eq_right (by rw [quintetGroups]; omega), BitVec.ofNat_toNat, BitVec.setWidth_eq]
  have ha : s.platform.admits (s.w.dst + BitVec.ofNat 32 (8 * quintetGroups s.w.len.toNat)) = true :=
    h.dest _ (by rw [encodedLength, Nat.mul_comm]; exact Nat.lt_succ_self _)
  have hstep := exec_encode_end (s := s.afterGroups (quintetGroups s.w.len.toNat) m acc) h.accepted.1 rfl hin ha
  rw [← Work.store_singleton] at hstep
  refine ⟨_, (h.step_afterGroups _ m acc).trans hstep, ⟨rfl, rfl, rfl, ?_, rfl⟩, hm.terminate h.encodedLength_lt acc⟩
  rw [symbolCount, Nat.mul_comm]
  rfl

/-- Settles O55: the guard, the groups and the last step. -/
theorem encodeRunWritesEncodedText : Obligations.EncodeRunWritesEncodedText := by
  intro s hacc n g bytes hfits hsrc hdst hapart
  have h : EncodeReady s := ⟨hacc, hfits, hsrc, hdst, hapart⟩
  refine ⟨?completes, fun j hj => ?busy⟩
  case completes =>
    obtain ⟨m, acc, hgroups, hm⟩ := h.runSteps_groups le_rfl
    obtain ⟨t, hend, hdone, htext, hkept⟩ := h.step_end hm acc
    refine ⟨t, ?_, hdone, htext, ?_, hkept⟩
    · rw [Nat.add_comm]
      exact runSteps_snoc hgroups hend
    · rw [encodeText_length, Memory.bytesAt_length]
  case busy =>
    cases j with
    | zero => exact ⟨s, rfl, hacc.1.1⟩
    | succ k =>
      obtain ⟨m, acc, hgroups, -⟩ := h.runSteps_groups (k := k) (by unfold quintetGroups; omega)
      exact ⟨_, hgroups, hacc.1.1⟩

end Sys2Proof.Machine

namespace Sys2Proof.Machine

/-! ### DECODE's step over one group (43_decoder.md R172 to R176)

`exec` is said once for each way the step can go: at the limit, at a terminator first, over a group that ends
(`exec_decode_group`) and at a failing symbol (`exec_decode_bad`). -/

/-- Settles O28: the table, evaluated. -/
theorem bytesPerValueCount : Obligations.BytesPerValueCount := rfl

/-- A running DECODE at its limit completes (R172, R175). -/
theorem exec_decode_limit {s : State} (h : Runs .decode s) (hlim : s.w.outPos = s.w.lim) :
    exec .decode s = .next (s.complete .ok s.w.outPos 0) :=
  exec_of_engineProg_complete h (if_pos hlim)

/-- Settles O29: `exec_decode_limit`. -/
theorem decodeCompletesAtLimit : Obligations.DecodeCompletesAtLimit :=
  fun _ h hlim => exec_decode_limit h hlim

/-- A running DECODE that reads a terminator first completes (R175). -/
theorem exec_decode_terminator {s : State} (h : Runs .decode s) (hlim : s.w.outPos ≠ s.w.lim)
    (ha : s.platform.admits (s.w.src + s.w.inPos) = true) (hread : s.mem.read (s.w.src + s.w.inPos) = 0x00) :
    exec .decode s = .next (State.complete { s with w := s.w.freshGroup } .ok s.w.outPos 0) := by
  have hsrc : s.w.freshGroup.srcAt 0 = s.w.src + s.w.inPos := BitVec.add_zero _
  rw [exec_running h.1 h.2, engineProg, decodeProg_below hlim, decodeSymbols_end]
  · rfl
  · rwa [hsrc]
  · rwa [hsrc]

/-- Settles O30: `exec_decode_terminator`. -/
theorem decodeCompletesAtTerminator : Obligations.DecodeCompletesAtTerminator :=
  fun _ h hlim ha hread => ⟨_, exec_decode_terminator h hlim ha hread, rfl, rfl⟩

/-! ### A group none of whose symbols fails (R172 to R174) -/

/-- Whether the classifier takes the character for padding (40_classifier.md R102). -/
def isPadding (c : Byte) : Bool :=
  match classify c with
  | .padding => true
  | .value _ => false
  | .invalid => false

/-- Whether padding has come after the symbols of a list, `p` telling that it had before (R177). -/
def padded (p : Bool) (g : List Byte) : Bool := p || g.any isPadding

@[simp] theorem padded_nil (p : Bool) : padded p [] = p := Bool.or_false p

theorem padded_cons (p : Bool) (c : Byte) (g : List Byte) : padded p (c :: g) = padded (p || isPadding c) g := by
  simp [padded, Bool.or_assoc]

/-- Absorbing symbols marks padding (R177). -/
theorem absorb_pad (g : List Byte) (i : Nat) (w : Work) : (absorb i w g).pad = padded w.pad g := by
  induction g generalizing i w with
  | nil => exact (padded_nil _).symm
  | cons c rest ih =>
    rw [padded_cons, isPadding, absorb]
    cases classify c <;> simp [ih]

/-- The bytes of a group of symbols, cut to the room under the limit (R174). -/
def Work.groupOut (w : Work) (g : List Byte) : List Byte :=
  (decodeGroup g).take (w.lim.toNat - w.outPos.toNat)

/-- A group gives at most five bytes (R173). -/
theorem Work.groupOut_length_le (w : Work) (g : List Byte) : (w.groupOut g).length ≤ 5 :=
  (List.length_take_le' _ _).trans (List.length_take_le' _ _)

/-- The working state after a group of symbols and its bytes (R172). -/
def Work.afterGroup (w : Work) (g : List Byte) : Work :=
  { w with
    acc := groupOfValues (g.map valueOf), pad := padded false g, k := g.countP isValue,
    inPos := w.inPos + BitVec.ofNat 32 g.length, outPos := w.outPos + BitVec.ofNat 32 (w.groupOut g).length }

/-- The state after a group of symbols and its bytes, before a completion (R172). -/
def State.afterGroup (s : State) (g : List Byte) : State :=
  { s with mem := s.w.store s.mem (s.w.groupOut g), w := s.w.afterGroup g }

/-- The state in which DECODE's step over a group leaves the machine: the command goes on after a whole group and
completes after a shorter one, which the terminator ends (R172, R175). -/
def State.groupEnd (s : State) (g : List Byte) : State :=
  if g.length = 8 then s.afterGroup g else (s.afterGroup g).complete .ok (s.w.afterGroup g).outPos 0

@[simp] theorem State.groupEnd_mem (s : State) (g : List Byte) :
    (s.groupEnd g).mem = s.w.store s.mem (s.w.groupOut g) := by
  unfold State.groupEnd
  split <;> rfl

/-- A group's end leaves the working state after the group, IDLE when it completes. -/
theorem State.groupEnd_w (s : State) (g : List Byte) :
    (s.groupEnd g).w = { s.w.afterGroup g with op := if g.length = 8 then s.w.op else .idle } := by
  unfold State.groupEnd
  split <;> rfl

theorem State.groupEnd_whole {s : State} {g : List Byte} (h : g.length = 8) : s.groupEnd g = s.afterGroup g :=
  if_pos h

theorem State.groupEnd_ended {s : State} {g : List Byte} (h : g.length < 8) :
    s.groupEnd g = (s.afterGroup g).complete .ok (s.w.afterGroup g).outPos 0 := if_neg h.ne

/-- What DECODE's next step meets when no symbol of its group `g` fails: it is below its limit, the symbols at the input
position are `g`, eight or with the terminator after them, and the addresses accessed exist. -/
structure MeetsGroup (s : State) (g : List Byte) : Prop where
  runs     : Runs .decode s
  below    : s.w.outPos ≠ s.w.lim
  input    : Holds s.mem (s.w.src + s.w.inPos) g
  symbols  : (0x00 : Byte) ∉ g
  nonempty : g ≠ []
  good     : firstBad false g = none
  ends     : g.length = 8 ∨ (g.length < 8 ∧ s.mem.read (s.w.src + s.w.inPos + BitVec.ofNat 32 g.length) = 0x00)
  source   : Admitted s.platform (s.w.src + s.w.inPos) (min 8 (g.length + 1))
  dest     : Admitted s.platform (s.w.dst + s.w.outPos) (s.w.groupOut g).length

theorem MeetsGroup.length_le {s : State} {g : List Byte} (h : MeetsGroup s g) : g.length ≤ 8 :=
  h.ends.elim Nat.le_of_eq fun hlt => hlt.1.le

/-- The scratch after a group's symbols: the values in place and their number (R173). -/
theorem absorb_freshGroup {g : List Byte} (w : Work) (hl : g.length ≤ 8) (hf : firstBad false g = none) :
    absorb 0 w.freshGroup g = { w with
      acc := groupOfValues (g.map valueOf), pad := padded false g, k := g.countP isValue } := by
  have hacc : (absorb 0 w.freshGroup g).acc = groupOfValues (g.map valueOf) := by
    rw [absorb_acc g 0 _ (by omega) (fun b _ => BitVec.getLsbD_zero) (not_invalid_of_firstBad hf),
      ← foldl_setGroupSym _ (by rwa [List.length_map]), List.zipIdx_map, List.foldl_map]
    rfl
  have hk : (absorb 0 w.freshGroup g).k = g.countP isValue := (absorb_k ..).trans (Nat.zero_add _)
  have hpad : (absorb 0 w.freshGroup g).pad = padded false g := absorb_pad ..
  rw [← hacc, ← hpad, ← hk]
  exact absorb_frame g 0 w.freshGroup

/-- The end of a group of at least one symbol, `out` being the bytes kept (R172). -/
theorem decodeGroupEnd_symbols {w : Work} {count : Nat} {out : List Byte} (hc : count ≠ 0)
    (hout : (List.range (groupBytesKept w)).map (groupByte w.acc) = out) (ended : Bool) :
    decodeGroupEnd w count ended =
      let w' := { w with outPos := w.outPos + BitVec.ofNat 32 out.length, inPos := w.inPos + BitVec.ofNat 32 count }
      writeBytes w (if ended then .complete w' .ok w'.outPos 0 else .goOn w') 0 out := by
  subst hout
  rw [List.length_map, List.length_range]
  exact if_neg hc

/-- The end of a group writes the bytes kept, then goes on or completes (R172). -/
theorem MeetsGroup.decodeGroupEnd_run {s : State} {g : List Byte} (h : MeetsGroup s g) :
    (decodeGroupEnd (absorb 0 s.w.freshGroup g) g.length (decide (g.length < 8))).run s = .next (s.groupEnd g) := by
  have hne : g.length ≠ 0 := fun h0 => h.nonempty (List.length_eq_zero_iff.mp h0)
  have hout : _ = s.w.groupOut g := absorb_freshGroup_bytes g s.w h.length_le h.good
  have hdst (i : Nat) (hi : i < (s.w.groupOut g).length) :
      s.platform.admits ((absorb 0 s.w.freshGroup g).dstAt (0 + i)) = true := by
    rw [absorb_dstAt, Nat.zero_add]
    exact h.dest i hi
  rw [decodeGroupEnd_symbols hne hout, writeBytes_run _ _ _ _ _ hdst, absorb_freshGroup s.w h.length_le h.good]
  rcases h.ends with h8 | ⟨hlt, -⟩
  · rw [State.groupEnd_whole h8, decide_eq_false (by omega)]
    rfl
  · rw [State.groupEnd_ended hlt, decide_eq_true hlt]
    rfl

/-- A running DECODE's step over a group none of whose symbols fails. -/
theorem exec_decode_group {s : State} {g : List Byte} (h : MeetsGroup s g) :
    exec .decode s = .next (s.groupEnd g) := by
  rw [exec_running h.runs.1 h.runs.2, engineProg,
    decodeProg_run_group h.below h.input h.symbols h.good h.ends h.source, h.decodeGroupEnd_run]

/-- Settles O31: `exec_decode_group`, and what its writes leave. -/
theorem decodeGroupStep : Obligations.DecodeGroupStep := by
  intro s g hruns hlim hinput h0 hne hgood hends hsrc out hdst
  have h : MeetsGroup s g := ⟨hruns, hlim, hinput, h0, hne, hgood, hends, hsrc, hdst⟩
  have hlen : out.length ≤ 2 ^ 32 := (s.w.groupOut_length_le g).trans (by norm_num)
  refine ⟨s.groupEnd g, exec_decode_group h, ?_, ?_, ?_, fun h8 => ?_, fun hlt => ?_⟩
  · rw [State.groupEnd_mem]
    exact s.w.holds_store s.mem hlen
  · rw [State.groupEnd_mem]
    exact s.w.sameOutside_store s.mem out
  · rw [State.groupEnd_w, hruns.2]
    rfl
  · rw [State.groupEnd_whole h8]
    rfl
  · rw [State.groupEnd_ended hlt]
    rfl

/-! ### A failing symbol (R176) -/

/-- The first failing symbol of a list continued: one of the list, or one of those after it. -/
theorem firstBad_append (p : Bool) (g rest : List Byte) :
    firstBad p (g ++ rest) = (firstBad p g).or ((firstBad (padded p g) rest).map (· + g.length)) := by
  induction g generalizing p with
  | nil => simp [firstBad]
  | cons c g ih =>
    simp only [List.cons_append, firstBad, padded_cons, isPadding]
    cases classify c with
    | invalid => rfl
    | padding => simp [ih, Option.map_or, Nat.add_assoc, Function.comp_def]
    | value v => cases p <;> simp [ih, Option.map_or, Nat.add_assoc, Function.comp_def]

/-- A failing symbol is one of the list. -/
theorem firstBad_lt {p : Bool} {g : List Byte} {n : Nat} (h : firstBad p g = some n) : n < g.length := by
  have later {q : Bool} {c : Byte} {g : List Byte} (ih : ∀ {p n}, firstBad p g = some n → n < g.length) {n : Nat}
      (h : (firstBad q g).map (· + 1) = some n) : n < (c :: g).length := by
    obtain ⟨m, hm, rfl⟩ := Option.map_eq_some_iff.mp h
    exact Nat.succ_lt_succ (ih hm)
  induction g generalizing p n with
  | nil => cases h
  | cons c g ih =>
    rw [firstBad] at h
    split at h
    · cases h
      exact Nat.succ_pos _
    · exact later ih h
    · split at h
      · cases h
        exact Nat.succ_pos _
      · exact later ih h

/-- The symbol after a list is the first that fails exactly when none of the list does and it does after them. -/
theorem firstBad_concat_eq_some_iff (p : Bool) (g : List Byte) (c : Byte) :
    firstBad p (g ++ [c]) = some g.length ↔ firstBad p g = none ∧ firstBad (padded p g) [c] = some 0 := by
  rw [firstBad_append]
  cases hg : firstBad p g with
  | none => simp
  | some m => simpa using (firstBad_lt hg).ne

/-- After a list none of whose symbols fails, the next one fails or none does yet. -/
theorem firstBad_concat_of_good {p : Bool} {g : List Byte} (h : firstBad p g = none) (c : Byte) :
    firstBad p (g ++ [c]) = none ∨ firstBad p (g ++ [c]) = some g.length := by
  rw [firstBad_append, h]
  cases hc : firstBad (padded p g) [c] with
  | none => exact .inl rfl
  | some n =>
    have hn : n = 0 := Nat.lt_one_iff.mp (firstBad_lt hc)
    exact .inr (by simp [hn])

theorem Holds.left {m : Memory} {a : Addr} {xs ys : List Byte} (h : Holds m a (xs ++ ys)) : Holds m a xs := by
  intro j hj
  rw [h j (by rw [List.length_append]; omega), List.getElem_append_left hj]

/-- Bytes and one more are held exactly when the bytes are and the one is after them. -/
theorem holds_concat_iff {m : Memory} {a : Addr} {g : List Byte} {c : Byte} :
    Holds m a (g ++ [c]) ↔ Holds m a g ∧ m.read (a + BitVec.ofNat 32 g.length) = c where
  mp h := by
    refine ⟨h.left, ?_⟩
    rw [h g.length (by simp), List.getElem_concat_length rfl]
  mpr := by
    rintro ⟨hg, hc⟩
    refine hg.append fun j hj => ?_
    obtain rfl : j = 0 := Nat.lt_one_iff.mp hj
    rw [List.getElem_singleton, ← hc, BitVec.add_zero]

/-- A running DECODE below its limit completes at the symbol `c` that fails after the symbols `g` of its group. -/
theorem exec_decode_bad {s : State} {g : List Byte} {c : Byte} (h : Runs .decode s) (hlim : s.w.outPos ≠ s.w.lim)
    (hinput : Holds s.mem (s.w.src + s.w.inPos) (g ++ [c])) (h0 : (0x00 : Byte) ∉ g ++ [c]) (hl : g.length < 8)
    (hf : firstBad false (g ++ [c]) = some g.length)
    (ha : Admitted s.platform (s.w.src + s.w.inPos) (g.length + 1)) :
    exec .decode s = .next (State.complete { s with w := absorb 0 s.w.freshGroup g } .invalidSymbol s.w.outPos
      (s.w.inPos + BitVec.ofNat 32 g.length)) := by
  obtain ⟨hg, hc⟩ := holds_concat_iff.mp hinput
  obtain ⟨hgood, hbad⟩ := (firstBad_concat_eq_some_iff false g c).mp hf
  rw [List.mem_append, List.mem_singleton, not_or] at h0
  have hsrc : (absorb 0 s.w.freshGroup g).srcAt g.length = s.w.src + s.w.inPos + BitVec.ofNat 32 g.length :=
    absorb_srcAt ..
  have hpad : (absorb 0 s.w.freshGroup g).pad = padded false g := absorb_pad ..
  have hout : (absorb 0 s.w.freshGroup g).outPos = s.w.outPos := by rw [absorb_frame]; rfl
  have hin : (absorb 0 s.w.freshGroup g).inPos = s.w.inPos := by rw [absorb_frame]; rfl
  rw [exec_running h.1 h.2, engineProg,
    decodeProg_run_good hlim hl.le (fun j hj => ha j (Nat.lt_succ_of_lt hj)) hg h0.1 hgood,
    show 8 - g.length = 7 - g.length + 1 by omega, decodeSymbols_bad _ _ _ _ c, hout, hin]
  · rw [hsrc]
    exact ha _ (Nat.lt_succ_self _)
  · rw [hsrc, hc]
  · exact Ne.symm h0.2
  · rw [hpad, hbad]

/-- Settles O32: `exec_decode_bad` on the group's last symbol. -/
theorem decodeFailsAtFirstBadSymbol : Obligations.DecodeFailsAtFirstBadSymbol := by
  intro s g n h hlim hinput h0 hlen hn hf ha
  rcases List.eq_nil_or_concat' g with rfl | ⟨g, c, rfl⟩
  · cases hf
  · obtain rfl : g.length = n := by simpa using hlen
    refine ⟨_, exec_decode_bad h hlim hinput h0 hn hf (by rwa [hlen] at ha), rfl, ?_⟩
    rw [absorb_frame]
    rfl

/-! ### All DECODE's step can do (R175) -/

/-- Symbols at an address none of which fails or is the terminator. -/
structure GoodSymbols (m : Memory) (a : Addr) (g : List Byte) : Prop where
  held    : Holds m a g
  symbols : (0x00 : Byte) ∉ g
  good    : firstBad false g = none

/-- Up to any number of symbols, those at an address go on until the terminator or a failing symbol. -/
theorem exists_goodSymbols (m : Memory) (a : Addr) (n : Nat) :
    ∃ g, GoodSymbols m a g ∧ g.length ≤ n ∧
      (g.length = n ∨ m.read (a + BitVec.ofNat 32 g.length) = 0x00 ∨
        m.read (a + BitVec.ofNat 32 g.length) ≠ 0x00 ∧
          firstBad false (g ++ [m.read (a + BitVec.ofNat 32 g.length)]) = some g.length) := by
  induction n with
  | zero => exact ⟨[], ⟨fun _ hj => absurd hj (Nat.not_lt_zero _), List.not_mem_nil, rfl⟩, le_rfl, .inl rfl⟩
  | succ n ih =>
    obtain ⟨g, hg, hle, hfull | hstop⟩ := ih
    · by_cases h0 : m.read (a + BitVec.ofNat 32 g.length) = 0x00
      · exact ⟨g, hg, by omega, .inr (.inl h0)⟩
      · rcases firstBad_concat_of_good hg.good (m.read (a + BitVec.ofNat 32 g.length)) with hgood | hbad
        · have hheld := holds_concat_iff.mpr ⟨hg.held, rfl⟩
          refine ⟨g ++ [m.read (a + BitVec.ofNat 32 g.length)], ⟨hheld, ?_, hgood⟩, ?_⟩
          · rw [List.mem_append, List.mem_singleton, not_or]
            exact ⟨hg.symbols, Ne.symm h0⟩
          · simp [hfull]
        · exact ⟨g, hg, by omega, .inr (.inr ⟨h0, hbad⟩)⟩
    · exact ⟨g, hg, by omega, .inr hstop⟩

/-- The states in which DECODE's step can leave the machine (R172). -/
inductive DecodeStep (s : State) : State → Prop where
  | limit (h : s.w.outPos = s.w.lim) : DecodeStep s (s.complete .ok s.w.outPos 0)
  | terminator (h : s.w.outPos ≠ s.w.lim) (hread : s.mem.read (s.w.src + s.w.inPos) = 0x00) :
      DecodeStep s (State.complete { s with w := s.w.freshGroup } .ok s.w.outPos 0)
  | group {g : List Byte} (h : MeetsGroup s g) : DecodeStep s (s.groupEnd g)
  | bad {g : List Byte} {c : Byte} (h : s.w.outPos ≠ s.w.lim) (hinput : Holds s.mem (s.w.src + s.w.inPos) (g ++ [c]))
      (hf : firstBad false (g ++ [c]) = some g.length) :
      DecodeStep s (State.complete { s with w := absorb 0 s.w.freshGroup g } .invalidSymbol s.w.outPos
        (s.w.inPos + BitVec.ofNat 32 g.length))

/-- With every address existing DECODE's step is one of these. -/
theorem exec_decode_cases {s : State} (h : Runs .decode s) (ha : ∀ a, s.platform.admits a = true) :
    ∃ t, exec .decode s = .next t ∧ DecodeStep s t := by
  by_cases hlim : s.w.outPos = s.w.lim
  · exact ⟨_, exec_decode_limit h hlim, .limit hlim⟩
  by_cases hread : s.mem.read (s.w.src + s.w.inPos) = 0x00
  · exact ⟨_, exec_decode_terminator h hlim (ha _) hread, .terminator hlim hread⟩
  obtain ⟨g, ⟨hheld, hsymbols, hgood⟩, hle, hend⟩ := exists_goodSymbols s.mem (s.w.src + s.w.inPos) 8
  have group (hne : g ≠ []) (hends) : MeetsGroup s g :=
    ⟨h, hlim, hheld, hsymbols, hne, hgood, hends, fun _ _ => ha _, fun _ _ => ha _⟩
  by_cases h8 : g.length = 8
  · have hg := group (fun hnil => by simp [hnil] at h8) (.inl h8)
    exact ⟨_, exec_decode_group hg, .group hg⟩
  have hlt : g.length < 8 := by omega
  rcases hend.resolve_left h8 with hterm | ⟨hne, hbad⟩
  · have hg := group (fun hnil => hread (by simpa [hnil] using hterm)) (.inr ⟨hlt, hterm⟩)
    exact ⟨_, exec_decode_group hg, .group hg⟩
  · have hinput := holds_concat_iff.mpr ⟨hheld, rfl⟩
    refine ⟨_, exec_decode_bad h hlim hinput ?_ hlt hbad fun _ _ => ha _, .bad hlim hinput hbad⟩
    rw [List.mem_append, List.mem_singleton, not_or]
    exact ⟨hsymbols, Ne.symm hne⟩

/-! ### The three completions with OK (R175) -/

/-- The machine on a platform on which every address exists. -/
def State.everywhere (s : State) : State := { s with platform := { s.platform with absent := [] } }

theorem State.admits_everywhere (s : State) (a : Addr) : s.everywhere.platform.admits a = true := rfl

/-- A step that is taken is taken alike where more addresses exist (20_memory.md R51). -/
theorem EngineProg.run_everywhere (p : EngineProg) {s t : State} (h : p.run s = .next t) :
    p.run s.everywhere = .next t.everywhere := by
  induction p generalizing s with
  | read a next ih =>
    simp only [EngineProg.run] at h
    split at h
    · rw [EngineProg.run_read (s.admits_everywhere a)]
      exact ih _ h
    · cases h
  | write a v next ih =>
    simp only [EngineProg.run] at h
    split at h
    · rw [EngineProg.run_write (s.admits_everywhere a)]
      exact ih h
    · cases h
  | goOn w =>
    cases h
    rfl
  | complete w c r e =>
    cases h
    rfl

theorem exec_everywhere {i : Instr} {s t : State} (hr : Runs i s) (h : exec i s = .next t) :
    exec i s.everywhere = .next t.everywhere := by
  rw [exec_running hr.1 hr.2] at h
  exact (exec_running (s := s.everywhere) hr.1 hr.2).trans (EngineProg.run_everywhere _ h)

/-- What a DECODE step that completes with OK has come to: the limit, a terminator first, or one after a group. -/
theorem DecodeStep.ok_cases {s t : State} (h : DecodeStep s t) (hb : s.busy = true) (ht : t.busy = false)
    (hok : t.code = .ok) :
    (s.w.outPos = s.w.lim ∨ (s.w.outPos ≠ s.w.lim ∧ s.mem.read (s.w.src + s.w.inPos) = 0x00) ∨
      (s.w.outPos ≠ s.w.lim ∧ ∃ g, MeetsGroup s g ∧ g.length < 8)) ∧
    t.result = t.w.outPos ∧ t.errPos = 0 := by
  cases h with
  | limit h => exact ⟨.inl h, rfl, rfl⟩
  | terminator h hread => exact ⟨.inr (.inl ⟨h, hread⟩), rfl, rfl⟩
  | @group g h =>
    rcases h.ends with h8 | ⟨hlt, -⟩
    · rw [State.groupEnd_whole h8] at ht
      exact nomatch hb.symm.trans ht
    · rw [State.groupEnd_ended hlt]
      exact ⟨.inr (.inr ⟨h.below, g, h, hlt⟩), rfl, rfl⟩
  | bad => cases hok

/-- Settles O33: a step that is taken is taken alike where every address exists, and there `exec_decode_cases` says what
it can be, and `exec_decode_limit`, `exec_decode_terminator` and `exec_decode_group` what it is in each case. -/
theorem decodeOkInExactlyThreeCases : Obligations.DecodeOkInExactlyThreeCases := by
  intro s t h ht ends
  have htaken := exec_everywhere h ht
  have answer {u : State} (hu : exec .decode s.everywhere = .next u) : t = { u with platform := t.platform } := by
    rw [htaken] at hu
    cases hu
    rfl
  have limit (hlim : s.w.outPos = s.w.lim) := answer (exec_decode_limit (s := s.everywhere) h hlim)
  have terminator (hlim : s.w.outPos ≠ s.w.lim) (hread : s.mem.read (s.w.src + s.w.inPos) = 0x00) :=
    answer (exec_decode_terminator (s := s.everywhere) h hlim (s.admits_everywhere _) hread)
  have group {g : List Byte} (hlim : s.w.outPos ≠ s.w.lim) (hne : g ≠ []) (hends : ends g) :
      t = { (s.everywhere.afterGroup g).complete .ok (s.w.afterGroup g).outPos 0 with platform := t.platform } := by
    obtain ⟨hinput, hlt, h0, hgood, hread⟩ := hends
    have hmeets : MeetsGroup s.everywhere g := ⟨h, hlim, hinput, h0, hne, hgood, .inr ⟨hlt, hread⟩,
      fun _ _ => s.admits_everywhere _, fun _ _ => s.admits_everywhere _⟩
    exact answer ((exec_decode_group hmeets).trans (congrArg _ (State.groupEnd_ended hlt)))
  have hstep : DecodeStep s.everywhere t.everywhere := by
    obtain ⟨u, hu, hstep⟩ := exec_decode_cases (s := s.everywhere) h s.admits_everywhere
    rw [htaken] at hu
    cases hu
    exact hstep
  refine ⟨⟨fun ⟨hb, hok⟩ => ?cases, ?completes⟩, fun hb hok => (hstep.ok_cases h.1 hb hok).2,
    fun hor => ?nothing, fun g hlim hne hends => ?bytes⟩
  case cases =>
    obtain ⟨hlim | hterm | ⟨hlim, g, hg, hlt⟩, -⟩ := hstep.ok_cases h.1 hb hok
    · exact .inl hlim
    · exact .inr (.inl hterm)
    · have hread := (hg.ends.resolve_left hlt.ne).2
      exact .inr (.inr ⟨hlim, g, hg.nonempty, hg.input, hlt, hg.symbols, hg.good, hread⟩)
  case completes =>
    rintro (hlim | ⟨hlim, hread⟩ | ⟨hlim, g, hne, hends⟩)
    · rw [limit hlim]
      exact ⟨rfl, rfl⟩
    · rw [terminator hlim hread]
      exact ⟨rfl, rfl⟩
    · rw [group hlim hne hends]
      exact ⟨rfl, rfl⟩
  case nothing =>
    by_cases hlim : s.w.outPos = s.w.lim
    · rw [limit hlim]
      exact ⟨rfl, rfl⟩
    · rw [terminator hlim (hor.resolve_left hlim)]
      exact ⟨rfl, rfl⟩
  case bytes =>
    rw [group hlim hne hends]
    exact ⟨rfl, s.w.holds_store s.mem ((s.w.groupOut_length_le g).trans (by norm_num))⟩

/-! ### Padding without a terminator (R184) -/

/-- With no event to come a running DECODE that is not stuck takes its engine step. -/
theorem step_decode {s : State} (h : Runs .decode s) (hn : s.stuckAt = none) (hbus : s.bus = []) :
    step s = exec .decode s := by
  have hr : s.w.running = some .decode := by simp [Work.running, h.2, opOf]
  rw [step_nil hbus, State.engineTurn_running hr hn]

/-- A whole group of padding. -/
def padGroup : List Byte := List.replicate 8 Config.pad

theorem padGroup_bytes : decodeGroup padGroup = [] := rfl

/-- DECODE's next step meets a group of padding. -/
theorem meetsGroup_padGroup {s : State} (h : Runs .decode s) (hlim : s.w.outPos ≠ s.w.lim)
    (hpad : ∀ i < 8, s.platform.admits (s.w.src + s.w.inPos + BitVec.ofNat 32 i) = true ∧
      s.mem.read (s.w.src + s.w.inPos + BitVec.ofNat 32 i) = 0x3D) : MeetsGroup s padGroup where
  runs     := h
  below    := hlim
  input    := fun j hj => (hpad j hj).2.trans (List.getElem_replicate hj).symm
  symbols  := by decide
  nonempty := by decide
  good     := rfl
  ends     := .inl rfl
  source   := fun j hj => (hpad j hj).1
  dest     := fun _ hj => absurd hj (by simp [Work.groupOut, padGroup_bytes])

/-- The machine after a group of padding: the input position has moved on, and the scratch is the group's (R177). -/
def State.afterPadGroup (s : State) : State :=
  { s with w := { s.w with acc := 0, pad := true, k := 0, inPos := s.w.inPos + BitVec.ofNat 32 8 } }

/-- A group of padding writes nothing (R184). -/
theorem State.groupEnd_padGroup (s : State) : s.groupEnd padGroup = s.afterPadGroup := by
  have hout : s.w.groupOut padGroup = [] := by rw [Work.groupOut, padGroup_bytes, List.take_nil]
  have hw : s.w.afterGroup padGroup = s.afterPadGroup.w := by
    simp only [Work.afterGroup, hout, List.length_nil, BitVec.add_zero]
    rfl
  rw [State.groupEnd_whole rfl, State.afterGroup, hw, hout]
  rfl

/-- Settles O34: each group of padding is whole and moves the input position only. -/
theorem paddingWithoutTerminatorHangs : Obligations.PaddingWithoutTerminatorHangs := by
  intro n
  induction n with
  | zero => exact fun s _ h _ _ _ => ⟨s, rfl, h, rfl, (BitVec.add_zero _).symm, rfl⟩
  | succ n ih =>
    intro s hbus h hn hlim hpad
    have hstep : step s = .next s.afterPadGroup := by
      rw [step_decode h hn hbus, exec_decode_group (meetsGroup_padGroup h hlim fun i hi => hpad i (by omega)),
        State.groupEnd_padGroup]
    have hpos : s.afterPadGroup.w.inPos = s.w.inPos + BitVec.ofNat 32 8 := rfl
    obtain ⟨t, hrun, ht, hmem, hin, hout⟩ := ih s.afterPadGroup hbus h hn hlim fun i hi => by
      rw [hpos, ← BitVec.add_assoc, add_ofNat_add]
      exact hpad (8 + i) (by omega)
    refine ⟨t, (runSteps_cons hstep).trans hrun, ht, hmem, ?_, hout⟩
    rw [hin, hpos, add_ofNat_add, Nat.mul_succ, Nat.add_comm]

end Sys2Proof.Machine

namespace Sys2Proof.Machine

/-! ### Decoding what encoding gives, on whole texts (43_decoder.md R180, R181)

A group decodes to the bytes it was encoded from (`decodeGroup_encodeGroup`), because its data bits are reassembled in
place and the zero fill as zero; the loop of `decode_fn` then takes the text of `encode` group by group. -/

@[simp] theorem valueOf_alphabet (v : SymVal) : valueOf (alphabet v) = v := by
  rw [valueOf, classify_alphabet]

@[simp] theorem valueOf_pad : valueOf Config.pad = 0 := rfl

@[simp] theorem isValue_alphabet (v : SymVal) : isValue (alphabet v) = true := by
  rw [isValue, classify_alphabet]

@[simp] theorem isValue_pad : isValue Config.pad = false := rfl

/-- Padding does not fail. -/
theorem firstBad_pads (p : Bool) (n : Nat) : firstBad p (List.replicate n Config.pad) = none := by
  induction n generalizing p with
  | zero => rfl
  | succ n ih => simp only [List.replicate_succ, firstBad, classify_pad, ih, Option.map_none]

/-- No symbol of data followed by padding fails (R176). -/
theorem firstBad_data_pads (vals : List SymVal) (n : Nat) :
    firstBad false (vals.map alphabet ++ List.replicate n Config.pad) = none := by
  induction vals with
  | nil => exact firstBad_pads false n
  | cons v vals ih => simpa [firstBad] using ih

/-- The value symbols of data followed by padding are the data. -/
theorem countP_isValue_data_pads (vals : List SymVal) (n : Nat) :
    (vals.map alphabet ++ List.replicate n Config.pad).countP isValue = vals.length := by
  simp [List.countP_map, Function.comp_def, List.countP_replicate]

/-- No symbol that ENCODE writes for a group fails. -/
theorem firstBad_encodeGroup (bytes : List Byte) : firstBad false (encodeGroup bytes) = none :=
  firstBad_data_pads _ _

/-- The bytes of five bytes side by side are these, absent ones zero (10_state.md R33). -/
theorem groupByte_groupOfBytes (bytes : List Byte) {j : Nat} (hj : j < 5) :
    groupByte (groupOfBytes bytes) j = bytes.getD j 0 := by
  refine BitVec.eq_of_getLsbD_eq fun i hi => ?_
  rw [groupByte, BitVec.getLsbD_extractLsb', groupOfBytes_bit _ (by omega), decide_eq_true hi, Bool.true_and,
    show 4 - (32 - 8 * j + i) / 8 = j by omega, show (32 - 8 * j + i) % 8 = i by omega]

theorem groupBytesOf_eq_map (acc : Group) : groupBytesOf acc = (List.range 5).map (groupByte acc) := rfl

/-- The first bytes of a group are the bytes it was made of (R142, R173). -/
theorem groupBytesOf_groupOfBytes_take {bytes : List Byte} (h : bytes.length ≤ 5) :
    (groupBytesOf (groupOfBytes bytes)).take bytes.length = bytes := by
  refine List.ext_getElem (by simpa [groupBytesOf_eq_map] using h) fun j _ hj => ?_
  simp only [groupBytesOf_eq_map, List.getElem_take, List.getElem_map, List.getElem_range]
  rw [groupByte_groupOfBytes bytes (by omega), List.getD_eq_getElem _ _ hj]

/-- The bits of the value symbols of a group (R33). -/
theorem groupSym_bit (acc : Group) {b : Nat} (hb : b < 40) :
    (groupSym acc (7 - b / 5)).getLsbD (b % 5) = acc.getLsbD b := by
  rw [groupSym, BitVec.getLsbD_extractLsb', decide_eq_true (Nat.mod_lt _ (by norm_num)), Bool.true_and,
    show 35 - 5 * (7 - b / 5) + b % 5 = b by omega]

/-- The first values of a group, zero after them, reassemble to a group whose other bits are zero (R173). -/
theorem groupOfValues_take_groupValues {acc : Group} {d : Nat} (h : ∀ b < 40 - 5 * d, acc.getLsbD b = false) :
    groupOfValues ((groupValues acc).take d ++ List.replicate (8 - d) 0) = acc := by
  refine BitVec.eq_of_getLsbD_eq fun b hb => ?_
  have hlen : (groupValues acc).length = 8 := rfl
  rw [groupOfValues_bit _ hb]
  by_cases hd : 7 - b / 5 < d
  · have htake : ((groupValues acc).take d).getD (7 - b / 5) 0 = (groupValues acc).getD (7 - b / 5) 0 := by
      rw [List.getD_eq_getElem?_getD, List.getElem?_take_of_lt hd, List.getD_eq_getElem?_getD]
    rw [List.getD_append _ _ _ _ (by rw [List.length_take]; omega), htake, groupValues_getD acc (by omega),
      groupSym_bit acc hb]
  · rw [List.getD_append_right _ _ _ _ (by rw [List.length_take]; omega), h b (by omega)]
    simp

/-- The data symbols of a group hold its bytes, and no byte more (R141, R181). -/
theorem bytesOfValues_dataSyms {n : Nat} (h : n ≤ 5) : bytesOfValues (dataSyms n) = n := by
  interval_cases n <;> rfl

/-- The symbols of a group decode to the bytes it was encoded from (R181). -/
theorem decodeGroup_encodeGroup {bytes : List Byte} (h : bytes.length ≤ 5) :
    decodeGroup (encodeGroup bytes) = bytes := by
  have hd := dataSyms_le bytes.length
  have hfit := bytesOfValues_dataSyms h
  have hvalues : (encodeGroup bytes).map valueOf =
      (groupValues (groupOfBytes bytes)).take (dataSyms bytes.length) ++
        List.replicate (8 - dataSyms bytes.length) 0 := by
    simp [encodeGroup, Function.comp_def]
  have hcount : (encodeGroup bytes).countP isValue = dataSyms bytes.length :=
    (countP_isValue_data_pads _ _).trans (List.length_take_of_le hd)
  have hzero : ∀ b < 40 - 5 * dataSyms bytes.length, (groupOfBytes bytes).getLsbD b = false := fun b hb =>
    groupOfBytes_bit_absent (by unfold bytesOfValues at hfit; omega)
  rw [decodeGroup, hvalues, groupOfValues_take_groupValues hzero, hcount, hfit, groupBytesOf_groupOfBytes_take h]

/-! ### The loop of `decode_fn` over an encoded text -/

/-- A text that is not empty begins with the symbols of its first group (R148). -/
theorem encodeText_eq_group_append {bytes : List Byte} (h : bytes ≠ []) :
    encodeText bytes = encodeGroup (bytes.take 5) ++ encodeText (bytes.drop 5) := by
  have hpos : 1 ≤ bytes.length := List.length_pos_iff.mpr h
  rw [← encodeText_of_short (bytes := bytes.take 5) (by rw [List.length_take]; omega) (List.length_take_le _ _)]
  by_cases h5 : 5 ≤ bytes.length
  · rw [← encodeText_append (by rw [List.length_take_of_le h5]), List.take_append_drop]
  · rw [List.take_of_length_le (by omega), List.drop_eq_nil_of_le (by omega), encodeText, List.append_nil]

/-- At the limit the loop ends (R180). -/
theorem decodeLoop_limit {limit : Nat} {out : List Byte} (h : out.length = limit) (fuel pos : Nat) (text : List Byte) :
    decodeLoop limit (fuel + 1) out pos text = some { code := .ok, out := out, errPos := 0 } := if_pos h

/-- At the end of the text the loop ends (R180). -/
theorem decodeLoop_nil (limit fuel : Nat) (out : List Byte) (pos : Nat) :
    decodeLoop limit (fuel + 1) out pos [] = some { code := .ok, out := out, errPos := 0 } := by
  simp [decodeLoop]

/-- A round over a whole group none of whose symbols fails (R180). -/
theorem decodeLoop_group {limit fuel pos : Nat} {out g rest : List Byte} (hlim : out.length ≠ limit)
    (h8 : g.length = 8) (hf : firstBad false g = none) :
    decodeLoop limit (fuel + 1) out pos (g ++ rest) =
      decodeLoop limit fuel (out ++ (decodeGroup g).take (limit - out.length)) (pos + 8) rest := by
  have htake : (g ++ rest).take 8 = g := by rw [← h8, List.take_left]
  have hdrop : (g ++ rest).drop 8 = rest := by rw [← h8, List.drop_left]
  have hne : g ≠ [] := fun h => by simp [h] at h8
  simp [decodeLoop, hlim, htake, hdrop, hne, hf, h8]

/-- From any round on, the loop gives back the bytes of the text to come, cut to the room left. -/
theorem decodeLoop_encodeText {limit fuel pos : Nat} {out bytes : List Byte} (hfuel : quintetGroups bytes.length < fuel)
    (hroom : out.length ≤ limit) :
    decodeLoop limit fuel out pos (encodeText bytes) =
      some { code := .ok, out := out ++ bytes.take (limit - out.length), errPos := 0 } := by
  induction fuel generalizing out pos bytes with
  | zero => exact absurd hfuel (Nat.not_lt_zero _)
  | succ fuel ih =>
    by_cases hlim : out.length = limit
    · rw [decodeLoop_limit hlim, hlim, Nat.sub_self, List.take_zero, List.append_nil]
    by_cases hnil : bytes = []
    · rw [hnil, encodeText, decodeLoop_nil, List.take_nil, List.append_nil]
    have hpos : 0 < bytes.length := List.length_pos_iff.mpr hnil
    have hcut : bytes.take (limit - out.length) = (bytes.take 5).take (limit - out.length) ++
        (bytes.drop 5).take (limit - (out ++ (bytes.take 5).take (limit - out.length)).length) := by
      conv_lhs => rw [← List.take_append_drop 5 bytes, List.take_append]
      congr 2
      simp only [List.length_append, List.length_take]
      omega
    rw [encodeText_eq_group_append hnil, decodeLoop_group hlim (encodeGroup_length _) (firstBad_encodeGroup _),
      decodeGroup_encodeGroup (List.length_take_le _ _), ih, hcut, List.append_assoc]
    · rw [List.length_drop, quintetGroups]
      rw [quintetGroups] at hfuel
      omega
    · rw [List.length_append, List.length_take]
      omega

/-- Settles O57: the loop over the whole text, the fuel of `decode_fn` being above its number of groups. -/
theorem decodeTextInvertsEncodeText : Obligations.DecodeTextInvertsEncodeText := by
  intro bytes limit
  have hfuel : quintetGroups bytes.length < (encodeText bytes).length / 8 + 2 := by
    rw [encodeText_length, quintetGroups]
    omega
  rw [decodeText, decodeLoop_encodeText hfuel (Nat.zero_le _)]
  rfl

end Sys2Proof.Machine

namespace Sys2Proof.Machine

/-! ### The run of an accepted DECODE (43_decoder.md R171, R180, R181) -/

/-- What R180 asks of a state that DECODE has been accepted in: a text and its terminator at the source, and addresses,
`n` of them at the destination, that exist and do not overlap. -/
structure DecodeReady (s : State) (text : List Byte) (n : Nat) : Prop where
  accepted : Accepted .decode s
  input    : Holds s.mem s.w.src (text ++ [0x00])
  symbols  : (0x00 : Byte) ∉ text
  source   : Admitted s.platform s.w.src (text.length + 1)
  dest     : Admitted s.platform s.w.dst n
  apart    : Apart s.w.src (text.length + 1) s.w.dst n

/-- The state of a DECODE accepted in `s` after `pos` symbols and the bytes `out`, with memory as it is then and the
group's scratch as in `v`. -/
def State.decodingAt (s : State) (v : Work) (m : Memory) (pos : Nat) (out : List Byte) : State :=
  { s with
    mem := m,
    w := { s.w with
      acc := v.acc, pad := v.pad, k := v.k, inPos := BitVec.ofNat 32 pos, outPos := BitVec.ofNat 32 out.length } }

/-- Memory holds the bytes `out` decoded so far, which fit under the limit, and nothing else has changed. -/
structure BytesDecoded (s : State) (out : List Byte) (m : Memory) : Prop where
  room : out.length ≤ s.w.lim.toNat
  held : Holds m s.w.dst out
  kept : SameOutside s.mem m s.w.dst out.length

/-- Nothing is written before the first group. -/
theorem BytesDecoded.nil (s : State) : BytesDecoded s [] s.mem where
  room := Nat.zero_le _
  held := fun _ hj => absurd hj (Nat.not_lt_zero _)
  kept := fun _ _ => rfl

/-- The bytes of one group more, stored at the output position (R174). -/
theorem BytesDecoded.append {s : State} {out new : List Byte} {m : Memory} (h : BytesDecoded s out m)
    (hroom : out.length + new.length ≤ s.w.lim.toNat) (v : Work) (pos : Nat) :
    BytesDecoded s (out ++ new) ((s.decodingAt v m pos out).w.store m new) := by
  have hlim : out.length + new.length ≤ 2 ^ 32 := hroom.trans s.w.lim.isLt.le
  have hheld := (s.decodingAt v m pos out).w.holds_store m (bytes := new) (by omega)
  have hsame := (s.decodingAt v m pos out).w.sameOutside_store m new
  constructor
  · rwa [List.length_append]
  · exact h.held.extend rfl hheld hsame hlim
  · rw [List.length_append]
    exact h.kept.append hsame

/-- A DECODE starts with nothing read and nothing written (R80). -/
theorem State.decodingAt_zero {s : State} (hin : s.w.inPos = 0) (hout : s.w.outPos = 0) :
    s.decodingAt s.w s.mem 0 [] = s := by
  have hw {w : Work} {i o : Word} (hi : w.inPos = i) (ho : w.outPos = o) : { w with inPos := i, outPos := o } = w := by
    rw [← hi, ← ho]
  exact congrArg (fun w => { s with w := w }) (hw hin hout)

/-- The output position counts the bytes decoded. -/
theorem BytesDecoded.outPos_toNat {s : State} {out : List Byte} {m : Memory} (h : BytesDecoded s out m) (v : Work)
    (pos : Nat) : (s.decodingAt v m pos out).w.outPos.toNat = out.length :=
  Nat.mod_eq_of_lt (h.room.trans_lt s.w.lim.isLt)

/-- The limit is reached exactly when it is the number of bytes decoded. -/
theorem BytesDecoded.outPos_eq_lim_iff {s : State} {out : List Byte} {m : Memory} (h : BytesDecoded s out m) (v : Work)
    (pos : Nat) : (s.decodingAt v m pos out).w.outPos = s.w.lim ↔ out.length = s.w.lim.toNat := by
  rw [← BitVec.toNat_inj, h.outPos_toNat v pos]

/-- The bytes of the next group are those of the round of `decode_fn` (R180). -/
theorem BytesDecoded.groupOut_eq {s : State} {out : List Byte} {m : Memory} (h : BytesDecoded s out m) (v : Work)
    (pos : Nat) (g : List Byte) :
    (s.decodingAt v m pos out).w.groupOut g = (decodeGroup g).take (s.w.lim.toNat - out.length) := by
  rw [Work.groupOut, h.outPos_toNat v pos]
  rfl

/-- The bytes of a group fit under the limit (R174). -/
theorem BytesDecoded.length_add_groupOut_le {s : State} {out : List Byte} {m : Memory} (h : BytesDecoded s out m)
    (g : List Byte) : out.length + ((decodeGroup g).take (s.w.lim.toNat - out.length)).length ≤ s.w.lim.toNat := by
  have hroom := h.room
  have hcut := List.length_take_le (s.w.lim.toNat - out.length) (decodeGroup g)
  omega

/-- A group moves the positions on by its symbols and its bytes. -/
theorem BytesDecoded.afterGroup_eq {s : State} {out : List Byte} {m : Memory} (h : BytesDecoded s out m) (v : Work)
    (pos : Nat) {g new : List Byte} (hnew : (decodeGroup g).take (s.w.lim.toNat - out.length) = new) :
    let t := s.decodingAt v m pos out
    t.afterGroup g = s.decodingAt (t.w.afterGroup g) (t.w.store m new) (pos + g.length) (out ++ new) := by
  rw [← hnew, ← h.groupOut_eq v pos g]
  simp only [State.decodingAt, State.afterGroup, Work.afterGroup, List.length_append, BitVec.ofNat_add]

/-! ### The text in memory (R171) -/

theorem Holds.drop {m : Memory} {a : Addr} {xs : List Byte} (h : Holds m a xs) (i : Nat) :
    Holds m (a + BitVec.ofNat 32 i) (xs.drop i) := by
  intro j hj
  rw [List.length_drop] at hj
  rw [add_ofNat_add, h (i + j) (by omega), List.getElem_drop]

theorem Holds.take {m : Memory} {a : Addr} {xs : List Byte} (h : Holds m a xs) (i : Nat) : Holds m a (xs.take i) := by
  rw [← List.take_append_drop i xs] at h
  exact h.left

/-- The text still to come and its terminator, untouched by the bytes written. -/
theorem DecodeReady.holds_rest {s : State} {text : List Byte} {n : Nat} (h : DecodeReady s text n) {out : List Byte}
    {m : Memory} (hm : BytesDecoded s out m) (hn : out.length ≤ n) {pos : Nat} (hpos : pos ≤ text.length) :
    Holds m (s.w.src + BitVec.ofNat 32 pos) (text.drop pos ++ [0x00]) := by
  rw [← List.drop_append_of_le_length hpos]
  refine Holds.drop (h.input.of_sameOutside hm.kept fun i hi j hj => h.apart i ?_ j (hj.trans_le hn)) pos
  rwa [List.length_append] at hi

/-- The first failing symbol of a list, taken out of it. -/
theorem exists_of_firstBad_eq_some {p : Bool} {g : List Byte} {n : Nat} (h : firstBad p g = some n) :
    ∃ front c rest, g = front ++ [c] ++ rest ∧ front.length = n ∧ firstBad p (front ++ [c]) = some n := by
  have hlt := firstBad_lt h
  have hg : g = g.take n ++ [g[n]] ++ g.drop (n + 1) := by
    rw [List.take_append_getElem, List.take_append_drop]
  refine ⟨g.take n, g[n], g.drop (n + 1), hg, List.length_take_of_le hlt.le, ?_⟩
  rw [hg, firstBad_append] at h
  cases hf : firstBad p (g.take n ++ [g[n]]) with
  | some m => rwa [hf, Option.some_or] at h
  | none =>
    rw [hf, Option.none_or, Option.map_eq_some_iff] at h
    obtain ⟨m, -, hm⟩ := h
    rw [List.length_append, List.length_take_of_le hlt.le, List.length_singleton] at hm
    omega

/-- The bytes decoded only grow (R180). -/
theorem length_le_of_decodeLoop {limit fuel pos : Nat} {out text : List Byte} {d : Decoded}
    (h : decodeLoop limit fuel out pos text = some d) : out.length ≤ d.out.length := by
  fun_induction decodeLoop limit fuel out pos text with
  | case1 => cases h
  | case2 | case3 | case4 =>
    cases h
    exact le_rfl
  | case5 fuel out pos text hlim g hg hf out' hshort =>
    cases h
    exact (Nat.le_add_right _ _).trans_eq List.length_append.symm
  | case6 fuel out pos text hlim g hg hf out' hwhole ih =>
    have hround : out.length ≤ out'.length := (Nat.le_add_right _ _).trans_eq List.length_append.symm
    exact hround.trans (ih h)

/-- A run of at most `k` steps completes as `d` says, with `d`'s bytes decoded (R180). -/
def State.CompletesAs (t s : State) (k : Nat) (d : Decoded) : Prop :=
  ∃ m u, m ≤ k ∧ runSteps m t = .next u ∧
    Completed u d.code (BitVec.ofNat 32 d.out.length) (BitVec.ofNat 32 d.errPos) ∧ BytesDecoded s d.out u.mem

theorem State.CompletesAs.of_step {s t u : State} {k : Nat} {d : Decoded} (hstep : step t = .next u)
    (hdone : Completed u d.code (BitVec.ofNat 32 d.out.length) (BitVec.ofNat 32 d.errPos))
    (hm : BytesDecoded s d.out u.mem) : t.CompletesAs s (k + 1) d :=
  ⟨1, u, Nat.le_add_left _ _, runSteps_cons hstep, hdone, hm⟩

theorem State.CompletesAs.cons {s t u : State} {k : Nat} {d : Decoded} (hstep : step t = .next u)
    (h : u.CompletesAs s k d) : t.CompletesAs s (k + 1) d := by
  obtain ⟨n, v, hn, hrun, hdone, hm⟩ := h
  exact ⟨n + 1, v, Nat.succ_le_succ hn, (runSteps_cons hstep).trans hrun, hdone, hm⟩

/-! ### The rounds of `decode_fn` as steps of the engine (R180)

In a state ready for the run of DECODE, with `out` decoded from the first `pos` symbols. -/

section

variable {s : State} {text out : List Byte} {n pos : Nat} {m : Memory}

/-- Between groups the step is DECODE's. -/
theorem DecodeReady.step_decodingAt (h : DecodeReady s text n) (v : Work) (m : Memory) (pos : Nat) (out : List Byte) :
    step (s.decodingAt v m pos out) = exec .decode (s.decodingAt v m pos out) := by
  obtain ⟨hrun, -, -, -, hstuck, hbus⟩ := h.accepted
  exact step_decode hrun hstuck hbus

/-- At the limit the step completes (R175). -/
theorem DecodeReady.completesAs_limit (h : DecodeReady s text n) (hm : BytesDecoded s out m)
    (hlim : out.length = s.w.lim.toNat) (v : Work) (k : Nat) :
    (s.decodingAt v m pos out).CompletesAs s (k + 1) { code := .ok, out := out, errPos := 0 } := by
  have hexec := exec_decode_limit (s := s.decodingAt v m pos out) h.accepted.1 ((hm.outPos_eq_lim_iff v pos).mpr hlim)
  exact .of_step ((h.step_decodingAt ..).trans hexec) ⟨rfl, rfl, rfl, rfl, rfl⟩ hm

/-- After the last whole group the step reads the terminator and completes (R175). -/
theorem DecodeReady.completesAs_terminator (h : DecodeReady s text n) (hm : BytesDecoded s out m) (hn : out.length ≤ n)
    (hlim : out.length ≠ s.w.lim.toNat) (hpos : pos = text.length) (v : Work) (k : Nat) :
    (s.decodingAt v m pos out).CompletesAs s (k + 1) { code := .ok, out := out, errPos := 0 } := by
  subst hpos
  have hinput := h.holds_rest hm hn le_rfl
  rw [List.drop_length, holds_concat_iff, List.length_nil, BitVec.add_zero] at hinput
  have hexec := exec_decode_terminator (s := s.decodingAt v m text.length out) h.accepted.1
    ((hm.outPos_eq_lim_iff v _).not.mpr hlim) (h.source _ (Nat.lt_succ_self _)) hinput.2
  exact .of_step ((h.step_decodingAt ..).trans hexec) ⟨rfl, rfl, rfl, rfl, rfl⟩ hm

/-- At the first failing symbol of a group the step completes (R176). -/
theorem DecodeReady.completesAs_bad (h : DecodeReady s text n) (hm : BytesDecoded s out m) (hn : out.length ≤ n)
    (hlim : out.length ≠ s.w.lim.toNat) (hpos : pos ≤ text.length) {i : Nat}
    (hf : firstBad false ((text.drop pos).take 8) = some i) (v : Work) (k : Nat) :
    (s.decodingAt v m pos out).CompletesAs s (k + 1) { code := .invalidSymbol, out := out, errPos := pos + i } := by
  obtain ⟨front, c, tail, hsplit, rfl, hbad⟩ := exists_of_firstBad_eq_some hf
  have hi := firstBad_lt hf
  rw [List.length_take, List.length_drop] at hi
  have hinput := (h.holds_rest hm hn hpos).left.take 8
  have h0 : (0x00 : Byte) ∉ front ++ [c] := fun hmem =>
    h.symbols (List.mem_of_mem_drop (List.mem_of_mem_take (hsplit ▸ List.mem_append_left tail hmem)))
  rw [hsplit] at hinput
  have hexec := exec_decode_bad (s := s.decodingAt v m pos out) h.accepted.1 ((hm.outPos_eq_lim_iff v _).not.mpr hlim)
    hinput.left h0 (by omega) hbad (admitted_add h.source (by omega))
  exact .of_step ((h.step_decodingAt ..).trans hexec) ⟨rfl, rfl, rfl, rfl, (BitVec.ofNat_add ..).symm⟩ hm

/-- The group of the round that begins at `pos` (R171). -/
theorem DecodeReady.meetsGroup (h : DecodeReady s text n) (hm : BytesDecoded s out m) {g : List Byte}
    (hg : (text.drop pos).take 8 = g) (hne : g ≠ []) (hgood : firstBad false g = none)
    (hlim : out.length ≠ s.w.lim.toNat)
    (hn : (out ++ (decodeGroup g).take (s.w.lim.toNat - out.length)).length ≤ n) (v : Work) :
    MeetsGroup (s.decodingAt v m pos out) g := by
  rw [List.length_append] at hn
  have hpos : pos ≤ text.length := by
    by_contra hgt
    rw [List.drop_eq_nil_of_le (by omega)] at hg
    exact hne hg.symm
  have hlen : g.length = min 8 (text.length - pos) := by rw [← hg, List.length_take, List.length_drop]
  have hrest := h.holds_rest hm (by omega) hpos
  constructor
  case runs => exact h.accepted.1
  case below => exact (hm.outPos_eq_lim_iff v pos).not.mpr hlim
  case input => exact hg ▸ hrest.left.take 8
  case symbols => exact fun h0 => h.symbols (List.mem_of_mem_drop (List.mem_of_mem_take (hg ▸ h0)))
  case nonempty => exact hne
  case good => exact hgood
  case ends =>
    refine (Nat.lt_or_eq_of_le (show g.length ≤ 8 by omega)).symm.imp_right fun hlt => ⟨hlt, ?_⟩
    have hall : text.drop pos = g := by rw [← hg, List.take_of_length_le (by rw [List.length_drop]; omega)]
    exact hall ▸ (holds_concat_iff.mp hrest).2
  case source => exact admitted_add h.source (by omega)
  case dest =>
    rw [hm.groupOut_eq]
    exact admitted_add h.dest hn

/-- A group none of whose symbols fails is one step, after which the bytes of the round are decoded (R172, R180). -/
theorem DecodeReady.step_group (h : DecodeReady s text n) (hm : BytesDecoded s out m) {g new : List Byte}
    (hg : (text.drop pos).take 8 = g) (hne : g ≠ []) (hgood : firstBad false g = none)
    (hlim : out.length ≠ s.w.lim.toNat) (hnew : (decodeGroup g).take (s.w.lim.toNat - out.length) = new)
    (hn : (out ++ new).length ≤ n) (v : Work) :
    ∃ v' m', BytesDecoded s (out ++ new) m' ∧
      step (s.decodingAt v m pos out) =
        .next (if g.length = 8 then s.decodingAt v' m' (pos + g.length) (out ++ new)
          else (s.decodingAt v' m' (pos + g.length) (out ++ new)).complete .ok
            (BitVec.ofNat 32 (out ++ new).length) 0) := by
  subst hnew
  have hafter := hm.afterGroup_eq v pos (g := g) rfl
  have hout : ((s.decodingAt v m pos out).w.afterGroup g).outPos = BitVec.ofNat 32 _ :=
    congrArg (fun u => u.w.outPos) hafter
  refine ⟨(s.decodingAt v m pos out).w.afterGroup g, _, hm.append (hm.length_add_groupOut_le g) v pos, ?_⟩
  rw [h.step_decodingAt, exec_decode_group (h.meetsGroup hm hg hne hgood hlim hn v), State.groupEnd, hout, hafter]

end

/-- From any round of `decode_fn` on, the engine completes as the rest of the loop says: each round is one step. -/
theorem DecodeReady.completesAs {s : State} {text : List Byte} {d : Decoded} (h : DecodeReady s text d.out.length)
    {fuel pos : Nat} {out rest : List Byte} (hloop : decodeLoop s.w.lim.toNat fuel out pos rest = some d)
    (hrest : rest = text.drop pos) (hpos : pos ≤ text.length) {m : Memory} (hm : BytesDecoded s out m) (v : Work) :
    (s.decodingAt v m pos out).CompletesAs s ((rest.length + 7) / 8 + 1) d := by
  generalize hl : s.w.lim.toNat = limit at hloop
  fun_induction decodeLoop limit fuel out pos rest generalizing m v with
  | case1 => cases hloop
  | case2 fuel out pos rest hlim =>
    cases hloop
    exact h.completesAs_limit hm (hlim.trans hl.symm) v _
  | case3 fuel out pos rest hlim g hg =>
    subst hl hrest
    cases hloop
    have hend : text.drop pos = [] := by simpa [g] using hg
    exact h.completesAs_terminator hm le_rfl hlim (le_antisymm hpos (List.drop_eq_nil_iff.mp hend)) v _
  | case4 fuel out pos rest hlim g hg i hf =>
    subst hl hrest
    cases hloop
    exact h.completesAs_bad hm le_rfl hlim hpos hf v _
  | case5 fuel out pos rest hlim g hg hf out' hshort =>
    subst hl hrest
    cases hloop
    obtain ⟨v', m', hm', hstep⟩ := h.step_group hm rfl hg hf hlim rfl le_rfl v
    rw [if_neg hshort.ne] at hstep
    exact .of_step hstep ⟨rfl, rfl, rfl, rfl, rfl⟩ hm'
  | case6 fuel out pos rest hlim g hg hf out' hwhole ih =>
    subst hl hrest
    have hlen : g.length = min 8 (text.drop pos).length := List.length_take
    have hrest : (text.drop pos).length = text.length - pos := List.length_drop
    have h8 : g.length = 8 := by omega
    obtain ⟨v', m', hm', hstep⟩ := h.step_group hm rfl hg hf hlim rfl (length_le_of_decodeLoop hloop) v
    rw [if_pos h8, h8] at hstep
    have hrun := (ih List.drop_drop (by omega) hm' v' hloop).cons hstep
    rwa [List.length_drop, show ((text.drop pos).length - 8 + 7) / 8 + 1 = ((text.drop pos).length + 7) / 8 by omega]
      at hrun

/-- Settles O56: the run from the first round of `decode_fn`. -/
theorem decodeRunComputesDecodedText : Obligations.DecodeRunComputesDecodedText := by
  intro s text d hacc hinput h0 _ hd hsrc hdst hapart
  have h : DecodeReady s text d.out.length := ⟨hacc, hinput, h0, hsrc, hdst, hapart⟩
  have hstart := h.completesAs hd (List.drop_zero (l := text)).symm (Nat.zero_le _) (.nil s) s.w
  obtain ⟨-, -, hin, hout, -, -⟩ := hacc
  rw [State.decodingAt_zero hin hout] at hstart
  obtain ⟨m, t, hm, hrun, hdone, -, hheld, hkept⟩ := hstart
  exact ⟨m, t, hm, hrun, hdone, hheld, hkept⟩

/-! ### The round trip of the two commands (R181) -/

/-- No symbol value has the terminator (R100). -/
theorem alphabet_ne_terminator (v : SymVal) : alphabet v ≠ 0x00 := by
  revert v
  decide

/-- A text that ENCODE writes has no terminator in it. -/
theorem terminator_notMem_encodeText (bytes : List Byte) : (0x00 : Byte) ∉ encodeText bytes := by
  obtain ⟨vals, htext⟩ := encodeText_eq_data_pads bytes
  rw [htext, List.mem_append, List.mem_map, List.mem_replicate, not_or]
  refine ⟨fun ⟨v, _, hv⟩ => alphabet_ne_terminator v hv, fun ⟨_, hpad⟩ => absurd hpad (by decide)⟩

/-- Settles O58: the run computes `decode_fn`, which inverts `encode`. -/
theorem decodeRunOfEncodedTextGivesBytes : Obligations.DecodeRunOfEncodedTextGivesBytes := by
  intro s bytes hmax hacc hinput hsrc hdst hapart
  have hlen : (encodeText bytes).length < 2 ^ 32 := by
    rw [encodeText_length]
    omega
  have hout : min bytes.length s.w.lim.toNat = (bytes.take s.w.lim.toNat).length := by
    rw [List.length_take, Nat.min_comm]
  rw [List.length_append, List.length_singleton] at hsrc hapart
  rw [hout] at hdst hapart ⊢
  obtain ⟨m, t, -, hrun, hdone, hheld, hkept⟩ := decodeRunComputesDecodedText s (encodeText bytes) _ hacc hinput
    (terminator_notMem_encodeText bytes) hlen (decodeTextInvertsEncodeText bytes s.w.lim.toNat) hsrc hdst hapart
  exact ⟨m, t, hrun, hdone, hheld, hkept⟩

end Sys2Proof.Machine

/-! ### Errors and idleness (60_exceptions.md R212, R224)

`State.host_cases` says once what an access of the host can do. From it a list of accesses keeps CODE, RESULT and ERR_POS
or holds a write to CMD (`State.hosts_completion`), and each slot of an idle engine comes down to such a list. -/

namespace Sys2Proof.Machine

/-- Settles O52: with no event to come the step is the engine's turn, and an idle engine that is not stuck has none. -/
theorem idleStatePersists : Obligations.IdleStatePersists := by
  intro s hbus hop hn
  rw [step_nil hbus, State.engineTurn_idle hop hn]

/-- All a write of a register can do: give an argument register a value, nothing, or, at CMD, start a command or complete
as BAD_COMMAND (R29, R57, R76, R80). -/
theorem State.writeReg_cases {s t : State} {r : Reg} {v : Word} (ht : s.writeReg r v = .next t) :
    (∃ a b c d, t = { s with srcAddr := a, srcLen := b, dstAddr := c, dstLimit := d }) ∨
      (r = .cmd ∧ ((∃ i, t = s.accept i) ∨ t = s.badCommand)) := by
  by_cases hb : s.busy = true
  · rw [State.writeReg_busy hb] at ht
    cases ht
    exact .inl ⟨_, _, _, _, rfl⟩
  · by_cases hr : r = .cmd
    · exact (State.writeReg_idle (by simpa using hb) ht).imp_right fun h => ⟨hr, h⟩
    · simp only [State.writeReg, if_neg hb] at ht
      cases r with
      | cmd => exact absurd rfl hr
      | _ =>
        cases ht
        exact .inl ⟨_, _, _, _, rfl⟩

/-- All an access of the host can do: change memory, the readings and the argument registers, or, as a write to CMD, start
a command or complete as BAD_COMMAND. -/
theorem State.host_cases {s t : State} {h : HostAccess} (ht : s.host h = .next t) :
    (∃ m l a b c d,
      t = { s with mem := m, seen := l, srcAddr := a, srcLen := b, dstAddr := c, dstLimit := d }) ∨
      (WritesCmd s.platform h ∧ ((∃ i, t = s.accept i) ∨ t = s.badCommand)) := by
  cases h with
  | write a bytes v =>
    simp only [State.host, State.busWrite] at ht
    split at ht
    · cases ht
      exact .inl ⟨_, _, _, _, _, _, rfl⟩
    · cases ht
    · next r htarget =>
      rcases State.writeReg_cases ht with ⟨a, b, c, d, rfl⟩ | ⟨rfl, hcmd⟩
      · exact .inl ⟨_, _, _, _, _, _, rfl⟩
      · exact .inr ⟨⟨a, bytes, v, rfl, htarget⟩, hcmd⟩
  | read a bytes =>
    simp only [State.host, State.busRead] at ht
    split at ht <;> cases ht <;> exact .inl ⟨_, _, _, _, _, _, rfl⟩
  | store a v =>
    simp only [State.host, State.hostStore] at ht
    split at ht <;> cases ht
    exact .inl ⟨_, _, _, _, _, _, rfl⟩
  | load a =>
    simp only [State.host, State.hostLoad] at ht
    split at ht <;> cases ht
    exact .inl ⟨_, _, _, _, _, _, rfl⟩

/-- CODE, RESULT and ERR_POS of `t` are those of `s`. -/
def State.SameCompletion (s t : State) : Prop := t.code = s.code ∧ t.result = s.result ∧ t.errPos = s.errPos

/-- CODE, RESULT and ERR_POS as an acceptance, a BAD_COMMAND or a reset leaves them (R76, R80, R240). -/
def State.CompletionReplaced (t : State) : Prop :=
  (t.code = .ok ∨ t.code = .badCommand) ∧ t.result = 0 ∧ t.errPos = 0

theorem State.SameCompletion.refl (s : State) : s.SameCompletion s := ⟨rfl, rfl, rfl⟩

theorem State.completionReplaced_accept (s : State) (i : Instr) : (s.accept i).CompletionReplaced := ⟨.inl rfl, rfl, rfl⟩

theorem State.completionReplaced_badCommand (s : State) : s.badCommand.CompletionReplaced := ⟨.inr rfl, rfl, rfl⟩

theorem State.completionReplaced_resetEvent (s : State) : s.resetEvent.CompletionReplaced := ⟨.inl rfl, rfl, rfl⟩

/-- An access of the host keeps CODE, RESULT and ERR_POS, or is a write to CMD that replaces them. -/
theorem State.host_completion {s t : State} {h : HostAccess} (ht : s.host h = .next t) :
    s.SameCompletion t ∨ (t.CompletionReplaced ∧ WritesCmd s.platform h) := by
  rcases State.host_cases ht with ⟨m, l, a, b, c, d, rfl⟩ | ⟨hcmd, ⟨i, rfl⟩ | rfl⟩
  · exact .inl (.refl s)
  · exact .inr ⟨s.completionReplaced_accept i, hcmd⟩
  · exact .inr ⟨s.completionReplaced_badCommand, hcmd⟩

/-- A list of accesses keeps CODE, RESULT and ERR_POS, or holds a write to CMD and leaves them replaced. -/
theorem State.hosts_completion {s t : State} {hs : List HostAccess} (ht : s.hosts hs = .next t) :
    s.SameCompletion t ∨ (t.CompletionReplaced ∧ ∃ h ∈ hs, WritesCmd s.platform h) := by
  refine (State.hosts_keeps (P := fun u => u.platform = s.platform ∧
    (s.SameCompletion u ∨ (u.CompletionReplaced ∧ ∃ h ∈ hs, WritesCmd s.platform h)))
    (fun h hmem u v ⟨hp, hu⟩ hv => ⟨(State.host_frame hv).1.trans hp, ?_⟩) ⟨rfl, .inl (.refl s)⟩ ht).2
  rcases State.host_completion hv with ⟨hcode, hresult, herrPos⟩ | ⟨hreplaced, hcmd⟩
  · simpa only [State.SameCompletion, State.CompletionReplaced, hcode, hresult, herrPos] using hu
  · exact .inr ⟨hreplaced, h, hmem, hp ▸ hcmd⟩

/-- The slot of an idle engine passes without a step, whether the engine is marked stuck or not (R81). -/
theorem State.engineSlot_idle {s : State} (hop : s.w.op = .idle) : s.engineSlot = .next s := by
  cases hn : s.stuckAt with
  | none => exact State.engineSlot_next (State.engineTurn_idle hop hn)
  | some a => exact State.engineSlot_of_stuck hn

/-- A slot with accesses inside is, for an idle engine, the accesses and the reset that is due (R81). -/
theorem State.splitSlot_idle {s : State} (hop : s.w.op = .idle) (between : List (List HostAccess)) (r : Option Nat) :
    s.splitSlot between r = s.endSlot between r id := by
  cases hn : s.stuckAt <;> simp [State.splitSlot, Work.running, hop, hn]

/-- The slot of an idle engine keeps CODE, RESULT and ERR_POS, or a write to CMD or a reset in it replaces them. -/
theorem State.splitSlot_completion {s t : State} (hop : s.w.op = .idle) {between : List (List HostAccess)}
    {r : Option Nat} (ht : s.splitSlot between r = .next t) :
    s.SameCompletion t ∨
      (t.CompletionReplaced ∧ (r ≠ none ∨ ∃ h ∈ between.flatten, WritesCmd s.platform h)) := by
  rw [State.splitSlot_idle hop] at ht
  obtain ⟨u, hu, ⟨rfl, rfl⟩ | ⟨hr, rfl⟩⟩ := State.endSlot_next ht
  · exact (State.hosts_completion hu).imp_right fun ⟨hreplaced, hcmd⟩ => ⟨hreplaced, .inr hcmd⟩
  · exact .inr ⟨u.completionReplaced_resetEvent, .inl hr⟩

/-- Settles O51: the engine's turn and the poll keep the three values; an access of the host, a slot and a reset do as
`State.host_completion`, `State.splitSlot_completion` and `State.completionReplaced_resetEvent` say. -/
theorem completionValuesPersist : Obligations.CompletionValuesPersist := by
  intro s t hb hop ht
  cases hbus : s.bus with
  | nil =>
    rw [step_nil hbus] at ht
    have hkeeps := (State.engineSlot_next ht).symm.trans (State.engineSlot_idle hop)
    cases hkeeps
    exact .inl ⟨rfl, rfl, rfl⟩
  | cons e rest =>
    rw [step_cons hbus] at ht
    cases e with
    | host h =>
      rcases State.host_completion ht with hsame | ⟨⟨hcode, hresult, herrPos⟩, hcmd⟩
      · exact .inl hsame
      · exact .inr ⟨hcode, hresult, herrPos, .inl ⟨h, rest, rfl, hcmd⟩⟩
    | wait =>
      rw [State.takeEvent, State.waitRound, if_neg (by simp [hb])] at ht
      cases ht
      exact .inl ⟨rfl, rfl, rfl⟩
    | engine =>
      rw [State.takeEvent, State.engineSlot_idle (by exact hop)] at ht
      cases ht
      exact .inl ⟨rfl, rfl, rfl⟩
    | split between r =>
      rcases State.splitSlot_completion (s := { s with bus := rest }) hop ht with
        hsame | ⟨⟨hcode, hresult, herrPos⟩, hreplacer⟩
      · exact .inl hsame
      · exact .inr ⟨hcode, hresult, herrPos, .inr (.inr ⟨between, r, rest, rfl, hreplacer⟩)⟩
    | reset =>
      cases ht
      obtain ⟨hcode, hresult, herrPos⟩ := State.completionReplaced_resetEvent { s with bus := rest }
      exact .inr ⟨hcode, hresult, herrPos, .inr (.inl ⟨rest, rfl⟩)⟩

end Sys2Proof.Machine

/-! ### Reset and hazards (70_reset_and_hazards.md R240 to R243, R254)

A step cut by reset comes down to one form: `resetEvent` of the memory that holds the bytes written so far, which
`resetLeaves_of_runSplit` reads off as `ResetLeaves`. The laws of Laws/Split.lean say where the reset falls among the
step's reads and writes. -/

namespace Sys2Proof.Machine

/-- A split slot of a running engine that is not stuck is its engine step, event by event. -/
theorem step_split {s : State} {i : Instr} {between : List (List HostAccess)} {r : Option Nat} {rest : List Event}
    (hr : s.w.running = some i) (hn : s.stuckAt = none) (hbus : s.bus = .split between r :: rest) :
    step s = (engineProg i s.w).runSplit between r { s with bus := rest } :=
  (step_cons hbus).trans (State.splitSlot_running (s := { s with bus := rest }) between r hr hn)

/-- A step whose reset finds `written` at the output position leaves just these bytes and an idle block (R240, R241). -/
theorem resetLeaves_of_runSplit {s : State} {i : Instr} {e : Nat} {rest : List Event} {written : List Byte}
    (hr : s.w.running = some i) (hn : s.stuckAt = none) (hbus : s.bus = .split [] (some e) :: rest)
    (hl : written.length ≤ 8)
    (hrun : (engineProg i s.w).runSplit [] (some e) { s with bus := rest } =
      .next (State.resetEvent { s with bus := rest, mem := s.w.store s.mem written })) :
    ResetLeaves s rest (s.w.dst + s.w.outPos) written :=
  ⟨_, (step_split hr hn hbus).trans hrun, rfl, State.resetEvent_readReg _, rfl,
    s.w.holds_store s.mem (hl.trans (by norm_num)), s.w.sameOutside_store s.mem written⟩

/-- A reset due before the end of a step that goes on (R241). -/
theorem EngineProg.runSplit_goOn_reset (w : Work) (e : Nat) (s : State) :
    (EngineProg.goOn w).runSplit [] (some e) s = .next s.resetEvent := State.endSlot_nil ..

/-- A reset due before a completion (R241). -/
theorem EngineProg.runSplit_complete_reset (w : Work) (c : Code) (r p : Word) (e : Nat) (s : State) :
    (EngineProg.complete w c r p).runSplit [] (some e) s = .next s.resetEvent := State.endSlot_nil ..

/-- A reset after `e` events of the writes that end a step leaves the first `e` bytes, all when there are fewer. -/
theorem writeBytes_last_reset {w : Work} {next : EngineProg} {bytes : List Byte} (e : Nat) (s : State)
    (hdst : ∀ i < bytes.length, s.platform.admits (w.dstAt i) = true)
    (hnext : ∀ (k : Nat) (t : State), next.runSplit [] (some k) t = .next t.resetEvent) :
    (writeBytes w next 0 bytes).runSplit [] (some e) s =
      .next (State.resetEvent { s with mem := w.store s.mem (bytes.take e) }) := by
  simp only [writeBytes_reset w next 0 bytes e s (by simpa using hdst), hnext, ite_self]
  rfl

/-- Settles O43: the event is `State.resetEvent`, whose registers read 0. -/
theorem resetEventIdlesTheBlock : Obligations.ResetEventIdlesTheBlock :=
  fun s rest hbus => ⟨State.resetEvent { s with bus := rest }, step_cons hbus, rfl, State.resetEvent_readReg _, rfl⟩

/-! ### Reset inside ENCODE (R241) -/

/-- The symbols of a Quintet Group as the engine reads it are `encode_group` of the bytes in memory (R142, R145). -/
theorem groupSymbols_readGroup (w : Work) (m : Memory) :
    groupSymbols ((List.range' 0 (quintetSize w)).foldl (fun acc i => setGroupByte acc i (m.read (w.srcAt i))) 0)
        (quintetSize w) =
      encodeGroup (m.bytesAt (w.src + w.inPos) (quintetSize w)) := by
  have hacc := readGroup_acc (fun i => m.read (w.srcAt i)) (quintetSize w) (Nat.min_le_left _ _)
  rw [hacc, ← groupSymbols_groupOfBytes, Memory.bytesAt_length]
  rfl

/-- A Quintet Group cut by reset: nothing written while it is read, then its first symbols. -/
theorem encodeGroupProg_reset {w : Work} (e : Nat) (s : State)
    (hsrc : Admitted s.platform (w.src + w.inPos) (quintetSize w)) (hdst : Admitted s.platform (w.dst + w.outPos) 8) :
    (encodeGroupProg w).runSplit [] (some e) s = .next (State.resetEvent { s with
      mem := w.store s.mem
        ((encodeGroup (s.mem.bytesAt (w.src + w.inPos) (quintetSize w))).take (e - quintetSize w)) }) := by
  rw [encodeGroupProg, readGroup_reset _ _ _ _ _ _ _ (fun i hi => by rw [Nat.zero_add]; exact hsrc i hi)]
  split
  · next hlt =>
    rw [Nat.sub_eq_zero_of_le hlt.le]
    rfl
  · rw [groupSymbols_readGroup]
    exact writeBytes_last_reset _ s (fun i hi => hdst i (encodeGroup_length _ ▸ hi)) (EngineProg.runSplit_goOn_reset _)

/-- ENCODE's last step cut by reset: the terminator is left only when its write has happened (R146). -/
theorem encodeEndProg_reset {w : Work} (e : Nat) (s : State) (ha : s.platform.admits (w.dst + w.outPos) = true) :
    (encodeEndProg w).runSplit [] (some e) s =
      .next (State.resetEvent { s with mem := w.store s.mem ([Config.terminator].take e) }) := by
  have hdst (i : Nat) (hi : i < 1) : s.platform.admits (w.dstAt i) = true := by
    rwa [Nat.lt_one_iff.mp hi, Work.dstAt_zero]
  exact writeBytes_last_reset (bytes := [Config.terminator]) e s hdst (EngineProg.runSplit_complete_reset _ _ _ _)

/-- Settles O44: the two steps of phase GROUPS, `encodeGroupProg_reset` and `encodeEndProg_reset`. -/
theorem resetInsideGroupLeavesPrefix : Obligations.ResetInsideGroupLeavesPrefix := by
  intro s e rest ⟨hb, hop⟩ hp hn hbus n src dst
  have hr : s.w.running = some .encode := by simp [Work.running, hop, opOf]
  refine ⟨fun hlt hsrc hdst => resetLeaves_of_runSplit hr hn hbus ?_ ?_,
    fun hl ha => resetLeaves_of_runSplit hr hn hbus ?_ ?_⟩
  · exact (List.length_take_le' _ _).trans (encodeGroup_length _).le
  · rw [engineProg, encodeProg_group hp hlt]
    exact encodeGroupProg_reset e { s with bus := rest } hsrc hdst
  · exact (List.length_take_le' _ _).trans (by norm_num)
  · rw [engineProg, encodeProg_end hp hl]
    exact encodeEndProg_reset e { s with bus := rest } ha

/-! ### Reset inside DECODE (R241) -/

/-- A DECODE step below its limit cut by reset while it reads symbols none of which fails, or after them. -/
theorem decodeProg_good_reset {s : State} {g : List Byte} (e : Nat) (hlim : s.w.outPos ≠ s.w.lim) (hl : g.length ≤ 8)
    (ha : Admitted s.platform (s.w.src + s.w.inPos) g.length) (hg : Holds s.mem (s.w.src + s.w.inPos) g)
    (h0 : (0x00 : Byte) ∉ g) (hf : firstBad false g = none) :
    (decodeProg s.w).runSplit [] (some e) s =
      if e < g.length then .next s.resetEvent
      else (decodeSymbols (8 - g.length) g.length (absorb 0 s.w.freshGroup g)).runSplit [] (some (e - g.length)) s := by
  have hgood := decodeSymbols_good_reset g (8 - g.length) 0 s.w.freshGroup e s
    (fun j hj => by rw [Nat.zero_add]; exact ha j hj) (fun j hj => by simp only [Nat.zero_add]; exact hg j hj) h0 hf
  rwa [Nat.sub_add_cancel hl, Nat.zero_add, ← decodeProg_below hlim] at hgood

/-- A DECODE step over a group none of whose symbols fails, cut by reset among its reads, the terminator's included, or
after them. -/
theorem decodeProg_group_reset {s : State} {g : List Byte} (e : Nat) (hlim : s.w.outPos ≠ s.w.lim)
    (hg : Holds s.mem (s.w.src + s.w.inPos) g) (h0 : (0x00 : Byte) ∉ g) (hf : firstBad false g = none)
    (hend : g.length = 8 ∨
      (g.length < 8 ∧ s.mem.read (s.w.src + s.w.inPos + BitVec.ofNat 32 g.length) = 0x00))
    (ha : Admitted s.platform (s.w.src + s.w.inPos) (min 8 (g.length + 1))) :
    (decodeProg s.w).runSplit [] (some e) s =
      if e < min 8 (g.length + 1) then .next s.resetEvent
      else (decodeGroupEnd (absorb 0 s.w.freshGroup g) g.length (decide (g.length < 8))).runSplit []
        (some (e - min 8 (g.length + 1))) s := by
  rw [decodeProg_good_reset e hlim (by omega) (fun j hj => ha j (by omega)) hg h0 hf]
  rcases hend with h8 | ⟨hlt, hread⟩
  · rw [h8]
    rfl
  · have hsrc : (absorb 0 s.w.freshGroup g).srcAt g.length = s.w.src + s.w.inPos + BitVec.ofNat 32 g.length :=
      absorb_srcAt ..
    rw [show 8 - g.length = 7 - g.length + 1 by omega, decodeSymbols_end_reset, decide_eq_true hlt,
      show min 8 (g.length + 1) = g.length + 1 by omega, Nat.sub_sub]
    · rcases Nat.lt_trichotomy e g.length with hbefore | hat | hafter
      · rw [if_pos hbefore, if_pos (by omega)]
      · rw [if_neg (by omega), if_pos (by omega), if_pos (by omega)]
      · rw [if_neg (by omega), if_neg (by omega), if_neg (by omega)]
    · rw [hsrc]
      exact ha _ (by omega)
    · rw [hsrc, hread]

/-- The end of a group cut by reset after `e` events leaves the first `e` of the bytes kept under the limit. -/
theorem decodeGroupEnd_reset {w : Work} {count : Nat} {out : List Byte} (ended : Bool) (e : Nat) (s : State)
    (hout : (List.range (groupBytesKept w)).map (groupByte w.acc) = out) (hempty : count = 0 → out = [])
    (hdst : ∀ i < out.length, s.platform.admits (w.dstAt i) = true) :
    (decodeGroupEnd w count ended).runSplit [] (some e) s =
      .next (State.resetEvent { s with mem := w.store s.mem (out.take e) }) := by
  by_cases hc : count = 0
  · rw [decodeGroupEnd, if_pos hc, EngineProg.runSplit_complete_reset, hempty hc, List.take_nil]
    rfl
  · rw [decodeGroupEnd_symbols hc hout]
    refine writeBytes_last_reset e s hdst fun k t => ?_
    cases ended
    · exact EngineProg.runSplit_goOn_reset ..
    · exact EngineProg.runSplit_complete_reset ..

/-- A DECODE step over a whole or terminated group none of whose symbols fails, cut by reset: nothing written while it
reads, then the first of the bytes kept under the limit. -/
theorem decodeProg_reset {s : State} {g : List Byte} (e : Nat) (hlim : s.w.outPos ≠ s.w.lim)
    (hg : Holds s.mem (s.w.src + s.w.inPos) g) (h0 : (0x00 : Byte) ∉ g) (hf : firstBad false g = none)
    (hend : g.length = 8 ∨
      (g.length < 8 ∧ s.mem.read (s.w.src + s.w.inPos + BitVec.ofNat 32 g.length) = 0x00))
    (hsrc : Admitted s.platform (s.w.src + s.w.inPos) (min 8 (g.length + 1)))
    (hdst : Admitted s.platform (s.w.dst + s.w.outPos) (s.w.groupOut g).length) :
    (decodeProg s.w).runSplit [] (some e) s = .next (State.resetEvent { s with
      mem := s.w.store s.mem ((s.w.groupOut g).take (e - min 8 (g.length + 1))) }) := by
  rw [decodeProg_group_reset e hlim hg h0 hf hend hsrc]
  split
  · next hlt =>
    rw [Nat.sub_eq_zero_of_le hlt.le]
    rfl
  · have hl : g.length ≤ 8 := by omega
    have hempty (hc : g.length = 0) : s.w.groupOut g = [] := by
      rw [List.length_eq_zero_iff.mp hc, Work.groupOut, decodeGroup_nil, List.take_nil]
    rw [decodeGroupEnd_reset _ _ s (absorb_freshGroup_bytes g s.w hl hf) hempty fun i hi => by
      rw [absorb_dstAt]; exact hdst i hi, absorb_freshGroup s.w hl hf]
    rfl

/-- A DECODE step over a group whose last symbol `c` is the first to fail has written nothing at any reset. -/
theorem decodeProg_bad_reset {s : State} {g : List Byte} {c : Byte} (e : Nat) (hlim : s.w.outPos ≠ s.w.lim)
    (hinput : Holds s.mem (s.w.src + s.w.inPos) (g ++ [c])) (h0 : (0x00 : Byte) ∉ g ++ [c]) (hl : g.length < 8)
    (hf : firstBad false (g ++ [c]) = some g.length)
    (ha : Admitted s.platform (s.w.src + s.w.inPos) (g.length + 1)) :
    (decodeProg s.w).runSplit [] (some e) s = .next s.resetEvent := by
  obtain ⟨hg, hc⟩ := holds_concat_iff.mp hinput
  obtain ⟨hgood, hbad⟩ := (firstBad_concat_eq_some_iff false g c).mp hf
  rw [List.mem_append, List.mem_singleton, not_or] at h0
  have hsrc : (absorb 0 s.w.freshGroup g).srcAt g.length = s.w.src + s.w.inPos + BitVec.ofNat 32 g.length :=
    absorb_srcAt ..
  have hpad : (absorb 0 s.w.freshGroup g).pad = padded false g := absorb_pad ..
  rw [decodeProg_good_reset e hlim hl.le (fun j hj => ha j (Nat.lt_succ_of_lt hj)) hg h0.1 hgood,
    show 8 - g.length = 7 - g.length + 1 by omega,
    decodeSymbols_bad_reset _ _ _ _ _ c (hsrc ▸ ha _ (Nat.lt_succ_self _)) (hsrc ▸ hc) (Ne.symm h0.2) (hpad ▸ hbad),
    ite_self]

/-- Settles O45: a step at the limit only completes, and below it `decodeProg_reset` and `decodeProg_bad_reset` say what
a group leaves. -/
theorem resetInsideDecodeGroupLeavesPrefix : Obligations.ResetInsideDecodeGroupLeavesPrefix := by
  intro s g e rest ⟨hb, hop⟩ hn hbus src dst reads out
  have hr : s.w.running = some .decode := by simp [Work.running, hop, opOf]
  refine ⟨fun hlim => resetLeaves_of_runSplit hr hn hbus (Nat.zero_le _) ?_, fun hlim hg h0 =>
    ⟨fun hend hf hsrc hdst => resetLeaves_of_runSplit hr hn hbus ?_ ?_, fun n hn8 hlen hf ha =>
      resetLeaves_of_runSplit hr hn hbus (Nat.zero_le _) ?_⟩⟩
  · rw [engineProg, decodeProg, if_pos hlim]
    exact EngineProg.runSplit_complete_reset ..
  · exact (List.length_take_le' _ _).trans ((s.w.groupOut_length_le g).trans (by norm_num))
  · exact decodeProg_reset (s := { s with bus := rest }) e hlim hg h0 hf hend hsrc hdst
  · rcases List.eq_nil_or_concat' g with rfl | ⟨g, c, rfl⟩
    · cases hf
    · obtain rfl : g.length = n := by simpa using hlen
      exact decodeProg_bad_reset (s := { s with bus := rest }) e hlim hg h0 hn8 hf (by rwa [hlen] at ha)

/-! ### ENCODE straight after reset (R243) -/

/-- Settles O46: the write is accepted with every argument 0, and the guard asks for one byte where the limit is 0. -/
theorem encodeStraightAfterReset : Obligations.EncodeStraightAfterReset := by
  have hwrite := cmdWriteRunsDecodedInstruction { State.reset with bus := [issue State.reset.platform .encode] }
    (encode .encode) .encode [] rfl rfl ((decode_eq_ok_iff _ _).mpr rfl)
  have haccept : exec .encode State.reset = .next (State.reset.accept .encode) := exec_idle .encode rfl
  have hguard := (encodeGuard (State.reset.accept .encode) ⟨rfl, rfl⟩ rfl).2.1 (by decide) (by decide)
  have hturn := (step_nil (s := State.reset.accept .encode) rfl).trans (State.engineTurn_running rfl rfl)
  refine ⟨_, (runSteps_cons (hwrite.trans haccept)).trans (runSteps_cons (hturn.trans hguard)), ?_⟩
  exact ⟨rfl, rfl, rfl, rfl, rfl⟩

/-! ### A host store that races with the engine's read (20_memory.md R61, R254) -/

/-- Accesses of the host before a step's first event, with nothing after them inside, come before the whole step. -/
theorem EngineProg.runSplit_hosts_first (p : EngineProg) {hs : List HostAccess} {s t : State}
    (ht : s.hosts hs = .next t) : p.runSplit [hs] none s = p.runSplit [] none t := by
  cases p <;> simp [EngineProg.runSplit, State.endSlot, accessesLeft, ht]

/-- A read with nothing of the host before it, the accesses after it still to come. -/
theorem EngineProg.runSplit_read_free {a : Addr} {next : Byte → EngineProg} {bt : List (List HostAccess)} {s : State}
    (h : s.platform.admits a = true) :
    (EngineProg.read a next).runSplit ([] :: bt) none s = (next (s.mem.read a)).runSplit bt none s := by
  simp [EngineProg.runSplit, h]

/-- A store of the host to an address that exists. -/
theorem State.hosts_store {s : State} {a : Addr} {v : Byte} (ha : s.platform.admits a = true) :
    s.hosts [.store a v] = .next { s with mem := s.mem.write a v } := by
  simp [State.hosts, State.host, State.hostStore, ha]

/-- The symbols of a group written at the output position are held there. -/
theorem Work.holds_encodeGroup (w : Work) (m : Memory) (bytes : List Byte) :
    Holds (w.store m (encodeGroup bytes)) (w.dst + w.outPos) (encodeGroup bytes) :=
  w.holds_store m ((encodeGroup_length bytes).trans_le (by norm_num))

/-- A Quintet Group of one byte reads it and writes its eight symbols (R145). -/
theorem encodeGroupProg_singleton {w : Work} (hone : quintetSize w = 1) :
    encodeGroupProg w = .read (w.src + w.inPos) fun b =>
      writeBytes w (.goOn { w with acc := groupOfBytes [b], inPos := w.inPos + 1, outPos := w.outPos + 8 }) 0
        (encodeGroup [b]) := by
  have hacc (b : Byte) : setGroupByte 0 0 b = groupOfBytes [b] := readGroup_acc (fun _ => b) 1 (by norm_num)
  have hsrc : w.srcAt 0 = w.src + w.inPos := BitVec.add_zero _
  simp only [encodeGroupProg, hone, readGroup, hacc, hsrc, ← groupSymbols_groupOfBytes]
  rfl

/-- The writes that end a step which goes on. -/
theorem writeBytes_goOn_run {w : Work} {bytes : List Byte} {s : State} (w' : Work)
    (hdst : Admitted s.platform (w.dst + w.outPos) bytes.length) :
    (writeBytes w (.goOn w') 0 bytes).run s = .next { s with mem := w.store s.mem bytes, w := w' } := by
  rw [writeBytes_run _ _ _ _ _ fun i hi => by rw [Nat.zero_add]; exact hdst i hi, EngineProg.run_goOn]
  rfl

/-- Accesses of the host before the engine's read of a group of one byte: the symbols are of the byte they leave. -/
theorem encodeGroupProg_hosts_before_read {w : Work} {hs : List HostAccess} {s t : State} (hone : quintetSize w = 1)
    (ht : s.hosts hs = .next t) (hsrc : t.platform.admits (w.src + w.inPos) = true)
    (hdst : Admitted t.platform (w.dst + w.outPos) 8) :
    ∃ u, (encodeGroupProg w).runSplit [hs] none s = .next u ∧
      Holds u.mem (w.dst + w.outPos) (encodeGroup [t.mem.read (w.src + w.inPos)]) := by
  have hbytes : t.mem.bytesAt (w.src + w.inPos) (quintetSize w) = [t.mem.read (w.src + w.inPos)] := by
    simp [hone, Memory.bytesAt]
  have hadmit : Admitted t.platform (w.src + w.inPos) (quintetSize w) := by
    rw [hone]
    intro j hj
    rwa [Nat.lt_one_iff.mp hj, BitVec.add_zero]
  rw [EngineProg.runSplit_hosts_first _ ht]
  refine ⟨_, EngineProg.runSplit_nil _ (encodeGroupProg_run hbytes hadmit hdst), ?_⟩
  dsimp only
  exact w.holds_encodeGroup t.mem _

/-- Accesses of the host after the engine's read of a group of one byte: the symbols are of the byte before them. -/
theorem encodeGroupProg_hosts_after_read {w : Work} {hs : List HostAccess} {s t : State} (hone : quintetSize w = 1)
    (ht : s.hosts hs = .next t) (hsrc : s.platform.admits (w.src + w.inPos) = true)
    (hdst : Admitted t.platform (w.dst + w.outPos) 8) :
    ∃ u, (encodeGroupProg w).runSplit [[], hs] none s = .next u ∧
      Holds u.mem (w.dst + w.outPos) (encodeGroup [s.mem.read (w.src + w.inPos)]) := by
  rw [encodeGroupProg_singleton hone, EngineProg.runSplit_read_free hsrc, EngineProg.runSplit_hosts_first _ ht]
  refine ⟨_, EngineProg.runSplit_nil _ (writeBytes_goOn_run _ (by rwa [encodeGroup_length])), ?_⟩
  dsimp only
  exact w.holds_encodeGroup t.mem _

/-- Settles O48: before the read the store leaves the new byte to it; after it the old byte has been read. -/
theorem hostStoreRacesWithEngineRead : Obligations.HostStoreRacesWithEngineRead := by
  intro s v rest ⟨hb, hop⟩ hp hlen hn ha hdst
  have hr : s.w.running = some .encode := by simp [Work.running, hop, opOf]
  have hone : quintetSize s.w = 1 := by simp [quintetSize, hlen, Config.groupBytes]
  have hlt : s.w.inPos < s.w.len := by rw [BitVec.lt_def]; omega
  have hstore := State.hosts_store (s := { s with bus := rest }) (v := v) ha
  refine ⟨fun hbus => ?_, fun hbus => ?_⟩ <;> rw [step_split hr hn hbus, engineProg, encodeProg_group hp hlt]
  · have hbefore := encodeGroupProg_hosts_before_read hone hstore ha hdst
    rwa [Memory.read_write_same] at hbefore
  · exact encodeGroupProg_hosts_after_read hone hstore ha hdst

end Sys2Proof.Machine
